-- ==== Sys2Proof/Word.lean ====
section
/-! DEFINITION. The word types of the engine: the byte of the buffers and the window (00_scope R14), and the 32-bit word
of the register block (20_memory R56). -/

namespace Sys2Proof

/-- An unsigned 8-bit value (R14). -/
abbrev Byte := BitVec 8

/-- A word of the register block (R56). -/
abbrev Word := BitVec 32

end Sys2Proof
end

