-- ==== Sys2Proof/Config.lean ====
section
/-! DEFINITION. What an implementation fixes (the parameters of 00_scope R7) and the free values of everything the spec
leaves unspecified (10_state R42, R43; 20_memory R60). No constant below has a body: nothing can evaluate one, so a claim
is true whatever its value is. -/

namespace Sys2Proof

/-- The implementation parameters of R7, the OPEN ones and LOOKAHEAD. -/
structure Params where
  /-- `SEED_BYTE`, R10. -/
  seedByte : Byte
  /-- `SEED_CURSOR`, R11. -/
  seedCursor : BitVec 12
  /-- `LOOKAHEAD`, R12. -/
  lookahead : Nat
  /-- `IN_CAP`, R13. -/
  inCap : Nat
  /-- `OUT_CAP`, R13. -/
  outCap : Nat
  deriving DecidableEq, Repr

/-- The ranges R10 to R13 give the parameters. -/
abbrev Params.wf (p : Params) : Prop :=
  p.seedByte ≠ 0#8 ∧ p.seedCursor ≠ 0#12 ∧ 3 ≤ p.lookahead ∧ p.lookahead ≤ 18 ∧
    2 ≤ p.inCap ∧ p.inCap < 2 ^ 32 ∧ 2 ≤ p.outCap ∧ p.outCap < 2 ^ 32

/-- The window capacity `W` (R8). -/
abbrev windowSize : Nat := 4096

/-- `MIN_LENGTH` (R9). -/
abbrev minLength : Nat := 3

/-- `MAX_LENGTH` (R9). -/
abbrev maxLength : Nat := 18

/-- The address spaces that hold bytes (R50). -/
inductive Space where
  | win
  | inBuf
  | outBuf
  deriving DecidableEq, Repr

/-- The registers that R42 leaves unspecified after a reset. Each field has the range of its register. -/
structure Unspecified where
  cur : BitVec 12
  rem : BitVec 16
  rp : Nat
  ctrl : Byte
  bit : Fin 9
  src : BitVec 12
  /-- `LEN - 3`: R35 gives LEN the range 3..18. -/
  lenCode : Fin 16
  k : Fin 19
  ol : Nat
  pos : Nat
  fl : Byte
  nf : Fin 9
  pb : Vector Byte 16
  pl : Fin 17
  deriving DecidableEq, Repr, Inhabited

namespace Config

/-- `SEED_BYTE - 1` of the machine that `State.reset` stands for (log 1). -/
opaque seedByteLessOne : Fin 255

/-- `SEED_CURSOR - 1` of that machine (log 1). -/
opaque seedCursorLessOne : Fin 4095

/-- `LOOKAHEAD - 3` of that machine (log 1). -/
opaque lookaheadLessThree : Fin 16

/-- `IN_CAP - 2` of that machine (log 1). -/
opaque inCapLessTwo : Fin 4294967294

/-- `OUT_CAP - 2` of that machine (log 1). -/
opaque outCapLessTwo : Fin 4294967294

/-- The parameters of the machine that `State.reset` stands for: any values in the ranges of R10 to R13. -/
def params : Params where
  seedByte := BitVec.ofNat 8 (seedByteLessOne.val + 1)
  seedCursor := BitVec.ofNat 12 (seedCursorLessOne.val + 1)
  lookahead := lookaheadLessThree.val + 3
  inCap := inCapLessTwo.val + 2
  outCap := outCapLessTwo.val + 2

/-- What the registers of `Unspecified` hold after reset number `n` (log 2). -/
opaque unspecified : Nat → Unspecified

/-- The byte an unspecified place of a space yields: the space, the number of the draw, the address (log 3, 4, 5). -/
opaque freeByte : Space → Nat → Nat → Byte

end Config

end Sys2Proof
end

