-- ==== Sys2Proof/Machine/State.lean ====
section
/-! DEFINITION. The state of one engine instance with its IN and OUT buffers (10_state, 20_memory, 70_reset_and_hazards
R300), the reasons a step can stop, and the state after reset. -/

namespace Sys2Proof.Machine

/-- The bytes of an address space that something has written, by strictly rising address. An address that is not listed
holds the space's default where it has one, else no value (`Memory.wf`, `winDefault`). -/
abbrev Memory := List Host.Cell

/-- The FSM register (R31). -/
inductive Fsm where
  | idle
  | dCtrl
  | dUnit
  | dCopy
  | cMatch
  | cFlush
  | cPatch
  deriving DecidableEq, Repr

/-- The fields of the STATUS register (R23). Its reserved bits read 0 and hold nothing. -/
structure Status where
  busy : Bool
  done : Bool
  fault : Bool
  fcode : Byte
  deriving DecidableEq, Repr

/-- The fault codes the engine can put into STATUS.FCODE (R261). -/
inductive FaultCode where
  | badCmd
  | badLen
  | startRange
  | hdrOverrun
  | descTrunc
  | outOverflow
  | sizeOverflow
  /-- Reserved: never raised (R263). -/
  | winUnderflow
  deriving DecidableEq, Repr

/-- The width of a host access to the register block (R57). -/
inductive Width where
  | byte
  | half
  | word
  deriving DecidableEq, Repr

/-- A host action (R240, R245 to R247). -/
inductive HostAction where
  | readReg (width : Width) (offset : Nat)
  | writeReg (width : Width) (offset : Nat) (v : Word)
  | readIn (offset : Nat)
  | writeIn (offset : Nat) (b : Byte)
  | readOut (offset : Nat)
  | writeOut (offset : Nat) (b : Byte)
  deriving DecidableEq, Repr

/-- One entry of the schedule: which of the three events of R300 comes next (log 6). -/
inductive Input where
  /-- The engine's turn: it takes its step, if FSM is not IDLE. -/
  | tick
  /-- The host acts. -/
  | host (a : HostAction)
  /-- The platform resets the engine (R290). -/
  | reset
  deriving DecidableEq, Repr

structure State where
  /-- The parameters, fixed for the life of the instance (R7, R292). -/
  par : Params
  /-- STATUS (R23). -/
  status : Status
  /-- CFG.HDR_BE (R24). -/
  hdrBe : Bool
  /-- IN_LEN (R26). -/
  inLen : Word
  /-- START (R27). -/
  start : Word
  /-- OUT_LEN (R28). -/
  outLen : Word
  /-- FSM (R31). -/
  fsm : Fsm
  /-- WIN (R29). -/
  win : Memory
  /-- The MODEL's own: whether WIN has been seeded since reset (log 3). -/
  seeded : Bool
  /-- CUR (R30). -/
  cur : BitVec 12
  /-- REM (R32). -/
  rem : BitVec 16
  /-- RP (R33). -/
  rp : Nat
  /-- CTRL (R34). -/
  ctrl : Byte
  /-- BIT (R34). -/
  bit : Nat
  /-- SRC (R35). -/
  src : BitVec 12
  /-- LEN (R35). -/
  len : Nat
  /-- K (R35). -/
  k : Nat
  /-- OL (R36). -/
  ol : Nat
  /-- POS (R37). -/
  pos : Nat
  /-- FL (R38). -/
  fl : Byte
  /-- NF (R38). -/
  nf : Nat
  /-- PB (R39). -/
  pb : Vector Byte 16
  /-- PL (R39). -/
  pl : Nat
  /-- The IN buffer (R50): the bytes the host has written since reset. -/
  inBuf : Memory
  /-- The OUT buffer (R50): the bytes the engine has written since reset. -/
  outBuf : Memory
  /-- The MODEL's own: a window-port word (R79) that stands alone, outside a step's pseudocode. No rule puts one there, and
  no run from reset has one (log 9). -/
  port : Option (BitVec 22)
  /-- The MODEL's own: the transitions still to come (log 6). -/
  inputs : List Input
  /-- The MODEL's own: the value the last host read returned (log 8). -/
  hostData : Word
  /-- The MODEL's own: the byte the last GET of the window port returned (log 8). -/
  portData : Byte
  /-- The MODEL's own: how many resets came before; the draw of the values unspecified since reset (log 2, 3, 4). -/
  resets : Nat
  /-- The MODEL's own: how many engine steps, starting CMD writes and resets came before; the draw of unspecified OUT bytes
  (log 5). -/
  epoch : Nat
  deriving DecidableEq, Repr

/-- The model's own stops. The engine's faults (R260) are no stops: they are next states. -/
inductive Fault where
  /-- Raised where the engine would read a byte of IN at or above IN_CAP, an address that does not exist (R50), or where
  POS has passed IN_LEN. R59 rules it out; only states no run reaches raise it. Safe. -/
  | readOutsideIn
  /-- Raised by C_PATCH where OUT_CAP is below 2, so that OUT has no header bytes. R13 rules it out; only states no run
  reaches raise it. Safe. -/
  | writeOutsideOut
  /-- Raised by the CTRL and LIT tokens where REM = 0, so that REM would go below 0 (R32). R178 and R180 rule it out; only
  states no run reaches raise it. Safe. -/
  | remUnderflow
  deriving DecidableEq, Repr

/-- What the model refuses. All but the first are the spec's own refusals (93_implementation_defined U11 to U15). -/
inductive Refusal where
  /-- Raised by `exec` for an instruction that has no meaning yet. Safe. -/
  | notModelled (mnemonic : String)
  /-- Raised by every command while BUSY = 1: a CMD write the host protocol forbids (R306). Safe. -/
  | cmdWhileBusy
  /-- Raised by a host write of CFG, IN_LEN or START while BUSY = 1 (R306). Safe. -/
  | regWhileBusy
  /-- Raised by a host write of IN while BUSY = 1 (R61, R306). Safe. -/
  | inWhileBusy
  /-- Raised by a host write of OUT (R247). Safe. -/
  | outWrite
  /-- Raised by a host access to a buffer at or above its capacity (R61). Safe. -/
  | beyondBuffer
  /-- Raised by a host access to the register block that is not an aligned 32-bit word in 0x00..0xFC (R57). Safe. -/
  | badRegAccess
  deriving DecidableEq, Repr

/-- The state reset number `resets` leaves (R42, R290): the registers R42 gives values have them, every other register has
the free value `Config.unspecified resets` (log 2), clipped to its range, and WIN, IN and OUT hold nothing. The parameters
and the rest of the schedule are not the engine's and stay. -/
def State.afterReset (par : Params) (inputs : List Input) (resets epoch : Nat) : State where
  par := par
  status := ⟨false, false, false, 0#8⟩
  hdrBe := false
  inLen := 0#32
  start := 0#32
  outLen := 0#32
  fsm := .idle
  win := []
  seeded := false
  cur := (Config.unspecified resets).cur
  rem := (Config.unspecified resets).rem
  rp := min (Config.unspecified resets).rp par.inCap
  ctrl := (Config.unspecified resets).ctrl
  bit := (Config.unspecified resets).bit.val
  src := (Config.unspecified resets).src
  len := (Config.unspecified resets).lenCode.val + 3
  k := (Config.unspecified resets).k.val
  ol := min (Config.unspecified resets).ol par.outCap
  pos := min (Config.unspecified resets).pos par.inCap
  fl := (Config.unspecified resets).fl
  nf := (Config.unspecified resets).nf.val
  pb := (Config.unspecified resets).pb
  pl := (Config.unspecified resets).pl.val
  inBuf := []
  outBuf := []
  port := none
  inputs := inputs
  hostData := 0#32
  portData := 0#8
  resets := resets
  epoch := epoch

/-- The machine right after its first reset (R291): idle, with nothing scheduled. -/
def State.reset : State := State.afterReset Config.params [] 0 0

end Sys2Proof.Machine
end

