-- ==== Sys2Proof/Machine/Ops.lean ====
section
/-! DEFINITION. The shared operations: the memories in their canonical form, the window unit (40_window), the fault entry
(60_exceptions R265), acceptance and completion of a command, and the output of one byte. -/

namespace Sys2Proof.Machine

/-! ### Memories -/

/-- The listed byte at an address. -/
def memLookup : Memory → Nat → Option Byte
  | [], _ => none
  | (a', b) :: m, a => if a' = a then some b else memLookup m a

/-- List `b` at `a`, in place of what was listed there. -/
def memInsert : Memory → Nat → Byte → Memory
  | [], a, b => [(a, b)]
  | (a', b') :: m, a, b =>
    if a < a' then (a, b) :: (a', b') :: m
    else if a = a' then (a, b) :: m
    else (a', b') :: memInsert m a b

/-- List nothing at `a`. -/
def memErase (m : Memory) (a : Nat) : Memory := m.filter fun c => c.1 != a

/-- Write a byte to a space whose unlisted addresses hold `dflt`: writing that very byte unlists the address. -/
def memWrite (dflt : Option Byte) (m : Memory) (a : Nat) (b : Byte) : Memory :=
  if dflt = some b then memErase m a else memInsert m a b

/-- What an address of a space holds: the listed byte, else the default of the space, else no value. -/
def memRead (dflt : Option Byte) (m : Memory) (a : Nat) : Option Byte := (memLookup m a).or dflt

/-- The canonical form of a space with addresses below `cap`: addresses strictly rising, and no entry equal to what an
unlisted address holds. -/
abbrev Memory.wf (dflt : Option Byte) (cap : Nat) (m : Memory) : Prop :=
  m.Pairwise (fun x y => x.1 < y.1) ∧ ∀ c ∈ m, c.1 < cap ∧ dflt ≠ some c.2

/-! ### The window unit -/

/-- What an unlisted index of WIN holds: SEED_BYTE once the window is seeded (R100), no value before (R43). -/
def winDefault (s : State) : Option Byte := if s.seeded then some s.par.seedByte else none

/-- The byte at window index `i`. Before the first seeding an unwritten index holds an unspecified value (R43): a free
one (log 3). -/
def winByte (s : State) (i : Nat) : Byte :=
  (memRead (winDefault s) s.win i).getD (Config.freeByte .win s.resets i)

/-- `i mod 4096`, the true mathematical modulo (R14, R101). -/
def winIndex (i : Int) : Nat := (i % 4096).toNat

/-- `WinGet(i)` (R101). -/
def winGet (i : Int) (s : State) : Byte := winByte s (winIndex i)

/-- `WinSet(i, b)` (R103): CUR does not move. -/
def winSet (i : Int) (b : Byte) (s : State) : State :=
  { s with win := memWrite (winDefault s) s.win (winIndex i) b }

/-- `WinAppend(b)` (R102): 12-bit addition is addition modulo 4096. -/
def winAppend (b : Byte) (s : State) : State :=
  { s with win := memWrite (winDefault s) s.win s.cur.toNat b, cur := s.cur + 1#12 }

/-- `WinAppend` of several bytes, one at a time, in order (R216). -/
def winAppendAll : List Byte → State → State
  | [], s => s
  | b :: bs, s => winAppendAll bs (winAppend b s)

/-- Seed (R100): every index holds SEED_BYTE, which in the canonical form is an empty list. -/
def seed (s : State) : State := { s with win := [], seeded := true, cur := s.par.seedCursor }

/-! ### Taking a fault -/

/-- The FCODE numbers (R261). -/
def FaultCode.number : FaultCode → Byte
  | .badCmd => 0x01#8
  | .badLen => 0x02#8
  | .startRange => 0x03#8
  | .hdrOverrun => 0x04#8
  | .descTrunc => 0x05#8
  | .outOverflow => 0x06#8
  | .sizeOverflow => 0x07#8
  | .winUnderflow => 0x08#8

/-- `raise Fault(code)` (R265). There is no return from a fault to stand beside it: R267 says "There is no return from a
fault and no retry". -/
def raiseFault (code : FaultCode) (s : State) : State :=
  { s with status := ⟨false, false, true, code.number⟩, outLen := 0#32, fsm := .idle }

/-- How far the pseudocode of a step has come: it goes on in a state, or a fault has ended it in one (R265: "the raising
step ends here"). -/
inductive Flow where
  | goes (s : State)
  | ended (s : State)
  deriving DecidableEq, Repr

/-- The rest of the step, unless a fault has ended it. -/
def Flow.andThen (f : Flow) (rest : State → Flow) : Flow :=
  match f with
  | .goes s => rest s
  | .ended s => .ended s

/-- The state the step leaves. -/
def Flow.final : Flow → State
  | .goes s => s
  | .ended s => s

/-- The step is over. -/
def Flow.outcome (f : Flow) : Host.Outcome State Fault Refusal := .next f.final

/-! ### Starting and completing a command -/

/-- The first two lines of both acceptance rules (R242, R243; R25). -/
def accept (s : State) : State := { s with status := ⟨true, false, false, 0#8⟩, outLen := 0#32 }

/-- `Complete()` of both commands (R190, R223). -/
def complete (s : State) : State :=
  { s with
    outLen := BitVec.ofNat 32 s.ol
    status := { s.status with busy := false, done := true }
    fsm := .idle }

/-- What a CMD write does (R241 to R244), which the host protocol forbids while BUSY = 1 (R306). -/
def onCmdWrite (s : State) (effect : State → Flow) : Host.Outcome State Fault Refusal :=
  if s.status.busy then .refused .cmdWhileBusy else (effect s).outcome

/-! ### Output -/

/-- `MemWrite(a, 1, b)` on OUT (R15). -/
def outWrite (a : Nat) (b : Byte) (s : State) : State := { s with outBuf := memWrite none s.outBuf a b }

/-- `Emit(b)` (R181). -/
def emit (b : Byte) (s : State) : Flow :=
  if s.par.outCap ≤ s.ol then .ended (raiseFault .outOverflow s)
  else .goes (winAppend b { outWrite s.ol b s with ol := s.ol + 1 })

/-- `OutByte(x)` (R220). The rule's corner case decides where the size test stops the payload: "a payload of exactly 65535
bytes is legal; the 65536th payload byte faults", which is the byte that would be written with OL - 2 = 65535 (log 11: the
rule's pseudocode prints 65536). -/
def outByte (x : Byte) (s : State) : Flow :=
  if 65535 ≤ s.ol - 2 then .ended (raiseFault .sizeOverflow s)
  else if s.par.outCap ≤ s.ol then .ended (raiseFault .outOverflow s)
  else .goes { outWrite s.ol x s with ol := s.ol + 1 }

/-- `OutByte` of several bytes, in order (R219). -/
def outBytes : List Byte → State → Flow
  | [], s => .goes s
  | x :: xs, s => (outByte x s).andThen (outBytes xs)

end Sys2Proof.Machine
end

