-- ==== Sys2Proof/Machine/Flags.lean ====
section
/-! DEFINITION. The flags: the bit-flag stream of control bytes (41_bitflag). STATUS is written by `accept`, `complete` and
`raiseFault` alone (10_state R25); the engine has no condition codes (10_state R34). -/

namespace Sys2Proof.Machine

/-- `NextFlag` (R120): the flag `CTRL[BIT]`, least significant first. -/
def nextFlag (s : State) : Bool := s.ctrl.getLsbD s.bit

/-- `NextFlag` (R120): BIT moves on. -/
def flagTaken (s : State) : State := { s with bit := s.bit + 1 }

/-- The payload part of `AddDecision` (R121): `PB[PL] <- x; PL <- PL + 1` for each byte. -/
def addPayload : List Byte → State → State
  | [], s => s
  | x :: xs, s => addPayload xs { s with pb := s.pb.setIfInBounds s.pl x, pl := s.pl + 1 }

/-- `AddDecision(f, bytes)` (R121). -/
def addDecision (f : Bool) (bytes : List Byte) (s : State) : State :=
  let s := { s with fl := s.fl ||| ((BitVec.ofBool f).setWidth 8 <<< s.nf) }
  let s := addPayload bytes s
  { s with nf := s.nf + 1 }

/-- `GroupBytes` (R122): the control byte, then the payload in production order. -/
def groupBytes (s : State) : List Byte := s.fl :: s.pb.toList.take s.pl

/-- `GroupReset` (R124): the bytes of PB stay, stale. -/
def groupReset (s : State) : State := { s with fl := 0#8, nf := 0, pl := 0 }

end Sys2Proof.Machine
end

