-- ==== Sys2Proof/Syntax.lean ====
section
/-! DEFINITION. The instructions: one constructor per row of spec/opcode_table.json (00_scope R2: stream tokens, host
commands, window-port micro-operations). -/

namespace Sys2Proof

inductive Instr where
  /-- HDR, the size header (R176, R71): `h` compressed bytes follow. -/
  | hdr (h : BitVec 16)
  /-- CTRL, the control byte (R179, R72): bit i is the flag of unit i. -/
  | ctrl (flags : Byte)
  /-- LIT, the literal unit (R183, R73). -/
  | lit (v : Byte)
  /-- BREF, the back-reference unit (R185, R74): window index `p`, length `len` = N + 3. -/
  | bref (p : BitVec 12) (len : Nat)
  /-- NOP (R241); `ign` is CMD[31:8] throughout, which the engine ignores (R22). -/
  | nop (ign : BitVec 24)
  /-- DECOMPRESS (R242). -/
  | decompress (ign : BitVec 24)
  /-- COMPRESS (R243). -/
  | compress (ign : BitVec 24)
  /-- RESERVED, OP = 0x03 (R244). -/
  | reserved03 (ign : BitVec 24)
  /-- RESERVED, OP in 0x04..0x07 (R244). -/
  | reserved04 (op : Byte) (ign : BitVec 24)
  /-- RESERVED, OP in 0x08..0x0F (R244). -/
  | reserved08 (op : Byte) (ign : BitVec 24)
  /-- RESERVED, OP in 0x10..0x1F (R244). -/
  | reserved10 (op : Byte) (ign : BitVec 24)
  /-- RESERVED, OP in 0x20..0x3F (R244). -/
  | reserved20 (op : Byte) (ign : BitVec 24)
  /-- RESERVED, OP in 0x40..0x7F (R244). -/
  | reserved40 (op : Byte) (ign : BitVec 24)
  /-- RESERVED, OP in 0x80..0xFF (R244). -/
  | reserved80 (op : Byte) (ign : BitVec 24)
  /-- WNONE, WOP = 00 (R79): both fields are ignored. -/
  | wnone (addr : BitVec 12) (data : Byte)
  /-- WGET, WOP = 01 (R101): WDATA is ignored. -/
  | wget (addr : BitVec 12) (data : Byte)
  /-- WAPPEND, WOP = 10 (R102): WADDR is ignored. -/
  | wappend (addr : BitVec 12) (data : Byte)
  /-- WSET, WOP = 11 (R103). -/
  | wset (addr : BitVec 12) (data : Byte)
  deriving DecidableEq, Repr

end Sys2Proof
end

