-- ==== Sys2Proof/WellFormed.lean ====
section
/-! DEFINITION. The instructions that some encoding stands for: a back-reference has a length of 3..18 (00_scope R9), and a
reserved row holds only the command codes of that row (spec/opcode_table.json, 45_host_commands R244). -/

namespace Sys2Proof

/-- `op` lies in the row whose mask and match these are. -/
abbrev inRow (mask row op : Byte) : Prop := op &&& mask = row

def Instr.wf : Instr → Bool
  | .hdr _ => true
  | .ctrl _ => true
  | .lit _ => true
  | .bref _ len => decide (3 ≤ len ∧ len ≤ 18)
  | .nop _ => true
  | .decompress _ => true
  | .compress _ => true
  | .reserved03 _ => true
  | .reserved04 op _ => decide (inRow 0xFC#8 0x04#8 op)
  | .reserved08 op _ => decide (inRow 0xF8#8 0x08#8 op)
  | .reserved10 op _ => decide (inRow 0xF0#8 0x10#8 op)
  | .reserved20 op _ => decide (inRow 0xE0#8 0x20#8 op)
  | .reserved40 op _ => decide (inRow 0xC0#8 0x40#8 op)
  | .reserved80 op _ => decide (inRow 0x80#8 0x80#8 op)
  | .wnone _ _ => true
  | .wget _ _ => true
  | .wappend _ _ => true
  | .wset _ _ => true

end Sys2Proof
end

