-- ==== Sys2Proof/Decode.lean ====
section
/-! DEFINITION. The decoder and the encoder (30_encoding). What selects an encoding space is where the bits stand, never the
bits themselves (R76, R78, R79): `Slot` names that place. In each space every pattern is legal (R80), so the decoder rejects
only bytes that do not make up a whole word, each by name. -/

namespace Sys2Proof

/-- The place an instruction's bits stand in. -/
inductive Slot where
  /-- The two bytes at IN[START] (R71). -/
  | header
  /-- The stream byte read in state D_CTRL (R72). -/
  | control
  /-- The unit selected by a flag of 1 in state D_UNIT (R73). -/
  | literal
  /-- The unit selected by a flag of 0 in state D_UNIT (R74). -/
  | backref
  /-- The word a host writes to CMD (R78), its least significant byte first (log 14). -/
  | command
  /-- A 22-bit word of the window port (R79), its least significant byte first (log 14). -/
  | winPort
  deriving DecidableEq, Repr

/-- The number of bytes a word of the slot takes. -/
def Slot.size : Slot → Nat
  | .header => 2
  | .control => 1
  | .literal => 1
  | .backref => 2
  | .command => 4
  | .winPort => 3

/-- Why bytes are rejected. -/
inductive DecodeError where
  /-- Fewer bytes than the slot's word has. -/
  | truncated
  /-- A bit above bit 21 of a window-port word is 1 (R79: it is a 22-bit word). -/
  | portWordTooWide
  deriving DecidableEq, Repr

/-- R71: the byte at the lower offset is H[7:0]. -/
def headerValue (b0 b1 : Byte) : BitVec 16 := b1 ++ b0

/-- R71. -/
def decodeHeader (b0 b1 : Byte) : Instr := .hdr (headerValue b0 b1)

/-- R72. -/
def decodeControl (b : Byte) : Instr := .ctrl b

/-- R73. -/
def decodeLiteral (b : Byte) : Instr := .lit b

/-- R74: `P = low | ((high << 4) & 0xF00)`, `L = (high & 0xF) + 3`. -/
def decodeBackref (low high : Byte) : Instr :=
  .bref (low.setWidth 12 ||| ((high.setWidth 12 <<< 4) &&& 0xF00#12)) ((high &&& 0x0F#8).toNat + 3)

/-- R78: the code is CMD[7:0]; the rows of spec/opcode_table.json in their order, each a mask and a match. -/
def decodeCommand (w : Word) : Instr :=
  let op : Byte := w.extractLsb' 0 8
  let ign : BitVec 24 := w.extractLsb' 8 24
  if op = 0x00#8 then .nop ign
  else if op = 0x01#8 then .decompress ign
  else if op = 0x02#8 then .compress ign
  else if op = 0x03#8 then .reserved03 ign
  else if inRow 0xFC#8 0x04#8 op then .reserved04 op ign
  else if inRow 0xF8#8 0x08#8 op then .reserved08 op ign
  else if inRow 0xF0#8 0x10#8 op then .reserved10 op ign
  else if inRow 0xE0#8 0x20#8 op then .reserved20 op ign
  else if inRow 0xC0#8 0x40#8 op then .reserved40 op ign
  else .reserved80 op ign

/-- R79: WOP is bits 21:20, WADDR bits 19:8, WDATA bits 7:0. -/
def decodePort (w : BitVec 22) : Instr :=
  let addr : BitVec 12 := w.extractLsb' 8 12
  let data : Byte := w.extractLsb' 0 8
  match w.getLsbD 21, w.getLsbD 20 with
  | false, false => .wnone addr data
  | false, true => .wget addr data
  | true, false => .wappend addr data
  | true, true => .wset addr data

/-- The decoder: the instruction the bytes of a slot stand for, and the bytes after it. -/
def decode : Slot → List Byte → Except DecodeError (Instr × List Byte)
  | .header, b0 :: b1 :: rest => .ok (decodeHeader b0 b1, rest)
  | .header, _ => .error .truncated
  | .control, b :: rest => .ok (decodeControl b, rest)
  | .control, _ => .error .truncated
  | .literal, b :: rest => .ok (decodeLiteral b, rest)
  | .literal, _ => .error .truncated
  | .backref, low :: high :: rest => .ok (decodeBackref low high, rest)
  | .backref, _ => .error .truncated
  | .command, b0 :: b1 :: b2 :: b3 :: rest => .ok (decodeCommand (b3 ++ b2 ++ b1 ++ b0), rest)
  | .command, _ => .error .truncated
  | .winPort, b0 :: b1 :: b2 :: rest =>
    if b2 &&& 0xC0#8 = 0#8 then .ok (decodePort (b2.setWidth 6 ++ b1 ++ b0), rest)
    else .error .portWordTooWide
  | .winPort, _ => .error .truncated

/-- The slot an instruction's word stands in. -/
def Instr.slot : Instr → Slot
  | .hdr _ => .header
  | .ctrl _ => .control
  | .lit _ => .literal
  | .bref _ _ => .backref
  | .nop _ => .command
  | .decompress _ => .command
  | .compress _ => .command
  | .reserved03 _ => .command
  | .reserved04 _ _ => .command
  | .reserved08 _ _ => .command
  | .reserved10 _ _ => .command
  | .reserved20 _ _ => .command
  | .reserved40 _ _ => .command
  | .reserved80 _ _ => .command
  | .wnone _ _ => .winPort
  | .wget _ _ => .winPort
  | .wappend _ _ => .winPort
  | .wset _ _ => .winPort

/-- R75: the two descriptor bytes of a source index and a length, `low` first. -/
def descriptor (p : BitVec 12) (len : Nat) : List Byte :=
  [p.extractLsb' 0 8, p.extractLsb' 8 4 ++ BitVec.ofNat 4 (len - 3)]

/-- The bytes of a CMD word with code `op` and bits 31:8 `ign`. -/
def commandBytes (op : Byte) (ign : BitVec 24) : List Byte :=
  [op, ign.extractLsb' 0 8, ign.extractLsb' 8 8, ign.extractLsb' 16 8]

/-- The bytes of a window-port word; the two bits above bit 21 are 0. -/
def portBytes (wop : BitVec 2) (addr : BitVec 12) (data : Byte) : List Byte :=
  [data, addr.extractLsb' 0 8, 0#2 ++ wop ++ addr.extractLsb' 8 4]

/-- The encoder, from the same tables (R71 to R79). -/
def encode : Instr → List Byte
  | .hdr h => [h.extractLsb' 0 8, h.extractLsb' 8 8]
  | .ctrl b => [b]
  | .lit v => [v]
  | .bref p len => descriptor p len
  | .nop ign => commandBytes 0x00#8 ign
  | .decompress ign => commandBytes 0x01#8 ign
  | .compress ign => commandBytes 0x02#8 ign
  | .reserved03 ign => commandBytes 0x03#8 ign
  | .reserved04 op ign => commandBytes op ign
  | .reserved08 op ign => commandBytes op ign
  | .reserved10 op ign => commandBytes op ign
  | .reserved20 op ign => commandBytes op ign
  | .reserved40 op ign => commandBytes op ign
  | .reserved80 op ign => commandBytes op ign
  | .wnone addr data => portBytes 0b00#2 addr data
  | .wget addr data => portBytes 0b01#2 addr data
  | .wappend addr data => portBytes 0b10#2 addr data
  | .wset addr data => portBytes 0b11#2 addr data

/-- The first `n` bytes of the number `w`, bits 7:0 first. -/
def bytesOf : Nat → Nat → List Byte
  | 0, _ => []
  | n + 1, w => BitVec.ofNat 8 w :: bytesOf n (w / 256)

/-- The slot that a row of the opcode table with this many bits belongs to (log 15): 32 bits, or the 8 bits of OP alone, a
CMD write; 24 bits a window-port word; 16 bits a back-reference. -/
def slotOfBits (nbits : Nat) : Slot :=
  if nbits ≤ 8 then .command
  else if nbits ≤ 16 then .backref
  else if nbits ≤ 24 then .winPort
  else .command

/-- The instruction the decoder reads from an instruction's bits numbered as spec/opcode_table.json numbers them. -/
def decodeTableWord (nbits w : Nat) : Option Instr :=
  match decode (slotOfBits nbits) (bytesOf (slotOfBits nbits).size w) with
  | .ok (i, _) => some i
  | .error _ => none

end Sys2Proof
end

