-- ==== Sys2Proof/Machine/Operands.lean ====
section
/-! DEFINITION. The operands: bytes of IN (`MemRead`, 00_scope R15), the tokens they make up at RP and at START, the bytes
ahead of POS, and the values of the host-visible registers and buffers (45_host_commands R246, R247). -/

namespace Sys2Proof.Machine

/-- The byte of IN at offset `a`. A byte the host has not written since reset is any value (R43), the same at every read
(R58): a free one (log 4). -/
def inByte (s : State) (a : Nat) : Byte :=
  (memRead none s.inBuf a).getD (Config.freeByte .inBuf s.resets a)

/-- The header value at IN[START], read little-endian as two one-byte reads (R52, R55, R176). -/
def headerAtStart (s : State) : BitVec 16 :=
  headerValue (inByte s s.start.toNat) (inByte s (s.start.toNat + 1))

/-- The control byte token at RP (R179). -/
def controlToken (s : State) : Instr := decodeControl (inByte s s.rp)

/-- The literal token at RP (R183). -/
def literalToken (s : State) : Instr := decodeLiteral (inByte s s.rp)

/-- The back-reference token at RP: two one-byte reads at consecutive offsets (R55, R185). -/
def backrefToken (s : State) : Instr := decodeBackref (inByte s s.rp) (inByte s (s.rp + 1))

/-- `IN[a], ..., IN[a+n-1]`. -/
def inBytes (s : State) (a n : Nat) : List Byte := (List.range n).map fun j => inByte s (a + j)

/-- The match finder's `A[0..n-1]` with `n = min(LOOKAHEAD, IN_LEN - POS)` (R140). -/
def lookaheadBytes (s : State) : List Byte := inBytes s s.pos (min s.par.lookahead (s.inLen.toNat - s.pos))

/-! ### What the host reads -/

/-- The STATUS word (R23). -/
def statusWord (st : Status) : Word :=
  0#16 ++ st.fcode ++ 0#5 ++ BitVec.ofBool st.fault ++ BitVec.ofBool st.done ++ BitVec.ofBool st.busy

/-- The CFG word (R24). -/
def cfgWord (hdrBe : Bool) : Word := 0#31 ++ BitVec.ofBool hdrBe

/-- The value of the register word at a byte offset (R56, R246). CMD and the reserved offsets read 0. -/
def regValue (offset : Nat) (s : State) : Word :=
  if offset = 0x04 then statusWord s.status
  else if offset = 0x08 then cfgWord s.hdrBe
  else if offset = 0x0C then s.inLen
  else if offset = 0x10 then s.start
  else if offset = 0x14 then s.outLen
  else 0#32

/-- The byte a host read of OUT[a] returns (R60): the command's result below OUT_LEN after DONE = 1; anywhere else, and at
any other time, any value: a free one, which no host read and no host write but a CMD write changes (R58, log 5). -/
def outByteSeen (s : State) (a : Nat) : Byte :=
  if s.status.done ∧ a < s.outLen.toNat then (memRead none s.outBuf a).getD (Config.freeByte .outBuf s.epoch a)
  else Config.freeByte .outBuf s.epoch a

end Sys2Proof.Machine
end

