-- ==== Sys2Proof/Machine/MatchFinder.lean ====
section
/-! DEFINITION. The match finder (42_matchfinder): a pure function of CUR, the window and the upcoming input bytes (R141).
It reads nothing else and has no state (10_state R40). -/

namespace Sys2Proof.Machine

/-- `Match(P, L)` (R141). -/
structure Match where
  index : Nat
  length : Nat
  deriving DecidableEq, Repr

/-- The decoder view `V(c, WIN, A, p, k)` (R142). It is read only with `k` below the length of `A`, where `A[j]` is listed. -/
def decoderView (c : Nat) (win : Nat → Byte) (a : List Byte) (p k : Nat) : Byte :=
  let j := winIndex ((p : Int) + k - c)
  if j < k then a.getD j 0#8 else win (winIndex ((p : Int) + k))

/-- An occurrence of length `len` at `p` (R144). -/
def isOccurrence (c : Nat) (win : Nat → Byte) (a : List Byte) (len p : Nat) : Bool :=
  (List.range len).all fun k => decoderView c win a p k == a.getD k 0#8

/-- A candidate of length `len` at `p`: not index 0 (R145), not the index just past the trial copy (R146), and an
occurrence (R144). -/
def isCandidate (c : Nat) (win : Nat → Byte) (a : List Byte) (len p : Nat) : Bool :=
  p != 0 && p != winIndex ((c : Int) + len) && isOccurrence c win a len p

/-- The greatest index below the bound that passes the test. -/
def lastIndex (test : Nat → Bool) : Nat → Option Nat
  | 0 => none
  | p + 1 => if test p then some p else lastIndex test p

/-- The candidate with the greatest length not above the bound and at least MIN_LENGTH and, among those, the greatest index
(R143, R147). -/
def longestMatch (c : Nat) (win : Nat → Byte) (a : List Byte) : Nat → Option Match
  | 0 => none
  | len + 1 =>
    if len + 1 < minLength then none
    else
      match lastIndex (isCandidate c win a (len + 1)) windowSize with
      | some p => some ⟨p, len + 1⟩
      | none => longestMatch c win a len

/-- `MatchFind(c, WIN, A[0..n-1])` with `none` for NoMatch (R141, R148). The result is the greatest candidate in the order
(L, p), whatever the order of the visit (R151): this one starts at the greatest (log 18). -/
def matchFind (c : Nat) (win : Nat → Byte) (a : List Byte) : Option Match := longestMatch c win a a.length

/-- The query of the C_MATCH step (R140, R214). -/
def matchQuery (s : State) : Option Match := matchFind s.cur.toNat (winByte s) (lookaheadBytes s)

end Sys2Proof.Machine
end

