-- ==== Sys2Proof/Machine/Compress.lean ====
section
/-! DEFINITION. The steps of COMPRESS (44_compress R213 to R223). -/

namespace Sys2Proof.Machine

/-- LIT decision (R215). -/
def litDecision (s : State) : State :=
  let b := inByte s s.pos
  let s := winAppend b (addDecision true [b] s)
  { s with pos := s.pos + 1 }

/-- REF decision (R216): the descriptor of R75, and the matched bytes appended from the input. -/
def refDecision (m : Match) (s : State) : State :=
  let t := winAppendAll (inBytes s s.pos m.length)
    (addDecision false (descriptor (BitVec.ofNat 12 m.index) m.length) s)
  { t with pos := t.pos + m.length }

/-- The decision at POS (R214). -/
def decision (s : State) : State :=
  match matchQuery s with
  | some m => refDecision m s
  | none => litDecision s

/-- Step C_MATCH (R214). The engine reads IN only below IN_LEN (R59), which acceptance keeps within IN_CAP (log 12). -/
def matchStep (s : State) : Host.Outcome State Fault Refusal :=
  if s.par.inCap < s.inLen.toNat ∨ s.inLen.toNat < s.pos then .fault .readOutsideIn
  else if s.pos = s.inLen.toNat then .next { s with fsm := if 0 < s.nf then .cFlush else .cPatch }
  else
    let t := decision s
    .next { t with fsm := if t.nf = 8 then .cFlush else t.fsm }

/-- Step C_FLUSH (R219). -/
def flushStep (s : State) : Host.Outcome State Fault Refusal :=
  ((outBytes (groupBytes s) s).andThen fun t => .goes { groupReset t with fsm := .cMatch }).outcome

/-- The two header bytes in stream order (R53, R222). -/
def headerBytes (hdrBe : Bool) (size : BitVec 16) : Byte × Byte :=
  if hdrBe then (size.extractLsb' 8 8, size.extractLsb' 0 8) else (size.extractLsb' 0 8, size.extractLsb' 8 8)

/-- Step C_PATCH (R222). -/
def patchStep (s : State) : Host.Outcome State Fault Refusal :=
  if s.par.outCap < 2 then .fault .writeOutsideOut
  else
    let h := headerBytes s.hdrBe (BitVec.ofNat 16 (s.ol - 2))
    .next (complete (outWrite 1 h.2 (outWrite 0 h.1 s)))

end Sys2Proof.Machine
end

