-- ==== Sys2Proof/Machine/Stream.lean ====
section
/-! DEFINITION. The stream tokens HDR, CTRL, LIT and BREF, and the steps of DECOMPRESS that are no tokens
(43_decompress). -/

namespace Sys2Proof.Machine

/-- The header token with header value `h` (R176), its checks in the order R177 gives. `h` is looked at only after the first
check passes. -/
def takeHeader (h : BitVec 16) (s : State) : Flow :=
  if s.inLen.toNat < s.start.toNat + 2 then .ended (raiseFault .startRange s)
  else if s.inLen.toNat < s.start.toNat + 2 + h.toNat then .ended (raiseFault .hdrOverrun s)
  else .goes { s with rem := h, rp := s.start.toNat + 2, ol := 0, fsm := .dCtrl }

/-- HDR (R176). -/
def execHdr (h : BitVec 16) (s : State) : Host.Outcome State Fault Refusal := (takeHeader h s).outcome

/-- CTRL (R179). -/
def execCtrl (flags : Byte) (s : State) : Host.Outcome State Fault Refusal :=
  if s.rem = 0#16 then .fault .remUnderflow
  else .next { s with ctrl := flags, rp := s.rp + 1, rem := s.rem - 1#16, bit := 0, fsm := .dUnit }

/-- LIT (R183). -/
def execLit (v : Byte) (s : State) : Host.Outcome State Fault Refusal :=
  if s.rem = 0#16 then .fault .remUnderflow
  else (emit v { s with rp := s.rp + 1, rem := s.rem - 1#16 }).outcome

/-- BREF (R185). -/
def execBref (p : BitVec 12) (len : Nat) (s : State) : Host.Outcome State Fault Refusal :=
  if s.rem.toNat < 2 then .next (raiseFault .descTrunc s)
  else .next { s with rp := s.rp + 2, rem := s.rem - 2#16, src := p, len := len, k := 0, fsm := .dCopy }

/-- Step D_COPY (R186): one byte of a back-reference copy. -/
def copyStep (s : State) : Host.Outcome State Fault Refusal :=
  ((emit (winGet (s.src.toNat + s.k : Nat) s) s).andThen fun t =>
    .goes { t with k := t.k + 1, fsm := if t.k + 1 = t.len then .dUnit else t.fsm }).outcome

end Sys2Proof.Machine
end

