-- ==== Sys2Proof/Machine/Command.lean ====
section
/-! DEFINITION. The host commands NOP, DECOMPRESS, COMPRESS and the reserved codes (45_host_commands R241 to R244). Each is
one atomic step, performed with the CMD write. -/

namespace Sys2Proof.Machine

/-- NOP (R241): nothing. -/
def execNop (_ign : BitVec 24) (s : State) : Host.Outcome State Fault Refusal :=
  onCmdWrite s .goes

/-- The part of acceptance both commands share (R242, R243): the length check, then the seeding. -/
def beginCommand (s : State) : Flow :=
  let s := accept s
  if s.par.inCap < s.inLen.toNat then .ended (raiseFault .badLen s) else .goes (seed s)

/-- DECOMPRESS: acceptance (R242), with the header token found at IN[START] (R176). -/
def execDecompress (_ign : BitVec 24) (s : State) : Host.Outcome State Fault Refusal :=
  onCmdWrite s fun s => (beginCommand s).andThen fun s => takeHeader (headerAtStart s) s

/-- Start of COMPRESS (R212): OUT[0..1] are reserved for the header and not written. -/
def startCompress (s : State) : State :=
  { groupReset s with ol := 2, pos := 0, fsm := .cMatch }

/-- COMPRESS: acceptance (R243). -/
def execCompress (_ign : BitVec 24) (s : State) : Host.Outcome State Fault Refusal :=
  onCmdWrite s fun s => (beginCommand s).andThen fun s => .goes (startCompress s)

/-- A reserved command code (R244): the usage fault, with no seeding, no read and no write. -/
def refuseCommand (s : State) : Flow := .ended (raiseFault .badCmd s)

/-- RESERVED 0x03 (R244). -/
def execReserved03 (_ign : BitVec 24) (s : State) : Host.Outcome State Fault Refusal :=
  onCmdWrite s refuseCommand

/-- RESERVED 0x04..0x07 (R244). -/
def execReserved04 (_op : Byte) (_ign : BitVec 24) (s : State) : Host.Outcome State Fault Refusal :=
  onCmdWrite s refuseCommand

/-- RESERVED 0x08..0x0F (R244). -/
def execReserved08 (_op : Byte) (_ign : BitVec 24) (s : State) : Host.Outcome State Fault Refusal :=
  onCmdWrite s refuseCommand

/-- RESERVED 0x10..0x1F (R244). -/
def execReserved10 (_op : Byte) (_ign : BitVec 24) (s : State) : Host.Outcome State Fault Refusal :=
  onCmdWrite s refuseCommand

/-- RESERVED 0x20..0x3F (R244). -/
def execReserved20 (_op : Byte) (_ign : BitVec 24) (s : State) : Host.Outcome State Fault Refusal :=
  onCmdWrite s refuseCommand

/-- RESERVED 0x40..0x7F (R244). -/
def execReserved40 (_op : Byte) (_ign : BitVec 24) (s : State) : Host.Outcome State Fault Refusal :=
  onCmdWrite s refuseCommand

/-- RESERVED 0x80..0xFF (R244). -/
def execReserved80 (_op : Byte) (_ign : BitVec 24) (s : State) : Host.Outcome State Fault Refusal :=
  onCmdWrite s refuseCommand

end Sys2Proof.Machine
end

