-- ==== Sys2Proof/Machine/WindowPort.lean ====
section
/-! DEFINITION. The window-port micro-operations (30_encoding R79; 40_window R101 to R103). The byte a GET returns is held
in `portData`, which is the model's own (log 8). -/

namespace Sys2Proof.Machine

/-- WNONE (R79): "`WOP` = 00 does nothing". -/
def execWnone (_addr : BitVec 12) (_data : Byte) (s : State) : Host.Outcome State Fault Refusal := .next s

/-- WGET (R101). -/
def execWget (addr : BitVec 12) (_data : Byte) (s : State) : Host.Outcome State Fault Refusal :=
  .next { s with portData := winGet addr.toNat s }

/-- WAPPEND (R102). -/
def execWappend (_addr : BitVec 12) (data : Byte) (s : State) : Host.Outcome State Fault Refusal :=
  .next (winAppend data s)

/-- WSET (R103). -/
def execWset (addr : BitVec 12) (data : Byte) (s : State) : Host.Outcome State Fault Refusal :=
  .next (winSet addr.toNat data s)

end Sys2Proof.Machine
end

