-- ==== Sys2Proof/Machine/Dispatch.lean ====
section
/-! DEFINITION. The one dispatch: an arm per constructor of Instr, each one direct call of its meaning. -/

namespace Sys2Proof.Machine

def exec (i : Instr) (s : State) : Host.Outcome State Fault Refusal :=
  match i with
  -- stream tokens (43_decompress)
  | .hdr h => Sys2Proof.Machine.execHdr h s
  | .ctrl flags => Sys2Proof.Machine.execCtrl flags s
  | .lit v => Sys2Proof.Machine.execLit v s
  | .bref p len => Sys2Proof.Machine.execBref p len s
  -- host commands (45_host_commands)
  | .nop ign => Sys2Proof.Machine.execNop ign s
  | .decompress ign => Sys2Proof.Machine.execDecompress ign s
  | .compress ign => Sys2Proof.Machine.execCompress ign s
  | .reserved03 ign => Sys2Proof.Machine.execReserved03 ign s
  | .reserved04 op ign => Sys2Proof.Machine.execReserved04 op ign s
  | .reserved08 op ign => Sys2Proof.Machine.execReserved08 op ign s
  | .reserved10 op ign => Sys2Proof.Machine.execReserved10 op ign s
  | .reserved20 op ign => Sys2Proof.Machine.execReserved20 op ign s
  | .reserved40 op ign => Sys2Proof.Machine.execReserved40 op ign s
  | .reserved80 op ign => Sys2Proof.Machine.execReserved80 op ign s
  -- window-port micro-operations (40_window)
  | .wnone addr data => Sys2Proof.Machine.execWnone addr data s
  | .wget addr data => Sys2Proof.Machine.execWget addr data s
  | .wappend addr data => Sys2Proof.Machine.execWappend addr data s
  | .wset addr data => Sys2Proof.Machine.execWset addr data s

end Sys2Proof.Machine
end

