-- ==== Sys2Proof/Machine/Engine.lean ====
section
/-! DEFINITION. The engine step (70_reset_and_hazards R301): the rule of the current FSM state. A stream token is fetched at
RP, decoded and run. -/

namespace Sys2Proof.Machine

/-- Run the token of `n` bytes at RP, all of which must be bytes of IN (R50, log 12). -/
def runToken (n : Nat) (token : State → Instr) (s : State) : Host.Outcome State Fault Refusal :=
  if s.rp + n ≤ s.par.inCap then exec (token s) s else .fault .readOutsideIn

/-- Step D_CTRL (R178). -/
def ctrlStep (s : State) : Host.Outcome State Fault Refusal :=
  if s.rem = 0#16 then .next (complete s) else runToken 1 controlToken s

/-- Step D_UNIT (R180). A descriptor that the count cuts is not read: the fault of R185 comes first. -/
def unitStep (s : State) : Host.Outcome State Fault Refusal :=
  if s.rem = 0#16 then .next (complete s)
  else if s.bit = 8 then .next { s with fsm := .dCtrl }
  else if nextFlag s then runToken 1 literalToken (flagTaken s)
  else if s.rem.toNat < 2 then .next (raiseFault .descTrunc (flagTaken s))
  else runToken 2 backrefToken (flagTaken s)

/-- One engine step. While FSM = IDLE the engine takes none (R300): it does nothing until a CMD write or a reset (R276). -/
def engineStep (s : State) : Host.Outcome State Fault Refusal :=
  match s.fsm with
  | .idle => .next s
  | .dCtrl => ctrlStep s
  | .dUnit => unitStep s
  | .dCopy => copyStep s
  | .cMatch => matchStep s
  | .cFlush => flushStep s
  | .cPatch => patchStep s

end Sys2Proof.Machine
end

