-- ==== Sys2Proof/Machine/HostAccess.lean ====
section
/-! DEFINITION. Host actions (45_host_commands R240, R245 to R247) and the reset event (70_reset_and_hazards R290). -/

namespace Sys2Proof.Machine

/-- An access R56 and R57 allow: a 32-bit word at a word-aligned offset in 0x00..0xFC. -/
abbrev regAccessOk (width : Width) (offset : Nat) : Prop :=
  width = .word ∧ offset % 4 = 0 ∧ offset < 0x100

/-- A write of CFG, IN_LEN or START, which the host protocol forbids while BUSY = 1 (R306). -/
def onRegWrite (s : State) (t : State) : Host.Outcome State Fault Refusal :=
  if s.status.busy then .refused .regWhileBusy else .next t

/-- A host write of value `v` to the register word at `offset` (R245). A write of STATUS, OUT_LEN or a reserved offset has no
effect at any time. -/
def regWrite (offset : Nat) (v : Word) (s : State) : Host.Outcome State Fault Refusal :=
  if offset = 0x00 then exec (decodeCommand v) s
  else if offset = 0x08 then onRegWrite s { s with hdrBe := v.getLsbD 0 }
  else if offset = 0x0C then onRegWrite s { s with inLen := v }
  else if offset = 0x10 then onRegWrite s { s with start := v }
  else .next s

/-- The host receives the value of its read. No read changes any state of the engine (R58). -/
def hostReceives (v : Word) (s : State) : State := { s with hostData := v }

/-- A host action. -/
def hostAct (a : HostAction) (s : State) : Host.Outcome State Fault Refusal :=
  match a with
  | .readReg width offset =>
    if regAccessOk width offset then .next (hostReceives (regValue offset s) s) else .refused .badRegAccess
  | .writeReg width offset v =>
    if regAccessOk width offset then regWrite offset v s else .refused .badRegAccess
  | .readIn offset =>
    if offset < s.par.inCap then .next (hostReceives ((inByte s offset).setWidth 32) s) else .refused .beyondBuffer
  | .writeIn offset b =>
    if s.status.busy then .refused .inWhileBusy
    else if offset < s.par.inCap then .next { s with inBuf := memWrite none s.inBuf offset b }
    else .refused .beyondBuffer
  | .readOut offset =>
    if offset < s.par.outCap then .next (hostReceives ((outByteSeen s offset).setWidth 32) s) else .refused .beyondBuffer
  | .writeOut _ _ => .refused .outWrite

/-- Whether an action is a CMD write of a code other than NOP, the one write with an effect beyond its own storage (R58, R240,
R241). -/
def HostAction.startsCommand : HostAction → Bool
  | .readReg _ _ => false
  | .writeReg _ offset v => decide (offset = 0x00 ∧ v.extractLsb' 0 8 ≠ 0x00#8)
  | .readIn _ => false
  | .writeIn _ _ => false
  | .readOut _ => false
  | .writeOut _ _ => false

/-- Whether an action only reads. -/
def HostAction.isRead : HostAction → Bool
  | .readReg _ _ => true
  | .readIn _ => true
  | .readOut _ => true
  | .writeReg _ _ _ => false
  | .writeIn _ _ => false
  | .writeOut _ _ => false

/-- The bytes of OUT that are unspecified are drawn anew (log 5): by an engine step, a CMD write that starts a command or
raises a fault, and a reset, and by nothing else (R58, R60). -/
def newEpoch (s : State) : State := { s with epoch := s.epoch + 1 }

/-- The reset event (R290): a command that was running is abandoned. -/
def resetEvent (s : State) : State := State.afterReset s.par s.inputs (s.resets + 1) s.epoch

end Sys2Proof.Machine
end

