-- ==== Sys2Proof/Machine/Fetch.lean ====
section
/-! DEFINITION. One transition of R300, and the placing of an instruction's bits where the next transition takes them. -/

namespace Sys2Proof.Machine

/-- The engine's turn. It takes no step while FSM = IDLE (R300). A window-port word that stands alone is the whole of the
step (log 9); in every state that a run reaches there is none, and the step is that of R301. -/
def engineTurn (s : State) : Host.Outcome State Fault Refusal :=
  if s.fsm = .idle then .next s
  else
    match s.port with
    | some w => exec (decodePort w) { s with port := none }
    | none => engineStep (newEpoch s)

/-- The event of R300 that a schedule entry stands for. -/
def transition (x : Input) (s : State) : Host.Outcome State Fault Refusal :=
  match x with
  | .tick => engineTurn s
  | .host a => hostAct a (if a.startsCommand then newEpoch s else s)
  | .reset => .next (resetEvent (newEpoch s))

/-- The entry the machine takes next (log 7): the first of the schedule; with an empty schedule, the engine's turn. -/
def nextInput (s : State) : Input := s.inputs.headD .tick

/-- The state with that entry taken off the schedule. -/
def dropInput (s : State) : State := { s with inputs := s.inputs.tail }

/-- A CMD write of `w` is the next transition, the engine being ready to take one. -/
def placeCommand (w : Word) (s : State) : State :=
  { s with
    status := { s.status with busy := false }
    fsm := .idle
    inputs := .host (.writeReg .word 0x00 w) :: s.inputs }

/-- The window-port word `w` is the whole of the next engine step, of an engine that runs. -/
def placePortWord (w : BitVec 22) (s : State) : State :=
  { s with
    status := ⟨true, false, false, 0#8⟩
    fsm := .dCtrl
    port := some w
    inputs := .tick :: s.inputs }

/-- The descriptor `low high` is the next stream unit, the last one of a running DECOMPRESS. -/
def placeDescriptor (low high : Byte) (s : State) : State :=
  { s with
    status := ⟨true, false, false, 0#8⟩
    fsm := .dUnit
    port := none
    ctrl := 0#8
    bit := 0
    rem := 2#16
    rp := 0
    inBuf := memWrite none (memWrite none s.inBuf 0 low) 1 high
    inputs := .tick :: s.inputs }

/-- The bits of an opcode-table row, placed where their slot is served (log 15, 16). -/
def placeWord (s : State) (nbits w : Nat) : State :=
  match slotOfBits nbits with
  | .command => placeCommand (BitVec.ofNat 32 w) s
  | .winPort => placePortWord (BitVec.ofNat 22 w) s
  | .backref => placeDescriptor (BitVec.ofNat 8 w) (BitVec.ofNat 8 (w / 256)) s
  | .header => s
  | .control => s
  | .literal => s

end Sys2Proof.Machine
end

