-- ==== Sys2Proof/Machine/Step.lean ====
section
/-! DEFINITION. One step of the machine: the next transition of its schedule (70_reset_and_hazards R300). -/

namespace Sys2Proof.Machine

/-- One transition: a host action, an engine step, or a reset. -/
def step (s : State) : Host.Outcome State Fault Refusal := transition (nextInput s) (dropInput s)

/-- The bits of one instruction stored where `step` takes its next instruction (log 16). -/
def State.withFetchWord (s : State) (nbits w : Nat) : State := placeWord s nbits w

end Sys2Proof.Machine
end

