-- ==== Sys2Proof/Safety.lean ====
section
/-! DEFINITION. The terms the claims use: the invariant of the machine, the inputs a step may refuse, a run of the engine, and
when two machines are in the same place of the same command. -/

namespace Sys2Proof.Machine

/-! ### The invariant -/

/-- Every register holds only values of its range (R14, R29 to R39). -/
structure RangesOk (s : State) : Prop where
  par : s.par.wf
  rp : s.rp ≤ s.par.inCap
  bit : s.bit ≤ 8
  len : 3 ≤ s.len ∧ s.len ≤ 18
  k : s.k ≤ 18
  ol : s.ol ≤ s.par.outCap
  pos : s.pos ≤ s.par.inCap
  nf : s.nf ≤ 8
  pl : s.pl ≤ 16

/-- The three memories keep their canonical form, within their spaces (R50). -/
structure MemoriesOk (s : State) : Prop where
  win : Memory.wf (winDefault s) windowSize s.win
  inBuf : Memory.wf none s.par.inCap s.inBuf
  outBuf : Memory.wf none s.par.outCap s.outBuf

/-- STATUS says what the engine does (R23, R25, R31), with a code that R261 lists as raised exactly when FAULT = 1. -/
structure StatusOk (s : State) : Prop where
  busy : s.status.busy = true ↔ s.fsm ≠ .idle
  running : s.status.busy = true → s.status.done = false ∧ s.status.fault = false ∧ s.outLen = 0#32
  ended : ¬ (s.status.done = true ∧ s.status.fault = true)
  noCode : s.status.fault = false → s.status.fcode = 0#8
  code : s.status.fault = true → 1 ≤ s.status.fcode.toNat ∧ s.status.fcode.toNat ≤ 7

/-- FSM is in a state of DECOMPRESS (R31). -/
abbrev decompressing (s : State) : Prop := s.fsm = .dCtrl ∨ s.fsm = .dUnit ∨ s.fsm = .dCopy

/-- FSM is in a state of COMPRESS (R31). -/
abbrev compressing (s : State) : Prop := s.fsm = .cMatch ∨ s.fsm = .cFlush ∨ s.fsm = .cPatch

/-- What holds while a DECOMPRESS runs: the window is seeded, the stream bytes still to come lie inside the image (R33, R59),
and a copy in progress has bytes left (R35, R186). -/
structure DecompressOk (s : State) : Prop where
  seeded : s.seeded = true
  image : s.rp + s.rem.toNat ≤ s.inLen.toNat ∧ s.inLen.toNat ≤ s.par.inCap
  copy : s.fsm = .dCopy → s.k < s.len

/-- What holds while a COMPRESS runs: the window is seeded, the input and the payload are within bounds (R37, R220), and the
pending group is one that decisions made (R38, R39, R123, R125). -/
structure CompressOk (s : State) : Prop where
  seeded : s.seeded = true
  input : s.pos ≤ s.inLen.toNat ∧ s.inLen.toNat ≤ s.par.inCap
  payload : 2 ≤ s.ol ∧ s.ol ≤ 65537
  group : s.nf ≤ s.pl ∧ s.pl ≤ 2 * s.nf
  padding : s.fl.toNat < 2 ^ s.nf
  cMatch : s.fsm = .cMatch → s.nf < 8
  cFlush : s.fsm = .cFlush → 0 < s.nf
  cPatch : s.fsm = .cPatch → s.nf = 0 ∧ s.pos = s.inLen.toNat

/-- The invariant that every step keeps. -/
structure Inv (s : State) : Prop where
  ranges : RangesOk s
  memories : MemoriesOk s
  status : StatusOk s
  decompress : decompressing s → DecompressOk s
  compress : compressing s → CompressOk s
  /-- No window-port word stands alone (R301, log 9). -/
  port : s.port = none

/-- Every OUT byte that the host may come to see as a result is one the engine has written since reset (R60): those below OL
while DECOMPRESS runs, those from 2 to OL while COMPRESS runs, and those below OUT_LEN after DONE = 1. -/
structure ResultWritten (s : State) : Prop where
  decompress : decompressing s → ∀ a < s.ol, (memLookup s.outBuf a).isSome = true
  compress : compressing s → ∀ a < s.ol, 2 ≤ a → (memLookup s.outBuf a).isSome = true
  done : s.status.done = true → ∀ a < s.outLen.toNat, (memLookup s.outBuf a).isSome = true

/-! ### The inputs a step refuses -/

/-- A host write to a register word is open to the host: at any time where it has no effect, else only while BUSY = 0
(R245, R306). -/
abbrev regWriteAllowed (busy : Bool) (offset : Nat) : Prop :=
  busy = false ∨ (offset ≠ 0x00 ∧ offset ≠ 0x08 ∧ offset ≠ 0x0C ∧ offset ≠ 0x10)

/-- The inputs the rules give an outcome (R57, R61, R247, R306). -/
def allowed (s : State) : Input → Prop
  | .tick => True
  | .reset => True
  | .host (.readReg width offset) => regAccessOk width offset
  | .host (.writeReg width offset _) => regAccessOk width offset ∧ regWriteAllowed s.status.busy offset
  | .host (.readIn offset) => offset < s.par.inCap
  | .host (.writeIn offset _) => s.status.busy = false ∧ offset < s.par.inCap
  | .host (.readOut offset) => offset < s.par.outCap
  | .host (.writeOut _ _) => False

/-! ### Runs -/

/-- A run in which every step answers a next state. -/
inductive Steps : Nat → State → State → Prop where
  | refl (s : State) : Steps 0 s s
  | next {n : Nat} {s t u : State} (first : step s = .next t) (rest : Steps n t u) : Steps (n + 1) s u

/-- The host writes `w` to CMD, and then the engine alone moves. -/
def commanded (w : Word) (s : State) : State := { s with inputs := [.host (.writeReg .word 0x00 w)] }

/-- What the host finds in OUT after a command (R60). -/
def result (s : State) : List Byte := (List.range s.outLen.toNat).map (outByteSeen s)

/-- The state a fault with this code number leaves of `s` (R265): STATUS has FAULT and the code alone, OUT_LEN is 0, FSM is
IDLE, and nothing else changes. -/
def faultedWith (code : Byte) (s : State) : State :=
  { s with status := ⟨false, false, true, code⟩, outLen := 0#32, fsm := .idle }

/-- The window-port word that appends each byte, run one after another (R102, R216). -/
def appendEach : List Byte → State → Host.Outcome State Fault Refusal
  | [], s => .next s
  | b :: bs, s =>
    match exec (.wappend 0#12 b) s with
    | .next t => appendEach bs t
    | .fault r => .fault r
    | .refused r => .refused r

/-! ### The match finder's result, as the rules put it -/

/-- `(p, len)` satisfies R143 to R146 for the cursor `c`, the window `win` and the upcoming bytes `a`, the decoder view of R142
written out. -/
def Candidate (c : Nat) (win : Nat → Byte) (a : List Byte) (p len : Nat) : Prop :=
  3 ≤ len ∧ len ≤ a.length ∧ 1 ≤ p ∧ p < 4096 ∧ p ≠ (c + len) % 4096 ∧
    ∀ k < len,
      (if (p + k + 4096 - c) % 4096 < k then a[(p + k + 4096 - c) % 4096]? else some (win ((p + k) % 4096))) = a[k]?

/-- The comparison in the innermost line of R141. -/
def improves (best : Option Match) (p len : Nat) : Bool :=
  match best with
  | none => true
  | some m => decide (m.length < len) || (decide (len = m.length) && decide (m.index < p))

/-- The pseudocode of R141, loop by loop. -/
def matchFindLoop (c : Nat) (win : Nat → Byte) (a : List Byte) : Option Match :=
  (List.range' 3 (a.length + 1 - 3)).foldl
    (fun best len =>
      (List.range 4096).foldl
        (fun best p =>
          if p = 0 then best
          else if p = (c + len) % 4096 then best
          else if (List.range len).all fun k => decoderView c win a p k == a.getD k 0#8 then
            if improves best p len then some ⟨p, len⟩ else best
          else best)
        best)
    none

/-! ### The same inputs, and the same place of the same command -/

/-- Two states agree on everything the outcome of a DECOMPRESS depends on (R193): the seed, the capacities, IN_LEN, START, and
the bytes of the image in [START, START + 2 + H). -/
structure SameDecompress (s t : State) : Prop where
  seed : s.par.seedByte = t.par.seedByte ∧ s.par.seedCursor = t.par.seedCursor
  caps : s.par.inCap = t.par.inCap ∧ s.par.outCap = t.par.outCap
  operands : s.inLen = t.inLen ∧ s.start = t.start
  image : ∀ a, s.start.toNat ≤ a → a < s.start.toNat + 2 + (headerAtStart s).toNat → a < s.inLen.toNat →
    inByte s a = inByte t a

/-- Two states agree on everything the outcome of a COMPRESS depends on (R228): the seed, the capacities, LOOKAHEAD, HDR_BE,
IN_LEN, and the bytes of IN below it. -/
structure SameCompress (s t : State) : Prop where
  seed : s.par.seedByte = t.par.seedByte ∧ s.par.seedCursor = t.par.seedCursor
  caps : s.par.inCap = t.par.inCap ∧ s.par.outCap = t.par.outCap
  lookahead : s.par.lookahead = t.par.lookahead
  operands : s.inLen = t.inLen ∧ s.hdrBe = t.hdrBe
  input : ∀ a < s.inLen.toNat, inByte s a = inByte t a

/-- `w` is a CMD word of DECOMPRESS or COMPRESS, and the two states agree on what that command depends on. -/
def sameInputs (w : Word) (s t : State) : Prop :=
  (w.toNat % 256 = 1 ∧ SameDecompress s t) ∨ (w.toNat % 256 = 2 ∧ SameCompress s t)

/-- Two states that no rule of the running command tells apart (R6, R41, R193, R228, R250): they agree on the parameters the
rules still read, on STATUS, OUT_LEN and FSM, on every register that the running command has already initialised and will
read, and on the input still to come; the rest is what earlier commands and the host left. -/
structure SameCommand (s t : State) : Prop where
  par : s.par.seedByte = t.par.seedByte ∧ s.par.inCap = t.par.inCap ∧ s.par.outCap = t.par.outCap
  status : s.status = t.status ∧ s.outLen = t.outLen ∧ s.fsm = t.fsm
  window : s.fsm ≠ .idle → s.seeded = true ∧ t.seeded = true ∧ s.win = t.win ∧ s.cur = t.cur ∧ s.ol = t.ol
  stream : decompressing s → s.rem = t.rem ∧ s.rp = t.rp
  image : decompressing s → ∀ a, s.rp ≤ a → a < s.rp + s.rem.toNat → inByte s a = inByte t a
  flags : s.fsm = .dUnit ∨ s.fsm = .dCopy → s.ctrl = t.ctrl ∧ s.bit = t.bit
  copy : s.fsm = .dCopy → s.src = t.src ∧ s.len = t.len ∧ s.k = t.k
  operands : compressing s → s.par.lookahead = t.par.lookahead ∧ s.hdrBe = t.hdrBe ∧ s.inLen = t.inLen ∧ s.pos = t.pos
  input : compressing s → ∀ a, s.pos ≤ a → a < s.inLen.toNat → inByte s a = inByte t a
  group : compressing s → s.fl = t.fl ∧ s.nf = t.nf ∧ s.pl = t.pl ∧ ∀ j < s.pl, s.pb[j]? = t.pb[j]?
  written : decompressing s → ∀ a < s.ol, memLookup s.outBuf a = memLookup t.outBuf a
  payload : compressing s → ∀ a < s.ol, 2 ≤ a → memLookup s.outBuf a = memLookup t.outBuf a
  results : s.status.done = true → ∀ a < s.outLen.toNat, memLookup s.outBuf a = memLookup t.outBuf a

end Sys2Proof.Machine
end

