-- ==== Sys2Proof/Certificates/Slice0/Obligations.lean ====
section
/-! DEFINITION. The statements for the provers, from the numbered rules of spec/. A clause that rests on a choice of the model
names its log entry. -/

open Sys2Proof Sys2Proof.Machine

/-! ### Encodings (30_encoding) -/

/-- Decoding the encoding of any well-formed instruction gives it back, and leaves the bytes after it. -/
def Obligations.DecodeOfEncodeIsInstruction : Prop :=
  ∀ (i : Instr) (rest : List Byte), i.wf = true → decode i.slot (encode i ++ rest) = .ok (i, rest)

/-- What the decoder accepts is well formed, belongs to the slot, and encodes to exactly the bytes taken: no bit is dropped. -/
def Obligations.EncodeOfDecodeIsBytes : Prop :=
  ∀ (slot : Slot) (bs : List Byte) (i : Instr) (rest : List Byte),
    decode slot bs = .ok (i, rest) → i.wf = true ∧ i.slot = slot ∧ encode i ++ rest = bs

/-- R80: no stream byte, descriptor or command word is an illegal encoding. The decoder rejects only too few bytes, and a
window-port word of more than 22 bits (log 14). -/
def Obligations.DecodeRejectsOnlyPartialWords : Prop :=
  ∀ (slot : Slot) (bs : List Byte),
    (decode slot bs = .error .truncated ↔ bs.length < slot.size) ∧
    (decode slot bs = .error .portWordTooWide ↔
      slot = .winPort ∧ 3 ≤ bs.length ∧ 64 ≤ (bs.getD 2 0#8).toNat)

/-- R74, R75 and R192, on numbers: what a descriptor's two bytes stand for, the ranges of the two fields, and the bytes a field
pair is written as. -/
def Obligations.DescriptorFieldsOnNumbers : Prop :=
  (∀ low high : Byte, ∃ (p : BitVec 12) (len : Nat),
    decode .backref [low, high] = .ok (.bref p len, []) ∧
    p.toNat = low.toNat ||| ((high.toNat <<< 4) &&& 0xF00) ∧ len = (high.toNat &&& 0xF) + 3 ∧
    3 ≤ len ∧ len ≤ 18 ∧ p.toNat < 4096) ∧
  (∀ (p : BitVec 12) (len : Nat), 3 ≤ len → len ≤ 18 → ∃ low high : Byte,
    encode (.bref p len) = [low, high] ∧ low.toNat = p.toNat % 256 ∧ high.toNat = p.toNat / 256 * 16 + (len - 3))

/-- R83, and the vectors ENC-1 to ENC-4, ENC-10 and the header of ENC-9 (little-endian) of 95_test_vectors: words written out
from the encodings decode to their instructions. That the bytes of a CMD word and of a window-port word stand least
significant first is the model's choice (log 14). -/
def Obligations.WrittenOutWordsDecode : Prop :=
  decode .backref [0xEE#8, 0xF3#8] = .ok (.bref 0xFEE#12 6, []) ∧
  decode .backref [0x00#8, 0x00#8] = .ok (.bref 0x000#12 3, []) ∧
  decode .backref [0xFF#8, 0xFF#8] = .ok (.bref 0xFFF#12 18, []) ∧
  decode .backref [0x23#8, 0x17#8] = .ok (.bref 0x123#12 10, []) ∧
  decode .literal [0x41#8] = .ok (.lit 0x41#8, []) ∧
  decode .header [0x06#8, 0x00#8] = .ok (.hdr 6#16, []) ∧
  decode .header [0x34#8, 0x12#8] = .ok (.hdr 0x1234#16, []) ∧
  decode .control [0x07#8] = .ok (.ctrl 0x07#8, []) ∧
  decode .command [0x01#8, 0x01#8, 0x00#8, 0x00#8] = .ok (.decompress 1#24, []) ∧
  decode .command [0xFF#8, 0x00#8, 0x00#8, 0x00#8] = .ok (.reserved80 0xFF#8 0#24, []) ∧
  decode .winPort [0x5A#8, 0xEE#8, 0x2F#8] = .ok (.wappend 0xFEE#12 0x5A#8, [])

/-! ### Host commands (45_host_commands) -/

/-- R241: an idle engine runs a NOP by doing nothing; while BUSY = 1 the write is a host-protocol violation, refused. -/
def Obligations.NopChangesNothing : Prop :=
  ∀ (ign : BitVec 24) (s : State),
    (s.status.busy = false → exec (.nop ign) s = .next s) ∧
    (s.status.busy = true → exec (.nop ign) s = .refused .cmdWhileBusy)

/-- R244, with R265: for every CMD word whose code is in 0x03..0xFF, whatever its bits 31:8, the decoder gives a reserved
command, and an idle engine takes F_BAD_CMD: STATUS and OUT_LEN change and nothing else (no seeding, no read, no write). -/
def Obligations.ReservedCommandTakesBadCmd : Prop :=
  ∀ (w : Word) (s : State), 3 ≤ w.toNat % 256 → s.status.busy = false →
    exec (decodeCommand w) s = .next (faultedWith 0x01#8 s)

/-- The seven reserved rows one by one (R244): each takes F_BAD_CMD whatever its operands, and is refused while BUSY = 1. -/
def Obligations.EachReservedRowTakesBadCmd : Prop :=
  ∀ (op : Byte) (ign : BitVec 24) (s : State),
    ∀ i ∈ [Instr.reserved03 ign, .reserved04 op ign, .reserved08 op ign, .reserved10 op ign, .reserved20 op ign,
      .reserved40 op ign, .reserved80 op ign],
      (s.status.busy = false → exec i s = .next (faultedWith 0x01#8 s)) ∧
      (s.status.busy = true → exec i s = .refused .cmdWhileBusy)

/-- R242, R176 and R177: DECOMPRESS is accepted by an idle engine. With the image in bounds the window is seeded and the header
token run; each check that fails raises its fault, in the order of the rules, F_BAD_LEN before the seeding. That the window
stays seeded after F_START_RANGE and F_HDR_OVERRUN is the model's reading of R265 (log 13). -/
def Obligations.DecompressIsAccepted : Prop :=
  ∀ (ign : BitVec 24) (s : State), s.status.busy = false →
    let lo := (inByte s s.start.toNat).toNat
    let hi := (inByte s (s.start.toNat + 1)).toNat
    (s.par.inCap < s.inLen.toNat → exec (.decompress ign) s = .next (faultedWith 0x02#8 s)) ∧
    (s.inLen.toNat ≤ s.par.inCap → s.inLen.toNat < s.start.toNat + 2 →
      exec (.decompress ign) s = .next (faultedWith 0x03#8 (seed s))) ∧
    (s.inLen.toNat ≤ s.par.inCap → s.start.toNat + 2 ≤ s.inLen.toNat →
      s.inLen.toNat < s.start.toNat + 2 + (lo + 256 * hi) →
      exec (.decompress ign) s = .next (faultedWith 0x04#8 (seed s))) ∧
    (s.inLen.toNat ≤ s.par.inCap → s.start.toNat + 2 + (lo + 256 * hi) ≤ s.inLen.toNat →
      ∃ t, exec (.decompress ign) s = .next t ∧ t.rem.toNat = lo + 256 * hi ∧
        t = { seed s with
              status := ⟨true, false, false, 0#8⟩, outLen := 0#32, rem := t.rem,
              rp := s.start.toNat + 2, ol := 0, fsm := .dCtrl })

/-- R243 and R212: COMPRESS is accepted by an idle engine; OUT[0..1] are reserved and not written. IN_LEN > IN_CAP raises
F_BAD_LEN before the seeding. -/
def Obligations.CompressIsAccepted : Prop :=
  ∀ (ign : BitVec 24) (s : State), s.status.busy = false →
    (s.par.inCap < s.inLen.toNat → exec (.compress ign) s = .next (faultedWith 0x02#8 s)) ∧
    (s.inLen.toNat ≤ s.par.inCap →
      exec (.compress ign) s = .next
        { seed s with
          status := ⟨true, false, false, 0#8⟩, outLen := 0#32, ol := 2, pos := 0, fl := 0#8, nf := 0, pl := 0,
          fsm := .cMatch })

/-- R306, first point: no command runs while BUSY = 1, whatever the word. -/
def Obligations.NoCommandWhileBusy : Prop :=
  ∀ (w : Word) (s : State), s.status.busy = true → exec (decodeCommand w) s = .refused .cmdWhileBusy

/-! ### Stream tokens and the steps of DECOMPRESS (43_decompress) -/

/-- The header token with header value `h` (R176, R177): what it starts, and its two faults in their order. -/
def Obligations.HeaderTokenStartsTheStream : Prop :=
  ∀ (h : BitVec 16) (s : State),
    (s.inLen.toNat < s.start.toNat + 2 → exec (.hdr h) s = .next (faultedWith 0x03#8 s)) ∧
    (s.start.toNat + 2 ≤ s.inLen.toNat → s.inLen.toNat < s.start.toNat + 2 + h.toNat →
      exec (.hdr h) s = .next (faultedWith 0x04#8 s)) ∧
    (s.start.toNat + 2 + h.toNat ≤ s.inLen.toNat →
      exec (.hdr h) s = .next { s with rem := h, rp := s.start.toNat + 2, ol := 0, fsm := .dCtrl })

/-- R179: the control byte token, with REM counted as a number. -/
def Obligations.ControlTokenLoadsFlags : Prop :=
  ∀ (b : Byte) (s : State), 1 ≤ s.rem.toNat →
    ∃ t, exec (.ctrl b) s = .next t ∧ t.rem.toNat + 1 = s.rem.toNat ∧
      t = { s with ctrl := b, rp := s.rp + 1, rem := t.rem, bit := 0, fsm := .dUnit }

/-- R183 with Emit, R181: the literal token outputs its byte, appends it to the window and changes nothing else; with OUT full
it raises F_OUT_OVERFLOW and writes neither. That RP and REM, written before the fault point, stay is the model's reading of
R265 (log 13). -/
def Obligations.LiteralTokenEmitsItsByte : Prop :=
  ∀ (v : Byte) (s : State), 1 ≤ s.rem.toNat →
    (s.ol < s.par.outCap → ∃ t, exec (.lit v) s = .next t ∧ t.rem.toNat + 1 = s.rem.toNat ∧
      (∀ a, memRead none t.outBuf a = if a = s.ol then some v else memRead none s.outBuf a) ∧
      (∀ i, winByte t i = if i = s.cur.toNat then v else winByte s i) ∧
      t.cur.toNat = (s.cur.toNat + 1) % 4096 ∧
      t = { s with rp := s.rp + 1, rem := t.rem, ol := s.ol + 1, outBuf := t.outBuf, win := t.win, cur := t.cur }) ∧
    (s.par.outCap ≤ s.ol → exec (.lit v) s =
      .next (faultedWith 0x06#8 { s with rp := s.rp + 1, rem := s.rem - 1#16 }))

/-- R185: the back-reference token starts a copy; with fewer than two declared bytes left it raises F_DESC_TRUNC and consumes
nothing. -/
def Obligations.BackrefTokenStartsTheCopy : Prop :=
  ∀ (p : BitVec 12) (len : Nat) (s : State),
    (2 ≤ s.rem.toNat → ∃ t, exec (.bref p len) s = .next t ∧ t.rem.toNat + 2 = s.rem.toNat ∧
      t = { s with rp := s.rp + 2, rem := t.rem, src := p, len := len, k := 0, fsm := .dCopy }) ∧
    (s.rem.toNat < 2 → exec (.bref p len) s = .next (faultedWith 0x05#8 s))

/-- The CTRL and LIT tokens stop by name where no stream byte is left, which R178 and R180 rule out (the model's choice,
log 12). -/
def Obligations.TokensStopWithNoByteLeft : Prop :=
  ∀ (b : Byte) (s : State), s.rem.toNat = 0 →
    exec (.ctrl b) s = .fault .remUnderflow ∧ exec (.lit b) s = .fault .remUnderflow

/-- R178 and R180: what the D_CTRL and D_UNIT steps do: completion (R190) as soon as REM = 0, the end of a group, the fault of a
cut descriptor (R185), or the token the flag selects. That BIT has moved on when the descriptor is cut, and that the
descriptor is then not fetched, are the model's readings (log 13, log 17). -/
def Obligations.StreamStepsChooseTheToken : Prop :=
  ∀ s : State,
    let done : State :=
      { s with outLen := BitVec.ofNat 32 s.ol, status := { s.status with busy := false, done := true }, fsm := .idle }
    let taken : State := { s with bit := s.bit + 1 }
    (s.fsm = .dCtrl → s.rem.toNat = 0 → engineStep s = .next done) ∧
    (s.fsm = .dCtrl → 1 ≤ s.rem.toNat → s.rp < s.par.inCap → engineStep s = exec (.ctrl (inByte s s.rp)) s) ∧
    (s.fsm = .dUnit → s.rem.toNat = 0 → engineStep s = .next done) ∧
    (s.fsm = .dUnit → 1 ≤ s.rem.toNat → s.bit = 8 → engineStep s = .next { s with fsm := .dCtrl }) ∧
    (s.fsm = .dUnit → 1 ≤ s.rem.toNat → s.bit < 8 → s.ctrl.toNat.testBit s.bit = true → s.rp < s.par.inCap →
      engineStep s = exec (.lit (inByte s s.rp)) taken) ∧
    (s.fsm = .dUnit → s.rem.toNat = 1 → s.bit < 8 → s.ctrl.toNat.testBit s.bit = false →
      engineStep s = .next (faultedWith 0x05#8 taken)) ∧
    (s.fsm = .dUnit → 2 ≤ s.rem.toNat → s.bit < 8 → s.ctrl.toNat.testBit s.bit = false → s.rp + 1 < s.par.inCap →
      ∃ (p : BitVec 12) (len : Nat), engineStep s = exec (.bref p len) taken ∧
        p.toNat = (inByte s s.rp).toNat + 256 * ((inByte s (s.rp + 1)).toNat / 16) ∧
        len = (inByte s (s.rp + 1)).toNat % 16 + 3)

/-- R186, with R101 and R181: one copied byte. It is read before it is written, output, appended to the window, and nothing
else changes but K and, after the last byte, FSM. -/
def Obligations.CopyStepCopiesOneByte : Prop :=
  ∀ s : State, s.fsm = .dCopy →
    let b := winByte s ((s.src.toNat + s.k) % 4096)
    (s.ol < s.par.outCap → ∃ t, engineStep s = .next t ∧
      (∀ a, memRead none t.outBuf a = if a = s.ol then some b else memRead none s.outBuf a) ∧
      (∀ i, winByte t i = if i = s.cur.toNat then b else winByte s i) ∧
      t.cur.toNat = (s.cur.toNat + 1) % 4096 ∧
      t = { s with
            k := s.k + 1, ol := s.ol + 1, outBuf := t.outBuf, win := t.win, cur := t.cur,
            fsm := if s.k + 1 = s.len then .dUnit else .dCopy }) ∧
    (s.par.outCap ≤ s.ol → engineStep s = .next (faultedWith 0x06#8 s))

/-- R184: while DECOMPRESS goes on, RP grows by what REM shrinks. -/
def Obligations.ConsumptionIsAccounted : Prop :=
  ∀ s t : State, decompressing s → decompressing t → engineStep s = .next t →
    t.rp + t.rem.toNat = s.rp + s.rem.toNat ∧ t.rem.toNat ≤ s.rem.toNat

/-! ### The window (40_window) -/

/-- R100: after seeding, every index, even out of range or negative, reads SEED_BYTE; CUR is SEED_CURSOR; nothing else changes. -/
def Obligations.SeedFillsTheWindow : Prop :=
  ∀ s : State, (∀ i : Int, winGet i (seed s) = s.par.seedByte) ∧ (seed s).cur = s.par.seedCursor ∧
    seed s = { s with win := (seed s).win, seeded := true, cur := s.par.seedCursor }

/-- R101 to R103 and R79: what each window-port word does when the engine runs it, and what it leaves unchanged. The byte a GET
returns is held in the model's own `portData` (log 8). -/
def Obligations.WindowPortWordsRun : Prop :=
  ∀ (addr : BitVec 12) (data : Byte) (s : State),
    exec (.wnone addr data) s = .next s ∧
    exec (.wget addr data) s = .next { s with portData := winByte s addr.toNat } ∧
    (∃ t, exec (.wappend addr data) s = .next t ∧ t.cur.toNat = (s.cur.toNat + 1) % 4096 ∧
      (∀ i, winByte t i = if i = s.cur.toNat then data else winByte s i) ∧
      t = { s with win := t.win, cur := t.cur }) ∧
    (∃ t, exec (.wset addr data) s = .next t ∧
      (∀ i, winByte t i = if i = addr.toNat then data else winByte s i) ∧
      t = { s with win := t.win })

/-- R101: the index of a read is reduced with the mathematical modulo, for negative indices too. -/
def Obligations.WindowIndexIsReduced : Prop :=
  ∀ (i : Int) (s : State), ∃ j : Nat, j < 4096 ∧ (4096 : Int) ∣ i - j ∧ winGet i s = winByte s j

/-- R104: a window read after a window write to the same index returns the written byte. -/
def Obligations.ReadAfterWriteReturnsTheByte : Prop :=
  ∀ (i : Int) (b : Byte) (s : State),
    winGet i (winSet i b s) = b ∧ winGet s.cur.toNat (winAppend b s) = b

/-- R105: the byte appended `k` appends ago is at index CUR - k, for up to 4096 appends. -/
def Obligations.RecentAppendsLieBehindTheCursor : Prop :=
  ∀ (bs : List Byte) (s : State) (k : Nat), 1 ≤ k → k ≤ bs.length → k ≤ 4096 →
    let t := winAppendAll bs s
    some (winGet ((t.cur.toNat : Int) - k) t) = bs[bs.length - k]?

/-- R106: after fewer than 4096 appends to a seeded window, every other index still reads SEED_BYTE. -/
def Obligations.SeedTerritoryStays : Prop :=
  ∀ (bs : List Byte) (s : State) (i : Nat), bs.length < 4096 → i < 4096 →
    (∀ j < bs.length, i ≠ (s.par.seedCursor.toNat + j) % 4096) →
    winByte (winAppendAll bs (seed s)) i = s.par.seedByte

/-! ### The bit-flag stream (41_bitflag) -/

/-- R121 to R124 and R126: the group that decisions make from a fresh one. Flag j is the flag of decision j, the unused flags
are 0, the payload stands in production order after the control byte, and only FL, NF, PB and PL change. -/
def Obligations.GroupHoldsDecisionsInOrder : Prop :=
  ∀ (ds : List (Bool × List Byte)) (s : State), ds.length ≤ 8 → (∀ d ∈ ds, 1 ≤ d.2.length ∧ d.2.length ≤ 2) →
    let t := ds.foldl (fun u d => addDecision d.1 d.2 u) (groupReset s)
    t.nf = ds.length ∧ t.pl = (ds.flatMap (·.2)).length ∧
    groupBytes t = t.fl :: ds.flatMap (·.2) ∧
    (∀ j, t.fl.toNat.testBit j = (ds[j]?.map (·.1)).getD false) ∧
    t = { s with fl := t.fl, nf := t.nf, pb := t.pb, pl := t.pl }

/-! ### The match finder (42_matchfinder) -/

/-- R143 to R148: the result is the greatest candidate in the order (L, p), and NoMatch exactly where there is none. -/
def Obligations.MatchFindPicksGreatestCandidate : Prop :=
  ∀ (c : Nat) (win : Nat → Byte) (a : List Byte), c < 4096 →
    (∀ m : Match, matchFind c win a = some m ↔
      Candidate c win a m.index m.length ∧
        ∀ p len, Candidate c win a p len → len < m.length ∨ (len = m.length ∧ p ≤ m.index)) ∧
    (matchFind c win a = none ↔ ∀ p len, ¬ Candidate c win a p len)

/-- R141: the result is what the loops of the rule's pseudocode compute, whatever the order of the visit; the model's own order
is log 18. -/
def Obligations.MatchFindEqualsTheLoops : Prop :=
  ∀ (c : Nat) (win : Nat → Byte) (a : List Byte), c < 4096 → matchFind c win a = matchFindLoop c win a

/-- R150: the copy of a match that the finder returned, run by the D_COPY steps from the same cursor and window, outputs exactly
the input bytes and leaves the window that appending those bytes leaves. -/
def Obligations.MatchCopyReproducesTheInput : Prop :=
  ∀ (s : State) (a : List Byte) (m : Match), s.inputs = [] → s.port = none → s.fsm = .dCopy → s.k = 0 → a.length ≤ 18 →
    matchFind s.cur.toNat (winByte s) a = some m → s.src.toNat = m.index → s.len = m.length →
    s.ol + m.length ≤ s.par.outCap →
    ∃ t, Steps m.length s t ∧ t.fsm = .dUnit ∧ t.ol = s.ol + m.length ∧
      (∀ x, memLookup t.outBuf x =
        if s.ol ≤ x ∧ x < s.ol + m.length then a[x - s.ol]? else memLookup s.outBuf x) ∧
      (∀ i, winByte t i = winByte (winAppendAll (a.take m.length) s) i) ∧
      t.cur = (winAppendAll (a.take m.length) s).cur

/-! ### The steps of COMPRESS (44_compress) -/

/-- R214, at the end of the input: a pending group is flushed, else the header is written. -/
def Obligations.EndOfInputFlushesOrPatches : Prop :=
  ∀ s : State, s.fsm = .cMatch → s.inLen.toNat ≤ s.par.inCap → s.pos = s.inLen.toNat →
    (0 < s.nf → engineStep s = .next { s with fsm := .cFlush }) ∧
    (s.nf = 0 → engineStep s = .next { s with fsm := .cPatch })

/-- R215, as R214 runs it: where the finder reports no match, the byte at POS becomes a literal decision. -/
def Obligations.NoMatchMakesALiteral : Prop :=
  ∀ s : State, s.fsm = .cMatch → s.inLen.toNat ≤ s.par.inCap → s.pos < s.inLen.toNat → s.nf < 8 → s.pl ≤ 2 * s.nf →
    matchFind s.cur.toNat (winByte s) (inBytes s s.pos (min s.par.lookahead (s.inLen.toNat - s.pos))) = none →
    ∃ t, engineStep s = .next t ∧
      (∀ j, t.fl.toNat.testBit j = (s.fl.toNat.testBit j || decide (j = s.nf))) ∧
      t.pb.toList.take t.pl = s.pb.toList.take s.pl ++ [inByte s s.pos] ∧
      (∀ i, winByte t i = if i = s.cur.toNat then inByte s s.pos else winByte s i) ∧
      t.cur.toNat = (s.cur.toNat + 1) % 4096 ∧
      t = { s with
            pos := s.pos + 1, nf := s.nf + 1, pl := s.pl + 1, fl := t.fl, pb := t.pb, win := t.win, cur := t.cur,
            fsm := if s.nf + 1 = 8 then .cFlush else .cMatch }

/-- R216, as R214 runs it: a match becomes a back-reference decision with the descriptor of R75, and its bytes are appended to
the window from the input. -/
def Obligations.MatchMakesABackref : Prop :=
  ∀ (s : State) (m : Match), s.fsm = .cMatch → s.inLen.toNat ≤ s.par.inCap → s.pos < s.inLen.toNat → s.nf < 8 →
    s.pl ≤ 2 * s.nf → s.par.lookahead ≤ 18 →
    matchFind s.cur.toNat (winByte s) (inBytes s s.pos (min s.par.lookahead (s.inLen.toNat - s.pos))) = some m →
    ∃ t, engineStep s = .next t ∧
      t.pb.toList.take t.pl = s.pb.toList.take s.pl ++ encode (.bref (BitVec.ofNat 12 m.index) m.length) ∧
      (∀ i < 4096, winByte t i =
        if (i + 4096 - s.cur.toNat) % 4096 < m.length then inByte s (s.pos + (i + 4096 - s.cur.toNat) % 4096)
        else winByte s i) ∧
      t.cur.toNat = (s.cur.toNat + m.length) % 4096 ∧
      t = { s with
            pos := s.pos + m.length, nf := s.nf + 1, pl := s.pl + 2, pb := t.pb, win := t.win, cur := t.cur,
            fsm := if s.nf + 1 = 8 then .cFlush else .cMatch }

/-- R219 and R220: a group is written at OL, control byte first, or the first byte that does not fit raises the fault of R220,
F_SIZE_OVERFLOW before F_OUT_OVERFLOW (R266). That the payload may hold 65535 bytes is the reading of log 11; that the bytes
and OL written before the fault stay is the reading of log 13. -/
def Obligations.FlushWritesTheGroup : Prop :=
  ∀ s : State, s.fsm = .cFlush → 2 ≤ s.ol → s.ol ≤ 65537 → s.ol ≤ s.par.outCap → s.pl ≤ 16 →
    (s.ol + 1 + s.pl ≤ 65537 → s.ol + 1 + s.pl ≤ s.par.outCap → ∃ t, engineStep s = .next t ∧
      (∀ x, memLookup t.outBuf x =
        if s.ol ≤ x ∧ x < s.ol + 1 + s.pl then (s.fl :: s.pb.toList)[x - s.ol]? else memLookup s.outBuf x) ∧
      t = { s with ol := s.ol + 1 + s.pl, outBuf := t.outBuf, fl := 0#8, nf := 0, pl := 0, fsm := .cMatch }) ∧
    (65537 < s.ol + 1 + s.pl ∨ s.par.outCap < s.ol + 1 + s.pl → ∃ t, engineStep s = .next t ∧
      t = faultedWith (if 65537 ≤ s.par.outCap then 0x07#8 else 0x06#8) { s with ol := t.ol, outBuf := t.outBuf } ∧
      (∀ x, x < s.ol ∨ t.ol ≤ x → memLookup t.outBuf x = memLookup s.outBuf x) ∧
      t.ol = min 65537 s.par.outCap)

/-- R222, R223 and R53: the size header is written in the byte order of CFG.HDR_BE and the command completes. -/
def Obligations.PatchWritesTheHeader : Prop :=
  ∀ s : State, s.fsm = .cPatch → 2 ≤ s.ol → s.ol ≤ 65537 → 2 ≤ s.par.outCap →
    ∃ t b0 b1, engineStep s = .next t ∧
      (s.hdrBe = false → b0.toNat = (s.ol - 2) % 256 ∧ b1.toNat = (s.ol - 2) / 256) ∧
      (s.hdrBe = true → b0.toNat = (s.ol - 2) / 256 ∧ b1.toNat = (s.ol - 2) % 256) ∧
      (∀ x, memLookup t.outBuf x = if x = 0 then some b0 else if x = 1 then some b1 else memLookup s.outBuf x) ∧
      t.outLen.toNat = s.ol ∧
      t = { s with
            outBuf := t.outBuf, outLen := t.outLen, status := { s.status with busy := false, done := true }, fsm := .idle }

/-! ### Registers, buffers and the host (10_state, 20_memory, 45_host_commands) -/

/-- R23 and R24: the words STATUS and CFG read as, field by field, the reserved bits 0. -/
def Obligations.StatusAndCfgWords : Prop :=
  (∀ st : Status, (statusWord st).toNat =
    st.busy.toNat + 2 * st.done.toNat + 4 * st.fault.toNat + 256 * st.fcode.toNat) ∧
  (∀ be : Bool, (cfgWord be).toNat = be.toNat)

/-- R246, R56 and R57: a host read of a register word returns the register's value at any time; CMD and the reserved offsets
read 0; an access of another width or alignment, or beyond 0xFC, is refused. -/
def Obligations.HostReadsRegisters : Prop :=
  ∀ (s : State) (width : Width) (offset : Nat),
    let read := fun v : Word => (Host.Outcome.next { s with hostData := v } : Host.Outcome State Fault Refusal)
    let act := hostAct (.readReg width offset) s
    (width = .word ∧ offset % 4 = 0 ∧ offset < 0x100 →
      (offset = 0x00 → act = read 0#32) ∧
      (offset = 0x04 → act = read (statusWord s.status)) ∧
      (offset = 0x08 → act = read (cfgWord s.hdrBe)) ∧
      (offset = 0x0C → act = read s.inLen) ∧
      (offset = 0x10 → act = read s.start) ∧
      (offset = 0x14 → act = read s.outLen) ∧
      (0x18 ≤ offset → act = read 0#32)) ∧
    (¬ (width = .word ∧ offset % 4 = 0 ∧ offset < 0x100) → act = .refused .badRegAccess)

/-- R245, R56, R57 and R306: a host write of a register word. -/
def Obligations.HostWritesRegisters : Prop :=
  ∀ (s : State) (width : Width) (offset : Nat) (v : Word),
    let act := hostAct (.writeReg width offset v) s
    (width = .word ∧ offset % 4 = 0 ∧ offset < 0x100 →
      (offset = 0x00 → act = exec (decodeCommand v) s) ∧
      (offset = 0x08 → s.status.busy = false → act = .next { s with hdrBe := decide (v.toNat % 2 = 1) }) ∧
      (offset = 0x0C → s.status.busy = false → act = .next { s with inLen := v }) ∧
      (offset = 0x10 → s.status.busy = false → act = .next { s with start := v }) ∧
      (offset = 0x08 ∨ offset = 0x0C ∨ offset = 0x10 → s.status.busy = true → act = .refused .regWhileBusy) ∧
      (offset = 0x04 ∨ 0x14 ≤ offset → act = .next s)) ∧
    (¬ (width = .word ∧ offset % 4 = 0 ∧ offset < 0x100) → act = .refused .badRegAccess)

/-- R247, R61 and R306: a host write of IN while idle stores the byte and a later read returns it; OUT is never written by the
host; an access at or above the capacity is refused. -/
def Obligations.HostAccessesBuffers : Prop :=
  ∀ (s : State) (o : Nat) (b : Byte),
    (s.status.busy = false → o < s.par.inCap → ∃ t, hostAct (.writeIn o b) s = .next t ∧
      (∀ a, inByte t a = if a = o then b else inByte s a) ∧ t = { s with inBuf := t.inBuf }) ∧
    (s.status.busy = true → hostAct (.writeIn o b) s = .refused .inWhileBusy) ∧
    (s.status.busy = false → s.par.inCap ≤ o → hostAct (.writeIn o b) s = .refused .beyondBuffer) ∧
    (o < s.par.inCap → hostAct (.readIn o) s = .next { s with hostData := (inByte s o).setWidth 32 }) ∧
    (s.par.inCap ≤ o → hostAct (.readIn o) s = .refused .beyondBuffer) ∧
    hostAct (.writeOut o b) s = .refused .outWrite

/-- R60: below OUT_LEN after DONE = 1 a host read of OUT returns the byte the command wrote; at and above the capacity it is
refused; anywhere else it returns some byte. No host read changes anything else. -/
def Obligations.HostReadsOut : Prop :=
  ∀ (s : State) (o : Nat),
    (∀ b, s.status.done = true → o < s.outLen.toNat → o < s.par.outCap → memLookup s.outBuf o = some b →
      hostAct (.readOut o) s = .next { s with hostData := b.setWidth 32 }) ∧
    (o < s.par.outCap → ∃ b : Byte, hostAct (.readOut o) s = .next { s with hostData := b.setWidth 32 }) ∧
    (s.par.outCap ≤ o → hostAct (.readOut o) s = .refused .beyondBuffer)

/-- R58: a host read changes nothing but the value the host receives, and reading again at once returns the same. -/
def Obligations.HostReadsHaveNoSideEffect : Prop :=
  ∀ (s t : State) (a : HostAction), a.isRead = true → nextInput s = .host a → step s = .next t →
    t = { s with inputs := s.inputs.tail, hostData := t.hostData } ∧
    step { t with inputs := .host a :: t.inputs } = .next t

/-! ### Faults, reset and the step (60_exceptions, 70_reset_and_hazards) -/

/-- R265 and R261: the fault entry, for every code, and the code numbers. -/
def Obligations.FaultEntryIsR265 : Prop :=
  (∀ (code : FaultCode) (s : State), raiseFault code s = faultedWith code.number s) ∧
  [FaultCode.badCmd, .badLen, .startRange, .hdrOverrun, .descTrunc, .outOverflow, .sizeOverflow, .winUnderflow].map
    FaultCode.number = [0x01#8, 0x02#8, 0x03#8, 0x04#8, 0x05#8, 0x06#8, 0x07#8, 0x08#8]

/-- R290, R42 and R291: a reset event at any time, also while a command runs, leaves the registers R42 gives values at those
values, the engine idle, and nothing written in WIN, IN and OUT. -/
def Obligations.ResetEventLeavesResetValues : Prop :=
  ∀ s : State, nextInput s = .reset → ∃ t, step s = .next t ∧
    t.status = ⟨false, false, false, 0#8⟩ ∧ t.hdrBe = false ∧ t.inLen = 0#32 ∧ t.start = 0#32 ∧ t.outLen = 0#32 ∧
    t.fsm = .idle ∧ t.win = [] ∧ t.seeded = false ∧ t.inBuf = [] ∧ t.outBuf = [] ∧
    t.par = s.par ∧ t.inputs = s.inputs.tail

/-- R42: the values that the rule gives hold in `State.reset`, and so does what the host reads of them; CMD reads 0. Of the
registers the rule leaves unspecified nothing is said. -/
def Obligations.ResetStateHasResetValues : Prop :=
  State.reset.status = ⟨false, false, false, 0#8⟩ ∧ State.reset.hdrBe = false ∧ State.reset.inLen = 0#32 ∧
  State.reset.start = 0#32 ∧ State.reset.outLen = 0#32 ∧ State.reset.fsm = .idle ∧
  ∀ offset, regValue offset State.reset = 0#32

/-- A step runs the decoded instruction: the stream token at RP that the FSM state and the flag select, the word written to CMD,
the window-port word. Around it the step takes its entry off the schedule (log 6), draws the unspecified bytes of OUT anew
for a token or a command (log 5), and for a unit moves BIT (R120). DECOMPRESS runs the header token decoded at IN[START]
after accepting and seeding. That a window-port word can stand alone is log 9, the byte order of a CMD and a port word log 14. -/
def Obligations.StepRunsDecodedInstruction : Prop :=
  ∀ (s : State) (i : Instr),
    let d : State := { s with inputs := s.inputs.tail }
    let e : State := { d with epoch := s.epoch + 1 }
    let u : State := { e with bit := s.bit + 1 }
    (nextInput s = .tick → s.port = none → s.fsm = .dCtrl → s.rem ≠ 0#16 → s.rp < s.par.inCap →
      decode .control [inByte s s.rp] = .ok (i, []) → step s = exec i e) ∧
    (nextInput s = .tick → s.port = none → s.fsm = .dUnit → s.rem ≠ 0#16 → s.bit < 8 → s.ctrl.getLsbD s.bit = true →
      s.rp < s.par.inCap → decode .literal [inByte s s.rp] = .ok (i, []) → step s = exec i u) ∧
    (nextInput s = .tick → s.port = none → s.fsm = .dUnit → 2 ≤ s.rem.toNat → s.bit < 8 → s.ctrl.getLsbD s.bit = false →
      s.rp + 1 < s.par.inCap → decode .backref [inByte s s.rp, inByte s (s.rp + 1)] = .ok (i, []) →
      step s = exec i u) ∧
    (∀ b0 b1 b2 b3 : Byte, nextInput s = .host (.writeReg .word 0x00 (b3 ++ b2 ++ b1 ++ b0)) →
      decode .command [b0, b1, b2, b3] = .ok (i, []) → step s = exec i (if b0 = 0x00#8 then d else e)) ∧
    (∀ (b0 b1 : Byte) (b2 : BitVec 6), nextInput s = .tick → s.fsm ≠ .idle → s.port = some (b2 ++ b1 ++ b0) →
      decode .winPort [b0, b1, b2.setWidth 8] = .ok (i, []) → step s = exec i { d with port := none }) ∧
    (∀ ign, s.status.busy = false → s.inLen.toNat ≤ s.par.inCap →
      decode .header [inByte s s.start.toNat, inByte s (s.start.toNat + 1)] = .ok (i, []) →
      exec (.decompress ign) s = exec i (seed (accept s)))

/-- R300, R276 and R291: an idle engine takes no step. What its turn does, taking an entry off the schedule, is the model's
(log 6, log 7). -/
def Obligations.IdleEngineTakesNoStep : Prop :=
  ∀ s : State, nextInput s = .tick → s.fsm = .idle → step s = .next { s with inputs := s.inputs.tail }

/-- R300 and R301: a step is the event that the schedule (log 6) names. The engine's turn is its step while FSM is not IDLE, and
nothing while it is; a host action is that action; a reset is the reset event. A CMD write of a code other than NOP, an
engine step and a reset draw the unspecified bytes of OUT anew, and no other event does (R58, R60, log 5). -/
def Obligations.StepIsTheScheduledEvent : Prop :=
  ∀ s : State,
    let d : State := { s with inputs := s.inputs.tail }
    let e : State := { d with epoch := s.epoch + 1 }
    (nextInput s = .tick → s.fsm ≠ .idle → s.port = none → step s = engineStep e) ∧
    (nextInput s = .tick → s.fsm = .idle → step s = .next d) ∧
    (∀ a, nextInput s = .host a → (∀ width v, a = .writeReg width 0x00 v → v.toNat % 256 = 0) → step s = hostAct a d) ∧
    (∀ width v, nextInput s = .host (.writeReg width 0x00 v) → v.toNat % 256 ≠ 0 →
      step s = hostAct (.writeReg width 0x00 v) e) ∧
    (nextInput s = .reset → step s = .next (resetEvent e))

/-- R58 and R60: what a host read of IN or OUT returns stays the same with no write between. An OUT byte, unspecified ones too,
stays through every event but an engine step, a CMD write that is no NOP, and a reset; an IN byte through every event but a
host write of that byte and a reset. The bytes are the model's free values where nothing is written (log 4, log 5). -/
def Obligations.BytesStayUntilAWrite : Prop :=
  ∀ (s t : State) (o : Nat), step s = .next t → nextInput s ≠ .reset →
    ((nextInput s = .tick → s.fsm = .idle) →
      (∀ width v, nextInput s = .host (.writeReg width 0x00 v) → v.toNat % 256 = 0) → outByteSeen t o = outByteSeen s o) ∧
    ((∀ b, nextInput s ≠ .host (.writeIn o b)) → inByte t o = inByte s o)

/-- R79 and R101 to R103 (20_memory R50: the window is read and written through the window port only): what the steps do to the
window is what window-port words do. A literal and a literal decision append with one WAPPEND word, a copied byte is read with
a WGET word and appended with a WAPPEND word, and a match is appended with one WAPPEND word a byte. -/
def Obligations.StepsUseTheWindowPortOperations : Prop :=
  ∀ s : State,
    let sameWindow := fun t u : State => t.win = u.win ∧ t.cur = u.cur ∧ t.seeded = u.seeded
    (∀ v, 1 ≤ s.rem.toNat → s.ol < s.par.outCap → ∃ t u, exec (.lit v) s = .next t ∧
      exec (.wappend 0#12 v) s = .next u ∧ sameWindow t u) ∧
    (s.fsm = .dCopy → s.ol < s.par.outCap → ∃ t g u, engineStep s = .next t ∧
      exec (.wget (s.src + BitVec.ofNat 12 s.k) 0#8) s = .next g ∧ exec (.wappend 0#12 g.portData) g = .next u ∧
      sameWindow t u ∧ memLookup t.outBuf s.ol = some g.portData) ∧
    (s.fsm = .cMatch → s.inLen.toNat ≤ s.par.inCap → s.pos < s.inLen.toNat → matchQuery s = none → ∃ t u,
      engineStep s = .next t ∧ exec (.wappend 0#12 (inByte s s.pos)) s = .next u ∧ sameWindow t u) ∧
    (∀ m, s.fsm = .cMatch → s.inLen.toNat ≤ s.par.inCap → s.pos < s.inLen.toNat → matchQuery s = some m → ∃ t u,
      engineStep s = .next t ∧ appendEach (inBytes s s.pos m.length) s = .next u ∧ sameWindow t u)

/-- R25, R28 and R309: an engine step leaves STATUS and OUT_LEN as they are, or ends the command: normally, with DONE alone set
and OUT_LEN = OL, or with a fault, with FAULT and a code of R261 alone set and OUT_LEN = 0. -/
def Obligations.EngineStepsWriteStatusOnlyToEnd : Prop :=
  ∀ s t : State, s.fsm ≠ .idle → s.status = ⟨true, false, false, 0#8⟩ → engineStep s = .next t →
    (t.fsm ≠ .idle ∧ t.status = s.status ∧ t.outLen = s.outLen) ∨
    (t.fsm = .idle ∧ t.status = ⟨false, true, false, 0#8⟩ ∧ t.outLen = BitVec.ofNat 32 t.ol) ∨
    (∃ code : FaultCode, code ≠ .winUnderflow ∧ t.fsm = .idle ∧ t.status = ⟨false, false, true, code.number⟩ ∧
      t.outLen = 0#32)

/-- R59, R67 and R7: no engine step changes IN, a register the host writes, or a parameter; and but for C_PATCH none changes
OUT outside the bytes from the OL before it to the OL after it. -/
def Obligations.EngineStepsKeepTheInput : Prop :=
  ∀ s t : State, engineStep s = .next t →
    t.inBuf = s.inBuf ∧ t.inLen = s.inLen ∧ t.start = s.start ∧ t.hdrBe = s.hdrBe ∧ t.par = s.par ∧
    t.inputs = s.inputs ∧ t.resets = s.resets ∧ t.hostData = s.hostData ∧ t.portData = s.portData ∧
    (s.fsm ≠ .cPatch → ∀ a, a < s.ol ∨ t.ol ≤ a → memLookup t.outBuf a = memLookup s.outBuf a)

/-! ### Invariants and whole runs -/

/-- The invariant holds at reset. That the registers R42 leaves unspecified lie in their ranges is the model's choice (log 2), and
so is that the parameters of `State.reset` are any in the ranges of R10 to R13 (log 1). -/
def Obligations.ResetMeetsInv : Prop := Inv State.reset ∧ ResultWritten State.reset

/-- Every step keeps the invariant: the registers in their ranges, the memories canonical, STATUS true to FSM, the stream and the
input inside IN, the payload within the header's reach (log 11), and no window-port word standing alone (log 9). -/
def Obligations.StepKeepsInv : Prop := ∀ s t : State, Inv s → step s = .next t → Inv t

/-- Every step keeps the results written: what the host may read as a result after DONE = 1 was written by the engine since
reset. -/
def Obligations.StepKeepsResultWritten : Prop :=
  ∀ s t : State, Inv s → ResultWritten s → step s = .next t → ResultWritten t

/-- R60: after DONE = 1 every byte of the result was written by the command itself. With OUT emptied before the CMD write, every
byte below OUT_LEN is written at the end. -/
def Obligations.ResultIsWrittenByItsCommand : Prop :=
  ∀ (s t : State) (w : Word) (n : Nat), Inv s → s.status.busy = false → (w.toNat % 256 = 1 ∨ w.toNat % 256 = 2) →
    Steps (n + 1) (commanded w { s with outBuf := [] }) t → t.status.done = true →
    ∀ a < t.outLen.toNat, (memLookup t.outBuf a).isSome = true

/-- From every state that meets the invariant, a step completes exactly on the inputs the rules allow (R57, R61, R245, R247, R300,
R306), is refused by name on every other, and never stops with a fault of the model (log 12). The inputs are the schedule's
entries (log 6). -/
def Obligations.StepCompletesExactlyWhenAllowed : Prop :=
  ∀ s : State, Inv s →
    (allowed s (nextInput s) → ∃ t, step s = .next t) ∧
    (¬ allowed s (nextInput s) → ∃ r, step s = .refused r)

/-- R310 and R309: a DECOMPRESS with header value H ends within 12 * H + 2 steps counting acceptance, and a COMPRESS of n bytes
within 2 * n + 4; at the end the CMD write is consumed, the engine idle, and exactly one of DONE and FAULT is 1. -/
def Obligations.CommandsEndWithinBounds : Prop :=
  ∀ (s : State) (w : Word), Inv s → s.status.busy = false →
    (w.toNat % 256 = 1 → ∃ n t, n ≤ 12 * (headerAtStart s).toNat + 2 ∧ Steps n (commanded w s) t ∧
      t.inputs = [] ∧ t.fsm = .idle ∧ t.status.done = !t.status.fault) ∧
    (w.toNat % 256 = 2 → ∃ n t, n ≤ 2 * s.inLen.toNat + 4 ∧ Steps n (commanded w s) t ∧
      t.inputs = [] ∧ t.fsm = .idle ∧ t.status.done = !t.status.fault)

/-- R6, R41 and R250, with R193, R194 and R228: accepting a command puts two states that agree on what that command depends on
into the same place of it, whatever earlier commands left, and whatever IN holds outside the image (DECOMPRESS) or at IN_LEN
and above (COMPRESS). -/
def Obligations.AcceptanceForgetsEarlierCommands : Prop :=
  ∀ (s t : State) (w : Word), sameInputs w s t → s.status.busy = false → t.status.busy = false →
    s.fsm = .idle → t.fsm = .idle →
    ∃ s' t', exec (decodeCommand w) s = .next s' ∧ exec (decodeCommand w) t = .next t' ∧ SameCommand s' t'

/-- R6, R41, R59, R193 and R228: engine steps keep two states in the same place of the same command, so nothing an earlier command
left, and no byte of IN but those still to come, can be observed through STATUS, OUT_LEN or the result. -/
def Obligations.StepsKeepTheSameCommand : Prop :=
  ∀ s t s' : State, SameCommand s t → engineStep s = .next s' →
    ∃ t', engineStep t = .next t' ∧ SameCommand s' t'

/-- R193, R194 and R228: the outcome of a command is a function of what it depends on. Two idle machines that agree on that go
through equally many steps to the same STATUS, the same OUT_LEN and, after DONE = 1, the same result. (The rules leave IN_CAP
out of their lists; F_BAD_LEN, which R242 and R243 raise, depends on it.) -/
def Obligations.CommandOutcomeIsAFunctionOfItsInputs : Prop :=
  ∀ (s t s' : State) (w : Word) (n : Nat), Inv s → Inv t → s.status.busy = false → t.status.busy = false →
    sameInputs w s t → Steps (n + 1) (commanded w s) s' →
    ∃ t', Steps (n + 1) (commanded w t) t' ∧ s'.status = t'.status ∧ s'.outLen = t'.outLen ∧
      (s'.status.done = true → result s' = result t')

/-- R226: what COMPRESS makes of an input, DECOMPRESS turns back into that input, on any machine with the same seed whose IN holds
the result. -/
def Obligations.DecompressInvertsCompress : Prop :=
  ∀ (s t u : State) (n : Nat), Inv s → s.status.busy = false → s.hdrBe = false →
    Steps n (commanded 2#32 s) t → t.inputs = [] → t.fsm = .idle → t.status.done = true →
    Inv u → u.status.busy = false → u.par.seedByte = s.par.seedByte → u.par.seedCursor = s.par.seedCursor →
    u.start = 0#32 → u.inLen = t.outLen → u.inLen.toNat ≤ u.par.inCap → s.inLen.toNat ≤ u.par.outCap →
    (∀ a < t.outLen.toNat, inByte u a = outByteSeen t a) →
    ∃ k v, Steps k (commanded 1#32 u) v ∧ v.inputs = [] ∧ v.fsm = .idle ∧ v.status.done = true ∧
      result v = inBytes s 0 s.inLen.toNat
end

