-- ==== Sys2Proof/Laws/State.lean ====
section
/-! SUPPORT. What each named update of the state leaves in each field. -/

namespace Sys2Proof.Machine

/-! ### `winSet` -/

@[simp] theorem winSet_par (i : Int) (b : Byte) (s : State) : (winSet i b s).par = s.par := rfl
@[simp] theorem winSet_status (i : Int) (b : Byte) (s : State) : (winSet i b s).status = s.status := rfl
@[simp] theorem winSet_hdrBe (i : Int) (b : Byte) (s : State) : (winSet i b s).hdrBe = s.hdrBe := rfl
@[simp] theorem winSet_inLen (i : Int) (b : Byte) (s : State) : (winSet i b s).inLen = s.inLen := rfl
@[simp] theorem winSet_start (i : Int) (b : Byte) (s : State) : (winSet i b s).start = s.start := rfl
@[simp] theorem winSet_outLen (i : Int) (b : Byte) (s : State) : (winSet i b s).outLen = s.outLen := rfl
@[simp] theorem winSet_fsm (i : Int) (b : Byte) (s : State) : (winSet i b s).fsm = s.fsm := rfl
@[simp] theorem winSet_win (i : Int) (b : Byte) (s : State) : (winSet i b s).win = memWrite (winDefault s) s.win (winIndex i) b := rfl
@[simp] theorem winSet_seeded (i : Int) (b : Byte) (s : State) : (winSet i b s).seeded = s.seeded := rfl
@[simp] theorem winSet_cur (i : Int) (b : Byte) (s : State) : (winSet i b s).cur = s.cur := rfl
@[simp] theorem winSet_rem (i : Int) (b : Byte) (s : State) : (winSet i b s).rem = s.rem := rfl
@[simp] theorem winSet_rp (i : Int) (b : Byte) (s : State) : (winSet i b s).rp = s.rp := rfl
@[simp] theorem winSet_ctrl (i : Int) (b : Byte) (s : State) : (winSet i b s).ctrl = s.ctrl := rfl
@[simp] theorem winSet_bit (i : Int) (b : Byte) (s : State) : (winSet i b s).bit = s.bit := rfl
@[simp] theorem winSet_src (i : Int) (b : Byte) (s : State) : (winSet i b s).src = s.src := rfl
@[simp] theorem winSet_len (i : Int) (b : Byte) (s : State) : (winSet i b s).len = s.len := rfl
@[simp] theorem winSet_k (i : Int) (b : Byte) (s : State) : (winSet i b s).k = s.k := rfl
@[simp] theorem winSet_ol (i : Int) (b : Byte) (s : State) : (winSet i b s).ol = s.ol := rfl
@[simp] theorem winSet_pos (i : Int) (b : Byte) (s : State) : (winSet i b s).pos = s.pos := rfl
@[simp] theorem winSet_fl (i : Int) (b : Byte) (s : State) : (winSet i b s).fl = s.fl := rfl
@[simp] theorem winSet_nf (i : Int) (b : Byte) (s : State) : (winSet i b s).nf = s.nf := rfl
@[simp] theorem winSet_pb (i : Int) (b : Byte) (s : State) : (winSet i b s).pb = s.pb := rfl
@[simp] theorem winSet_pl (i : Int) (b : Byte) (s : State) : (winSet i b s).pl = s.pl := rfl
@[simp] theorem winSet_inBuf (i : Int) (b : Byte) (s : State) : (winSet i b s).inBuf = s.inBuf := rfl
@[simp] theorem winSet_outBuf (i : Int) (b : Byte) (s : State) : (winSet i b s).outBuf = s.outBuf := rfl
@[simp] theorem winSet_port (i : Int) (b : Byte) (s : State) : (winSet i b s).port = s.port := rfl
@[simp] theorem winSet_inputs (i : Int) (b : Byte) (s : State) : (winSet i b s).inputs = s.inputs := rfl
@[simp] theorem winSet_hostData (i : Int) (b : Byte) (s : State) : (winSet i b s).hostData = s.hostData := rfl
@[simp] theorem winSet_portData (i : Int) (b : Byte) (s : State) : (winSet i b s).portData = s.portData := rfl
@[simp] theorem winSet_resets (i : Int) (b : Byte) (s : State) : (winSet i b s).resets = s.resets := rfl
@[simp] theorem winSet_epoch (i : Int) (b : Byte) (s : State) : (winSet i b s).epoch = s.epoch := rfl

/-! ### `winAppend` -/

@[simp] theorem winAppend_par (b : Byte) (s : State) : (winAppend b s).par = s.par := rfl
@[simp] theorem winAppend_status (b : Byte) (s : State) : (winAppend b s).status = s.status := rfl
@[simp] theorem winAppend_hdrBe (b : Byte) (s : State) : (winAppend b s).hdrBe = s.hdrBe := rfl
@[simp] theorem winAppend_inLen (b : Byte) (s : State) : (winAppend b s).inLen = s.inLen := rfl
@[simp] theorem winAppend_start (b : Byte) (s : State) : (winAppend b s).start = s.start := rfl
@[simp] theorem winAppend_outLen (b : Byte) (s : State) : (winAppend b s).outLen = s.outLen := rfl
@[simp] theorem winAppend_fsm (b : Byte) (s : State) : (winAppend b s).fsm = s.fsm := rfl
@[simp] theorem winAppend_win (b : Byte) (s : State) : (winAppend b s).win = memWrite (winDefault s) s.win s.cur.toNat b := rfl
@[simp] theorem winAppend_seeded (b : Byte) (s : State) : (winAppend b s).seeded = s.seeded := rfl
@[simp] theorem winAppend_cur (b : Byte) (s : State) : (winAppend b s).cur = s.cur + 1#12 := rfl
@[simp] theorem winAppend_rem (b : Byte) (s : State) : (winAppend b s).rem = s.rem := rfl
@[simp] theorem winAppend_rp (b : Byte) (s : State) : (winAppend b s).rp = s.rp := rfl
@[simp] theorem winAppend_ctrl (b : Byte) (s : State) : (winAppend b s).ctrl = s.ctrl := rfl
@[simp] theorem winAppend_bit (b : Byte) (s : State) : (winAppend b s).bit = s.bit := rfl
@[simp] theorem winAppend_src (b : Byte) (s : State) : (winAppend b s).src = s.src := rfl
@[simp] theorem winAppend_len (b : Byte) (s : State) : (winAppend b s).len = s.len := rfl
@[simp] theorem winAppend_k (b : Byte) (s : State) : (winAppend b s).k = s.k := rfl
@[simp] theorem winAppend_ol (b : Byte) (s : State) : (winAppend b s).ol = s.ol := rfl
@[simp] theorem winAppend_pos (b : Byte) (s : State) : (winAppend b s).pos = s.pos := rfl
@[simp] theorem winAppend_fl (b : Byte) (s : State) : (winAppend b s).fl = s.fl := rfl
@[simp] theorem winAppend_nf (b : Byte) (s : State) : (winAppend b s).nf = s.nf := rfl
@[simp] theorem winAppend_pb (b : Byte) (s : State) : (winAppend b s).pb = s.pb := rfl
@[simp] theorem winAppend_pl (b : Byte) (s : State) : (winAppend b s).pl = s.pl := rfl
@[simp] theorem winAppend_inBuf (b : Byte) (s : State) : (winAppend b s).inBuf = s.inBuf := rfl
@[simp] theorem winAppend_outBuf (b : Byte) (s : State) : (winAppend b s).outBuf = s.outBuf := rfl
@[simp] theorem winAppend_port (b : Byte) (s : State) : (winAppend b s).port = s.port := rfl
@[simp] theorem winAppend_inputs (b : Byte) (s : State) : (winAppend b s).inputs = s.inputs := rfl
@[simp] theorem winAppend_hostData (b : Byte) (s : State) : (winAppend b s).hostData = s.hostData := rfl
@[simp] theorem winAppend_portData (b : Byte) (s : State) : (winAppend b s).portData = s.portData := rfl
@[simp] theorem winAppend_resets (b : Byte) (s : State) : (winAppend b s).resets = s.resets := rfl
@[simp] theorem winAppend_epoch (b : Byte) (s : State) : (winAppend b s).epoch = s.epoch := rfl

/-! ### `seed` -/

@[simp] theorem seed_par (s : State) : (seed s).par = s.par := rfl
@[simp] theorem seed_status (s : State) : (seed s).status = s.status := rfl
@[simp] theorem seed_hdrBe (s : State) : (seed s).hdrBe = s.hdrBe := rfl
@[simp] theorem seed_inLen (s : State) : (seed s).inLen = s.inLen := rfl
@[simp] theorem seed_start (s : State) : (seed s).start = s.start := rfl
@[simp] theorem seed_outLen (s : State) : (seed s).outLen = s.outLen := rfl
@[simp] theorem seed_fsm (s : State) : (seed s).fsm = s.fsm := rfl
@[simp] theorem seed_win (s : State) : (seed s).win = [] := rfl
@[simp] theorem seed_seeded (s : State) : (seed s).seeded = true := rfl
@[simp] theorem seed_cur (s : State) : (seed s).cur = s.par.seedCursor := rfl
@[simp] theorem seed_rem (s : State) : (seed s).rem = s.rem := rfl
@[simp] theorem seed_rp (s : State) : (seed s).rp = s.rp := rfl
@[simp] theorem seed_ctrl (s : State) : (seed s).ctrl = s.ctrl := rfl
@[simp] theorem seed_bit (s : State) : (seed s).bit = s.bit := rfl
@[simp] theorem seed_src (s : State) : (seed s).src = s.src := rfl
@[simp] theorem seed_len (s : State) : (seed s).len = s.len := rfl
@[simp] theorem seed_k (s : State) : (seed s).k = s.k := rfl
@[simp] theorem seed_ol (s : State) : (seed s).ol = s.ol := rfl
@[simp] theorem seed_pos (s : State) : (seed s).pos = s.pos := rfl
@[simp] theorem seed_fl (s : State) : (seed s).fl = s.fl := rfl
@[simp] theorem seed_nf (s : State) : (seed s).nf = s.nf := rfl
@[simp] theorem seed_pb (s : State) : (seed s).pb = s.pb := rfl
@[simp] theorem seed_pl (s : State) : (seed s).pl = s.pl := rfl
@[simp] theorem seed_inBuf (s : State) : (seed s).inBuf = s.inBuf := rfl
@[simp] theorem seed_outBuf (s : State) : (seed s).outBuf = s.outBuf := rfl
@[simp] theorem seed_port (s : State) : (seed s).port = s.port := rfl
@[simp] theorem seed_inputs (s : State) : (seed s).inputs = s.inputs := rfl
@[simp] theorem seed_hostData (s : State) : (seed s).hostData = s.hostData := rfl
@[simp] theorem seed_portData (s : State) : (seed s).portData = s.portData := rfl
@[simp] theorem seed_resets (s : State) : (seed s).resets = s.resets := rfl
@[simp] theorem seed_epoch (s : State) : (seed s).epoch = s.epoch := rfl

/-! ### `raiseFault` -/

@[simp] theorem raiseFault_par (code : FaultCode) (s : State) : (raiseFault code s).par = s.par := rfl
@[simp] theorem raiseFault_status (code : FaultCode) (s : State) : (raiseFault code s).status = ⟨false, false, true, code.number⟩ := rfl
@[simp] theorem raiseFault_hdrBe (code : FaultCode) (s : State) : (raiseFault code s).hdrBe = s.hdrBe := rfl
@[simp] theorem raiseFault_inLen (code : FaultCode) (s : State) : (raiseFault code s).inLen = s.inLen := rfl
@[simp] theorem raiseFault_start (code : FaultCode) (s : State) : (raiseFault code s).start = s.start := rfl
@[simp] theorem raiseFault_outLen (code : FaultCode) (s : State) : (raiseFault code s).outLen = 0#32 := rfl
@[simp] theorem raiseFault_fsm (code : FaultCode) (s : State) : (raiseFault code s).fsm = .idle := rfl
@[simp] theorem raiseFault_win (code : FaultCode) (s : State) : (raiseFault code s).win = s.win := rfl
@[simp] theorem raiseFault_seeded (code : FaultCode) (s : State) : (raiseFault code s).seeded = s.seeded := rfl
@[simp] theorem raiseFault_cur (code : FaultCode) (s : State) : (raiseFault code s).cur = s.cur := rfl
@[simp] theorem raiseFault_rem (code : FaultCode) (s : State) : (raiseFault code s).rem = s.rem := rfl
@[simp] theorem raiseFault_rp (code : FaultCode) (s : State) : (raiseFault code s).rp = s.rp := rfl
@[simp] theorem raiseFault_ctrl (code : FaultCode) (s : State) : (raiseFault code s).ctrl = s.ctrl := rfl
@[simp] theorem raiseFault_bit (code : FaultCode) (s : State) : (raiseFault code s).bit = s.bit := rfl
@[simp] theorem raiseFault_src (code : FaultCode) (s : State) : (raiseFault code s).src = s.src := rfl
@[simp] theorem raiseFault_len (code : FaultCode) (s : State) : (raiseFault code s).len = s.len := rfl
@[simp] theorem raiseFault_k (code : FaultCode) (s : State) : (raiseFault code s).k = s.k := rfl
@[simp] theorem raiseFault_ol (code : FaultCode) (s : State) : (raiseFault code s).ol = s.ol := rfl
@[simp] theorem raiseFault_pos (code : FaultCode) (s : State) : (raiseFault code s).pos = s.pos := rfl
@[simp] theorem raiseFault_fl (code : FaultCode) (s : State) : (raiseFault code s).fl = s.fl := rfl
@[simp] theorem raiseFault_nf (code : FaultCode) (s : State) : (raiseFault code s).nf = s.nf := rfl
@[simp] theorem raiseFault_pb (code : FaultCode) (s : State) : (raiseFault code s).pb = s.pb := rfl
@[simp] theorem raiseFault_pl (code : FaultCode) (s : State) : (raiseFault code s).pl = s.pl := rfl
@[simp] theorem raiseFault_inBuf (code : FaultCode) (s : State) : (raiseFault code s).inBuf = s.inBuf := rfl
@[simp] theorem raiseFault_outBuf (code : FaultCode) (s : State) : (raiseFault code s).outBuf = s.outBuf := rfl
@[simp] theorem raiseFault_port (code : FaultCode) (s : State) : (raiseFault code s).port = s.port := rfl
@[simp] theorem raiseFault_inputs (code : FaultCode) (s : State) : (raiseFault code s).inputs = s.inputs := rfl
@[simp] theorem raiseFault_hostData (code : FaultCode) (s : State) : (raiseFault code s).hostData = s.hostData := rfl
@[simp] theorem raiseFault_portData (code : FaultCode) (s : State) : (raiseFault code s).portData = s.portData := rfl
@[simp] theorem raiseFault_resets (code : FaultCode) (s : State) : (raiseFault code s).resets = s.resets := rfl
@[simp] theorem raiseFault_epoch (code : FaultCode) (s : State) : (raiseFault code s).epoch = s.epoch := rfl

/-! ### `accept` -/

@[simp] theorem accept_par (s : State) : (accept s).par = s.par := rfl
@[simp] theorem accept_status (s : State) : (accept s).status = ⟨true, false, false, 0#8⟩ := rfl
@[simp] theorem accept_hdrBe (s : State) : (accept s).hdrBe = s.hdrBe := rfl
@[simp] theorem accept_inLen (s : State) : (accept s).inLen = s.inLen := rfl
@[simp] theorem accept_start (s : State) : (accept s).start = s.start := rfl
@[simp] theorem accept_outLen (s : State) : (accept s).outLen = 0#32 := rfl
@[simp] theorem accept_fsm (s : State) : (accept s).fsm = s.fsm := rfl
@[simp] theorem accept_win (s : State) : (accept s).win = s.win := rfl
@[simp] theorem accept_seeded (s : State) : (accept s).seeded = s.seeded := rfl
@[simp] theorem accept_cur (s : State) : (accept s).cur = s.cur := rfl
@[simp] theorem accept_rem (s : State) : (accept s).rem = s.rem := rfl
@[simp] theorem accept_rp (s : State) : (accept s).rp = s.rp := rfl
@[simp] theorem accept_ctrl (s : State) : (accept s).ctrl = s.ctrl := rfl
@[simp] theorem accept_bit (s : State) : (accept s).bit = s.bit := rfl
@[simp] theorem accept_src (s : State) : (accept s).src = s.src := rfl
@[simp] theorem accept_len (s : State) : (accept s).len = s.len := rfl
@[simp] theorem accept_k (s : State) : (accept s).k = s.k := rfl
@[simp] theorem accept_ol (s : State) : (accept s).ol = s.ol := rfl
@[simp] theorem accept_pos (s : State) : (accept s).pos = s.pos := rfl
@[simp] theorem accept_fl (s : State) : (accept s).fl = s.fl := rfl
@[simp] theorem accept_nf (s : State) : (accept s).nf = s.nf := rfl
@[simp] theorem accept_pb (s : State) : (accept s).pb = s.pb := rfl
@[simp] theorem accept_pl (s : State) : (accept s).pl = s.pl := rfl
@[simp] theorem accept_inBuf (s : State) : (accept s).inBuf = s.inBuf := rfl
@[simp] theorem accept_outBuf (s : State) : (accept s).outBuf = s.outBuf := rfl
@[simp] theorem accept_port (s : State) : (accept s).port = s.port := rfl
@[simp] theorem accept_inputs (s : State) : (accept s).inputs = s.inputs := rfl
@[simp] theorem accept_hostData (s : State) : (accept s).hostData = s.hostData := rfl
@[simp] theorem accept_portData (s : State) : (accept s).portData = s.portData := rfl
@[simp] theorem accept_resets (s : State) : (accept s).resets = s.resets := rfl
@[simp] theorem accept_epoch (s : State) : (accept s).epoch = s.epoch := rfl

/-! ### `complete` -/

@[simp] theorem complete_par (s : State) : (complete s).par = s.par := rfl
@[simp] theorem complete_status (s : State) : (complete s).status = { s.status with busy := false, done := true } := rfl
@[simp] theorem complete_hdrBe (s : State) : (complete s).hdrBe = s.hdrBe := rfl
@[simp] theorem complete_inLen (s : State) : (complete s).inLen = s.inLen := rfl
@[simp] theorem complete_start (s : State) : (complete s).start = s.start := rfl
@[simp] theorem complete_outLen (s : State) : (complete s).outLen = BitVec.ofNat 32 s.ol := rfl
@[simp] theorem complete_fsm (s : State) : (complete s).fsm = .idle := rfl
@[simp] theorem complete_win (s : State) : (complete s).win = s.win := rfl
@[simp] theorem complete_seeded (s : State) : (complete s).seeded = s.seeded := rfl
@[simp] theorem complete_cur (s : State) : (complete s).cur = s.cur := rfl
@[simp] theorem complete_rem (s : State) : (complete s).rem = s.rem := rfl
@[simp] theorem complete_rp (s : State) : (complete s).rp = s.rp := rfl
@[simp] theorem complete_ctrl (s : State) : (complete s).ctrl = s.ctrl := rfl
@[simp] theorem complete_bit (s : State) : (complete s).bit = s.bit := rfl
@[simp] theorem complete_src (s : State) : (complete s).src = s.src := rfl
@[simp] theorem complete_len (s : State) : (complete s).len = s.len := rfl
@[simp] theorem complete_k (s : State) : (complete s).k = s.k := rfl
@[simp] theorem complete_ol (s : State) : (complete s).ol = s.ol := rfl
@[simp] theorem complete_pos (s : State) : (complete s).pos = s.pos := rfl
@[simp] theorem complete_fl (s : State) : (complete s).fl = s.fl := rfl
@[simp] theorem complete_nf (s : State) : (complete s).nf = s.nf := rfl
@[simp] theorem complete_pb (s : State) : (complete s).pb = s.pb := rfl
@[simp] theorem complete_pl (s : State) : (complete s).pl = s.pl := rfl
@[simp] theorem complete_inBuf (s : State) : (complete s).inBuf = s.inBuf := rfl
@[simp] theorem complete_outBuf (s : State) : (complete s).outBuf = s.outBuf := rfl
@[simp] theorem complete_port (s : State) : (complete s).port = s.port := rfl
@[simp] theorem complete_inputs (s : State) : (complete s).inputs = s.inputs := rfl
@[simp] theorem complete_hostData (s : State) : (complete s).hostData = s.hostData := rfl
@[simp] theorem complete_portData (s : State) : (complete s).portData = s.portData := rfl
@[simp] theorem complete_resets (s : State) : (complete s).resets = s.resets := rfl
@[simp] theorem complete_epoch (s : State) : (complete s).epoch = s.epoch := rfl

/-! ### `outWrite` -/

@[simp] theorem outWrite_par (a : Nat) (b : Byte) (s : State) : (outWrite a b s).par = s.par := rfl
@[simp] theorem outWrite_status (a : Nat) (b : Byte) (s : State) : (outWrite a b s).status = s.status := rfl
@[simp] theorem outWrite_hdrBe (a : Nat) (b : Byte) (s : State) : (outWrite a b s).hdrBe = s.hdrBe := rfl
@[simp] theorem outWrite_inLen (a : Nat) (b : Byte) (s : State) : (outWrite a b s).inLen = s.inLen := rfl
@[simp] theorem outWrite_start (a : Nat) (b : Byte) (s : State) : (outWrite a b s).start = s.start := rfl
@[simp] theorem outWrite_outLen (a : Nat) (b : Byte) (s : State) : (outWrite a b s).outLen = s.outLen := rfl
@[simp] theorem outWrite_fsm (a : Nat) (b : Byte) (s : State) : (outWrite a b s).fsm = s.fsm := rfl
@[simp] theorem outWrite_win (a : Nat) (b : Byte) (s : State) : (outWrite a b s).win = s.win := rfl
@[simp] theorem outWrite_seeded (a : Nat) (b : Byte) (s : State) : (outWrite a b s).seeded = s.seeded := rfl
@[simp] theorem outWrite_cur (a : Nat) (b : Byte) (s : State) : (outWrite a b s).cur = s.cur := rfl
@[simp] theorem outWrite_rem (a : Nat) (b : Byte) (s : State) : (outWrite a b s).rem = s.rem := rfl
@[simp] theorem outWrite_rp (a : Nat) (b : Byte) (s : State) : (outWrite a b s).rp = s.rp := rfl
@[simp] theorem outWrite_ctrl (a : Nat) (b : Byte) (s : State) : (outWrite a b s).ctrl = s.ctrl := rfl
@[simp] theorem outWrite_bit (a : Nat) (b : Byte) (s : State) : (outWrite a b s).bit = s.bit := rfl
@[simp] theorem outWrite_src (a : Nat) (b : Byte) (s : State) : (outWrite a b s).src = s.src := rfl
@[simp] theorem outWrite_len (a : Nat) (b : Byte) (s : State) : (outWrite a b s).len = s.len := rfl
@[simp] theorem outWrite_k (a : Nat) (b : Byte) (s : State) : (outWrite a b s).k = s.k := rfl
@[simp] theorem outWrite_ol (a : Nat) (b : Byte) (s : State) : (outWrite a b s).ol = s.ol := rfl
@[simp] theorem outWrite_pos (a : Nat) (b : Byte) (s : State) : (outWrite a b s).pos = s.pos := rfl
@[simp] theorem outWrite_fl (a : Nat) (b : Byte) (s : State) : (outWrite a b s).fl = s.fl := rfl
@[simp] theorem outWrite_nf (a : Nat) (b : Byte) (s : State) : (outWrite a b s).nf = s.nf := rfl
@[simp] theorem outWrite_pb (a : Nat) (b : Byte) (s : State) : (outWrite a b s).pb = s.pb := rfl
@[simp] theorem outWrite_pl (a : Nat) (b : Byte) (s : State) : (outWrite a b s).pl = s.pl := rfl
@[simp] theorem outWrite_inBuf (a : Nat) (b : Byte) (s : State) : (outWrite a b s).inBuf = s.inBuf := rfl
@[simp] theorem outWrite_outBuf (a : Nat) (b : Byte) (s : State) : (outWrite a b s).outBuf = memWrite none s.outBuf a b := rfl
@[simp] theorem outWrite_port (a : Nat) (b : Byte) (s : State) : (outWrite a b s).port = s.port := rfl
@[simp] theorem outWrite_inputs (a : Nat) (b : Byte) (s : State) : (outWrite a b s).inputs = s.inputs := rfl
@[simp] theorem outWrite_hostData (a : Nat) (b : Byte) (s : State) : (outWrite a b s).hostData = s.hostData := rfl
@[simp] theorem outWrite_portData (a : Nat) (b : Byte) (s : State) : (outWrite a b s).portData = s.portData := rfl
@[simp] theorem outWrite_resets (a : Nat) (b : Byte) (s : State) : (outWrite a b s).resets = s.resets := rfl
@[simp] theorem outWrite_epoch (a : Nat) (b : Byte) (s : State) : (outWrite a b s).epoch = s.epoch := rfl

/-! ### `flagTaken` -/

@[simp] theorem flagTaken_par (s : State) : (flagTaken s).par = s.par := rfl
@[simp] theorem flagTaken_status (s : State) : (flagTaken s).status = s.status := rfl
@[simp] theorem flagTaken_hdrBe (s : State) : (flagTaken s).hdrBe = s.hdrBe := rfl
@[simp] theorem flagTaken_inLen (s : State) : (flagTaken s).inLen = s.inLen := rfl
@[simp] theorem flagTaken_start (s : State) : (flagTaken s).start = s.start := rfl
@[simp] theorem flagTaken_outLen (s : State) : (flagTaken s).outLen = s.outLen := rfl
@[simp] theorem flagTaken_fsm (s : State) : (flagTaken s).fsm = s.fsm := rfl
@[simp] theorem flagTaken_win (s : State) : (flagTaken s).win = s.win := rfl
@[simp] theorem flagTaken_seeded (s : State) : (flagTaken s).seeded = s.seeded := rfl
@[simp] theorem flagTaken_cur (s : State) : (flagTaken s).cur = s.cur := rfl
@[simp] theorem flagTaken_rem (s : State) : (flagTaken s).rem = s.rem := rfl
@[simp] theorem flagTaken_rp (s : State) : (flagTaken s).rp = s.rp := rfl
@[simp] theorem flagTaken_ctrl (s : State) : (flagTaken s).ctrl = s.ctrl := rfl
@[simp] theorem flagTaken_bit (s : State) : (flagTaken s).bit = s.bit + 1 := rfl
@[simp] theorem flagTaken_src (s : State) : (flagTaken s).src = s.src := rfl
@[simp] theorem flagTaken_len (s : State) : (flagTaken s).len = s.len := rfl
@[simp] theorem flagTaken_k (s : State) : (flagTaken s).k = s.k := rfl
@[simp] theorem flagTaken_ol (s : State) : (flagTaken s).ol = s.ol := rfl
@[simp] theorem flagTaken_pos (s : State) : (flagTaken s).pos = s.pos := rfl
@[simp] theorem flagTaken_fl (s : State) : (flagTaken s).fl = s.fl := rfl
@[simp] theorem flagTaken_nf (s : State) : (flagTaken s).nf = s.nf := rfl
@[simp] theorem flagTaken_pb (s : State) : (flagTaken s).pb = s.pb := rfl
@[simp] theorem flagTaken_pl (s : State) : (flagTaken s).pl = s.pl := rfl
@[simp] theorem flagTaken_inBuf (s : State) : (flagTaken s).inBuf = s.inBuf := rfl
@[simp] theorem flagTaken_outBuf (s : State) : (flagTaken s).outBuf = s.outBuf := rfl
@[simp] theorem flagTaken_port (s : State) : (flagTaken s).port = s.port := rfl
@[simp] theorem flagTaken_inputs (s : State) : (flagTaken s).inputs = s.inputs := rfl
@[simp] theorem flagTaken_hostData (s : State) : (flagTaken s).hostData = s.hostData := rfl
@[simp] theorem flagTaken_portData (s : State) : (flagTaken s).portData = s.portData := rfl
@[simp] theorem flagTaken_resets (s : State) : (flagTaken s).resets = s.resets := rfl
@[simp] theorem flagTaken_epoch (s : State) : (flagTaken s).epoch = s.epoch := rfl

/-! ### `groupReset` -/

@[simp] theorem groupReset_par (s : State) : (groupReset s).par = s.par := rfl
@[simp] theorem groupReset_status (s : State) : (groupReset s).status = s.status := rfl
@[simp] theorem groupReset_hdrBe (s : State) : (groupReset s).hdrBe = s.hdrBe := rfl
@[simp] theorem groupReset_inLen (s : State) : (groupReset s).inLen = s.inLen := rfl
@[simp] theorem groupReset_start (s : State) : (groupReset s).start = s.start := rfl
@[simp] theorem groupReset_outLen (s : State) : (groupReset s).outLen = s.outLen := rfl
@[simp] theorem groupReset_fsm (s : State) : (groupReset s).fsm = s.fsm := rfl
@[simp] theorem groupReset_win (s : State) : (groupReset s).win = s.win := rfl
@[simp] theorem groupReset_seeded (s : State) : (groupReset s).seeded = s.seeded := rfl
@[simp] theorem groupReset_cur (s : State) : (groupReset s).cur = s.cur := rfl
@[simp] theorem groupReset_rem (s : State) : (groupReset s).rem = s.rem := rfl
@[simp] theorem groupReset_rp (s : State) : (groupReset s).rp = s.rp := rfl
@[simp] theorem groupReset_ctrl (s : State) : (groupReset s).ctrl = s.ctrl := rfl
@[simp] theorem groupReset_bit (s : State) : (groupReset s).bit = s.bit := rfl
@[simp] theorem groupReset_src (s : State) : (groupReset s).src = s.src := rfl
@[simp] theorem groupReset_len (s : State) : (groupReset s).len = s.len := rfl
@[simp] theorem groupReset_k (s : State) : (groupReset s).k = s.k := rfl
@[simp] theorem groupReset_ol (s : State) : (groupReset s).ol = s.ol := rfl
@[simp] theorem groupReset_pos (s : State) : (groupReset s).pos = s.pos := rfl
@[simp] theorem groupReset_fl (s : State) : (groupReset s).fl = 0#8 := rfl
@[simp] theorem groupReset_nf (s : State) : (groupReset s).nf = 0 := rfl
@[simp] theorem groupReset_pb (s : State) : (groupReset s).pb = s.pb := rfl
@[simp] theorem groupReset_pl (s : State) : (groupReset s).pl = 0 := rfl
@[simp] theorem groupReset_inBuf (s : State) : (groupReset s).inBuf = s.inBuf := rfl
@[simp] theorem groupReset_outBuf (s : State) : (groupReset s).outBuf = s.outBuf := rfl
@[simp] theorem groupReset_port (s : State) : (groupReset s).port = s.port := rfl
@[simp] theorem groupReset_inputs (s : State) : (groupReset s).inputs = s.inputs := rfl
@[simp] theorem groupReset_hostData (s : State) : (groupReset s).hostData = s.hostData := rfl
@[simp] theorem groupReset_portData (s : State) : (groupReset s).portData = s.portData := rfl
@[simp] theorem groupReset_resets (s : State) : (groupReset s).resets = s.resets := rfl
@[simp] theorem groupReset_epoch (s : State) : (groupReset s).epoch = s.epoch := rfl

/-! ### `startCompress` -/

@[simp] theorem startCompress_par (s : State) : (startCompress s).par = s.par := rfl
@[simp] theorem startCompress_status (s : State) : (startCompress s).status = s.status := rfl
@[simp] theorem startCompress_hdrBe (s : State) : (startCompress s).hdrBe = s.hdrBe := rfl
@[simp] theorem startCompress_inLen (s : State) : (startCompress s).inLen = s.inLen := rfl
@[simp] theorem startCompress_start (s : State) : (startCompress s).start = s.start := rfl
@[simp] theorem startCompress_outLen (s : State) : (startCompress s).outLen = s.outLen := rfl
@[simp] theorem startCompress_fsm (s : State) : (startCompress s).fsm = .cMatch := rfl
@[simp] theorem startCompress_win (s : State) : (startCompress s).win = s.win := rfl
@[simp] theorem startCompress_seeded (s : State) : (startCompress s).seeded = s.seeded := rfl
@[simp] theorem startCompress_cur (s : State) : (startCompress s).cur = s.cur := rfl
@[simp] theorem startCompress_rem (s : State) : (startCompress s).rem = s.rem := rfl
@[simp] theorem startCompress_rp (s : State) : (startCompress s).rp = s.rp := rfl
@[simp] theorem startCompress_ctrl (s : State) : (startCompress s).ctrl = s.ctrl := rfl
@[simp] theorem startCompress_bit (s : State) : (startCompress s).bit = s.bit := rfl
@[simp] theorem startCompress_src (s : State) : (startCompress s).src = s.src := rfl
@[simp] theorem startCompress_len (s : State) : (startCompress s).len = s.len := rfl
@[simp] theorem startCompress_k (s : State) : (startCompress s).k = s.k := rfl
@[simp] theorem startCompress_ol (s : State) : (startCompress s).ol = 2 := rfl
@[simp] theorem startCompress_pos (s : State) : (startCompress s).pos = 0 := rfl
@[simp] theorem startCompress_fl (s : State) : (startCompress s).fl = 0#8 := rfl
@[simp] theorem startCompress_nf (s : State) : (startCompress s).nf = 0 := rfl
@[simp] theorem startCompress_pb (s : State) : (startCompress s).pb = s.pb := rfl
@[simp] theorem startCompress_pl (s : State) : (startCompress s).pl = 0 := rfl
@[simp] theorem startCompress_inBuf (s : State) : (startCompress s).inBuf = s.inBuf := rfl
@[simp] theorem startCompress_outBuf (s : State) : (startCompress s).outBuf = s.outBuf := rfl
@[simp] theorem startCompress_port (s : State) : (startCompress s).port = s.port := rfl
@[simp] theorem startCompress_inputs (s : State) : (startCompress s).inputs = s.inputs := rfl
@[simp] theorem startCompress_hostData (s : State) : (startCompress s).hostData = s.hostData := rfl
@[simp] theorem startCompress_portData (s : State) : (startCompress s).portData = s.portData := rfl
@[simp] theorem startCompress_resets (s : State) : (startCompress s).resets = s.resets := rfl
@[simp] theorem startCompress_epoch (s : State) : (startCompress s).epoch = s.epoch := rfl

/-! ### `hostReceives` -/

@[simp] theorem hostReceives_par (v : Word) (s : State) : (hostReceives v s).par = s.par := rfl
@[simp] theorem hostReceives_status (v : Word) (s : State) : (hostReceives v s).status = s.status := rfl
@[simp] theorem hostReceives_hdrBe (v : Word) (s : State) : (hostReceives v s).hdrBe = s.hdrBe := rfl
@[simp] theorem hostReceives_inLen (v : Word) (s : State) : (hostReceives v s).inLen = s.inLen := rfl
@[simp] theorem hostReceives_start (v : Word) (s : State) : (hostReceives v s).start = s.start := rfl
@[simp] theorem hostReceives_outLen (v : Word) (s : State) : (hostReceives v s).outLen = s.outLen := rfl
@[simp] theorem hostReceives_fsm (v : Word) (s : State) : (hostReceives v s).fsm = s.fsm := rfl
@[simp] theorem hostReceives_win (v : Word) (s : State) : (hostReceives v s).win = s.win := rfl
@[simp] theorem hostReceives_seeded (v : Word) (s : State) : (hostReceives v s).seeded = s.seeded := rfl
@[simp] theorem hostReceives_cur (v : Word) (s : State) : (hostReceives v s).cur = s.cur := rfl
@[simp] theorem hostReceives_rem (v : Word) (s : State) : (hostReceives v s).rem = s.rem := rfl
@[simp] theorem hostReceives_rp (v : Word) (s : State) : (hostReceives v s).rp = s.rp := rfl
@[simp] theorem hostReceives_ctrl (v : Word) (s : State) : (hostReceives v s).ctrl = s.ctrl := rfl
@[simp] theorem hostReceives_bit (v : Word) (s : State) : (hostReceives v s).bit = s.bit := rfl
@[simp] theorem hostReceives_src (v : Word) (s : State) : (hostReceives v s).src = s.src := rfl
@[simp] theorem hostReceives_len (v : Word) (s : State) : (hostReceives v s).len = s.len := rfl
@[simp] theorem hostReceives_k (v : Word) (s : State) : (hostReceives v s).k = s.k := rfl
@[simp] theorem hostReceives_ol (v : Word) (s : State) : (hostReceives v s).ol = s.ol := rfl
@[simp] theorem hostReceives_pos (v : Word) (s : State) : (hostReceives v s).pos = s.pos := rfl
@[simp] theorem hostReceives_fl (v : Word) (s : State) : (hostReceives v s).fl = s.fl := rfl
@[simp] theorem hostReceives_nf (v : Word) (s : State) : (hostReceives v s).nf = s.nf := rfl
@[simp] theorem hostReceives_pb (v : Word) (s : State) : (hostReceives v s).pb = s.pb := rfl
@[simp] theorem hostReceives_pl (v : Word) (s : State) : (hostReceives v s).pl = s.pl := rfl
@[simp] theorem hostReceives_inBuf (v : Word) (s : State) : (hostReceives v s).inBuf = s.inBuf := rfl
@[simp] theorem hostReceives_outBuf (v : Word) (s : State) : (hostReceives v s).outBuf = s.outBuf := rfl
@[simp] theorem hostReceives_port (v : Word) (s : State) : (hostReceives v s).port = s.port := rfl
@[simp] theorem hostReceives_inputs (v : Word) (s : State) : (hostReceives v s).inputs = s.inputs := rfl
@[simp] theorem hostReceives_hostData (v : Word) (s : State) : (hostReceives v s).hostData = v := rfl
@[simp] theorem hostReceives_portData (v : Word) (s : State) : (hostReceives v s).portData = s.portData := rfl
@[simp] theorem hostReceives_resets (v : Word) (s : State) : (hostReceives v s).resets = s.resets := rfl
@[simp] theorem hostReceives_epoch (v : Word) (s : State) : (hostReceives v s).epoch = s.epoch := rfl

/-! ### `newEpoch` -/

@[simp] theorem newEpoch_par (s : State) : (newEpoch s).par = s.par := rfl
@[simp] theorem newEpoch_status (s : State) : (newEpoch s).status = s.status := rfl
@[simp] theorem newEpoch_hdrBe (s : State) : (newEpoch s).hdrBe = s.hdrBe := rfl
@[simp] theorem newEpoch_inLen (s : State) : (newEpoch s).inLen = s.inLen := rfl
@[simp] theorem newEpoch_start (s : State) : (newEpoch s).start = s.start := rfl
@[simp] theorem newEpoch_outLen (s : State) : (newEpoch s).outLen = s.outLen := rfl
@[simp] theorem newEpoch_fsm (s : State) : (newEpoch s).fsm = s.fsm := rfl
@[simp] theorem newEpoch_win (s : State) : (newEpoch s).win = s.win := rfl
@[simp] theorem newEpoch_seeded (s : State) : (newEpoch s).seeded = s.seeded := rfl
@[simp] theorem newEpoch_cur (s : State) : (newEpoch s).cur = s.cur := rfl
@[simp] theorem newEpoch_rem (s : State) : (newEpoch s).rem = s.rem := rfl
@[simp] theorem newEpoch_rp (s : State) : (newEpoch s).rp = s.rp := rfl
@[simp] theorem newEpoch_ctrl (s : State) : (newEpoch s).ctrl = s.ctrl := rfl
@[simp] theorem newEpoch_bit (s : State) : (newEpoch s).bit = s.bit := rfl
@[simp] theorem newEpoch_src (s : State) : (newEpoch s).src = s.src := rfl
@[simp] theorem newEpoch_len (s : State) : (newEpoch s).len = s.len := rfl
@[simp] theorem newEpoch_k (s : State) : (newEpoch s).k = s.k := rfl
@[simp] theorem newEpoch_ol (s : State) : (newEpoch s).ol = s.ol := rfl
@[simp] theorem newEpoch_pos (s : State) : (newEpoch s).pos = s.pos := rfl
@[simp] theorem newEpoch_fl (s : State) : (newEpoch s).fl = s.fl := rfl
@[simp] theorem newEpoch_nf (s : State) : (newEpoch s).nf = s.nf := rfl
@[simp] theorem newEpoch_pb (s : State) : (newEpoch s).pb = s.pb := rfl
@[simp] theorem newEpoch_pl (s : State) : (newEpoch s).pl = s.pl := rfl
@[simp] theorem newEpoch_inBuf (s : State) : (newEpoch s).inBuf = s.inBuf := rfl
@[simp] theorem newEpoch_outBuf (s : State) : (newEpoch s).outBuf = s.outBuf := rfl
@[simp] theorem newEpoch_port (s : State) : (newEpoch s).port = s.port := rfl
@[simp] theorem newEpoch_inputs (s : State) : (newEpoch s).inputs = s.inputs := rfl
@[simp] theorem newEpoch_hostData (s : State) : (newEpoch s).hostData = s.hostData := rfl
@[simp] theorem newEpoch_portData (s : State) : (newEpoch s).portData = s.portData := rfl
@[simp] theorem newEpoch_resets (s : State) : (newEpoch s).resets = s.resets := rfl
@[simp] theorem newEpoch_epoch (s : State) : (newEpoch s).epoch = s.epoch + 1 := rfl

/-! ### `dropInput` -/

@[simp] theorem dropInput_par (s : State) : (dropInput s).par = s.par := rfl
@[simp] theorem dropInput_status (s : State) : (dropInput s).status = s.status := rfl
@[simp] theorem dropInput_hdrBe (s : State) : (dropInput s).hdrBe = s.hdrBe := rfl
@[simp] theorem dropInput_inLen (s : State) : (dropInput s).inLen = s.inLen := rfl
@[simp] theorem dropInput_start (s : State) : (dropInput s).start = s.start := rfl
@[simp] theorem dropInput_outLen (s : State) : (dropInput s).outLen = s.outLen := rfl
@[simp] theorem dropInput_fsm (s : State) : (dropInput s).fsm = s.fsm := rfl
@[simp] theorem dropInput_win (s : State) : (dropInput s).win = s.win := rfl
@[simp] theorem dropInput_seeded (s : State) : (dropInput s).seeded = s.seeded := rfl
@[simp] theorem dropInput_cur (s : State) : (dropInput s).cur = s.cur := rfl
@[simp] theorem dropInput_rem (s : State) : (dropInput s).rem = s.rem := rfl
@[simp] theorem dropInput_rp (s : State) : (dropInput s).rp = s.rp := rfl
@[simp] theorem dropInput_ctrl (s : State) : (dropInput s).ctrl = s.ctrl := rfl
@[simp] theorem dropInput_bit (s : State) : (dropInput s).bit = s.bit := rfl
@[simp] theorem dropInput_src (s : State) : (dropInput s).src = s.src := rfl
@[simp] theorem dropInput_len (s : State) : (dropInput s).len = s.len := rfl
@[simp] theorem dropInput_k (s : State) : (dropInput s).k = s.k := rfl
@[simp] theorem dropInput_ol (s : State) : (dropInput s).ol = s.ol := rfl
@[simp] theorem dropInput_pos (s : State) : (dropInput s).pos = s.pos := rfl
@[simp] theorem dropInput_fl (s : State) : (dropInput s).fl = s.fl := rfl
@[simp] theorem dropInput_nf (s : State) : (dropInput s).nf = s.nf := rfl
@[simp] theorem dropInput_pb (s : State) : (dropInput s).pb = s.pb := rfl
@[simp] theorem dropInput_pl (s : State) : (dropInput s).pl = s.pl := rfl
@[simp] theorem dropInput_inBuf (s : State) : (dropInput s).inBuf = s.inBuf := rfl
@[simp] theorem dropInput_outBuf (s : State) : (dropInput s).outBuf = s.outBuf := rfl
@[simp] theorem dropInput_port (s : State) : (dropInput s).port = s.port := rfl
@[simp] theorem dropInput_inputs (s : State) : (dropInput s).inputs = s.inputs.tail := rfl
@[simp] theorem dropInput_hostData (s : State) : (dropInput s).hostData = s.hostData := rfl
@[simp] theorem dropInput_portData (s : State) : (dropInput s).portData = s.portData := rfl
@[simp] theorem dropInput_resets (s : State) : (dropInput s).resets = s.resets := rfl
@[simp] theorem dropInput_epoch (s : State) : (dropInput s).epoch = s.epoch := rfl

end Sys2Proof.Machine
end

