-- ==== Sys2Proof/Laws/Ops.lean ====
section
/-! SUPPORT. What the shared operations do: reading a memory after a write, the canonical form, the window, and the two
output operations. Later proofs cite these and unfold none of the operations. -/

namespace Sys2Proof.Machine

/-! ### Memories -/

theorem memLookup_insert (m : Memory) (a : Nat) (b : Byte) (x : Nat) :
    memLookup (memInsert m a b) x = if x = a then some b else memLookup m x := by
  induction m with
  | nil => simp [memInsert, memLookup, eq_comm]
  | cons c m ih =>
    obtain ⟨a', b'⟩ := c
    simp only [memInsert]
    split
    · simp only [memLookup]; split <;> simp_all [eq_comm]
    · split
      · simp only [memLookup]; split <;> simp_all [eq_comm]
      · simp only [memLookup, ih]; split <;> split <;> simp_all

theorem memLookup_erase (m : Memory) (a x : Nat) :
    memLookup (memErase m a) x = if x = a then none else memLookup m x := by
  induction m with
  | nil => simp [memErase, memLookup]
  | cons c m ih =>
    obtain ⟨a', b'⟩ := c
    simp only [memErase] at ih
    by_cases h : a' = a
    · simp only [memErase, List.filter_cons, h, bne_self_eq_false, Bool.false_eq_true, if_false, ih, memLookup]
      split <;> simp_all [eq_comm]
    · simp only [memErase, List.filter_cons, bne_iff_ne, ne_eq, h, not_false_eq_true, if_true, memLookup, ih]
      split <;> split <;> simp_all

/-- A read after a write: the byte written at its address, and every other address as before. -/
@[simp] theorem memRead_write (dflt : Option Byte) (m : Memory) (a : Nat) (b : Byte) (x : Nat) :
    memRead dflt (memWrite dflt m a b) x = if x = a then some b else memRead dflt m x := by
  unfold memRead memWrite
  split
  · rw [memLookup_erase]; split <;> simp_all
  · rw [memLookup_insert]; split <;> simp_all

@[simp] theorem memRead_nil (dflt : Option Byte) (x : Nat) : memRead dflt [] x = dflt := by
  simp [memRead, memLookup]

theorem memRead_none (m : Memory) (x : Nat) : memRead none m x = memLookup m x := by
  simp [memRead]

@[simp] theorem memLookup_write (m : Memory) (a : Nat) (b : Byte) (x : Nat) :
    memLookup (memWrite none m a b) x = if x = a then some b else memLookup m x := by
  simp [memWrite, memLookup_insert]

theorem mem_insert {m : Memory} {a : Nat} {b : Byte} {c : Host.Cell} (h : c ∈ memInsert m a b) :
    c = (a, b) ∨ c ∈ m := by
  induction m with
  | nil => simpa [memInsert] using h
  | cons d m ih =>
    obtain ⟨a', b'⟩ := d
    simp only [memInsert] at h
    split at h
    · simpa using h
    · split at h
      · simp only [List.mem_cons] at h ⊢; tauto
      · simp only [List.mem_cons] at h ⊢
        rcases h with h | h
        · exact .inr (.inl h)
        · rcases ih h with h | h <;> tauto

/-- Writing keeps the canonical form. -/
theorem wf_write {dflt : Option Byte} {cap : Nat} {m : Memory} (h : Memory.wf dflt cap m) {a : Nat} (b : Byte)
    (ha : a < cap) : Memory.wf dflt cap (memWrite dflt m a b) := by
  obtain ⟨hs, hc⟩ := h
  unfold memWrite
  split
  · exact ⟨hs.filter _, fun c hm => hc c (List.mem_of_mem_filter hm)⟩
  · rename_i hne
    refine ⟨?_, fun c hm => ?_⟩
    · clear hc
      induction m with
      | nil => simp [memInsert]
      | cons d m ih =>
        obtain ⟨a', b'⟩ := d
        rw [List.pairwise_cons] at hs
        simp only [memInsert]
        split
        · rename_i hlt
          refine List.pairwise_cons.2 ⟨fun c hm => ?_, List.pairwise_cons.2 hs⟩
          rcases List.mem_cons.1 hm with rfl | hm
          · exact hlt
          · exact Nat.lt_trans hlt (hs.1 c hm)
        · split
          · rename_i heq; subst heq
            exact List.pairwise_cons.2 ⟨hs.1, hs.2⟩
          · rename_i hlt hne'
            refine List.pairwise_cons.2 ⟨fun c hm => ?_, ih hs.2⟩
            rcases mem_insert hm with rfl | hm
            · show a' < a; omega
            · exact hs.1 c hm
    · rcases mem_insert hm with rfl | hm
      · exact ⟨ha, hne⟩
      · exact hc c hm

theorem wf_nil (dflt : Option Byte) (cap : Nat) : Memory.wf dflt cap [] := by
  simp [Memory.wf]

/-! ### The window -/

theorem winIndex_lt (i : Int) : winIndex i < windowSize := by
  unfold winIndex windowSize; omega

@[simp] theorem winIndex_toNat (v : BitVec 12) : winIndex v.toNat = v.toNat := by
  have := v.isLt
  unfold winIndex; omega

@[simp] theorem winByte_append (b : Byte) (s : State) (i : Nat) :
    winByte (winAppend b s) i = if i = s.cur.toNat then b else winByte s i := by
  have h : winDefault (winAppend b s) = winDefault s := rfl
  simp only [winByte, h, winAppend_win, winAppend_resets, memRead_write]
  split <;> simp

@[simp] theorem winByte_set (j : Int) (b : Byte) (s : State) (i : Nat) :
    winByte (winSet j b s) i = if i = winIndex j then b else winByte s i := by
  have h : winDefault (winSet j b s) = winDefault s := rfl
  simp only [winByte, h, winSet_win, winSet_resets, memRead_write]
  split <;> simp

@[simp] theorem winByte_seed (s : State) (i : Nat) : winByte (seed s) i = s.par.seedByte := by
  simp [winByte, winDefault]

/-- The bytes of the window are those of its memory, its seeding, the seed byte and the resets. -/
theorem winByte_congr {s t : State} (hw : s.win = t.win) (hs : s.seeded = t.seeded) (hp : s.par = t.par)
    (hr : s.resets = t.resets) : winByte s = winByte t := by
  funext i; simp [winByte, winDefault, hw, hs, hp, hr]

@[simp] theorem winByte_outWrite (a : Nat) (b : Byte) (s : State) : winByte (outWrite a b s) = winByte s := rfl

/-! ### Flow -/

@[simp] theorem andThen_goes (s : State) (rest : State → Flow) : (Flow.goes s).andThen rest = rest s := rfl
@[simp] theorem andThen_ended (s : State) (rest : State → Flow) : (Flow.ended s).andThen rest = .ended s := rfl
@[simp] theorem final_goes (s : State) : (Flow.goes s).final = s := rfl
@[simp] theorem final_ended (s : State) : (Flow.ended s).final = s := rfl
@[simp] theorem outcome_goes (s : State) : (Flow.goes s).outcome = .next s := rfl
@[simp] theorem outcome_ended (s : State) : (Flow.ended s).outcome = .next s := rfl

/-- A step made of flows always answers a next state. -/
theorem outcome_next (f : Flow) : f.outcome = .next f.final := rfl

theorem onCmdWrite_idle {s : State} (h : s.status.busy = false) (effect : State → Flow) :
    onCmdWrite s effect = .next (effect s).final := by
  simp [onCmdWrite, h, outcome_next]

theorem onCmdWrite_busy {s : State} (h : s.status.busy = true) (effect : State → Flow) :
    onCmdWrite s effect = .refused .cmdWhileBusy := by
  simp [onCmdWrite, h]

/-! ### Output -/

/-- What `Emit` goes on with. -/
def emitted (b : Byte) (s : State) : State := winAppend b { outWrite s.ol b s with ol := s.ol + 1 }

theorem emit_cases (b : Byte) (s : State) :
    (s.par.outCap ≤ s.ol ∧ emit b s = .ended (raiseFault .outOverflow s)) ∨
      (s.ol < s.par.outCap ∧ emit b s = .goes (emitted b s)) := by
  unfold emit emitted
  split
  · exact .inl ⟨by assumption, rfl⟩
  · exact .inr ⟨by omega, rfl⟩

/-- What `OutByte` goes on with. -/
def outByteWritten (x : Byte) (s : State) : State := { outWrite s.ol x s with ol := s.ol + 1 }

theorem outByte_cases (x : Byte) (s : State) :
    (65537 ≤ s.ol ∧ outByte x s = .ended (raiseFault .sizeOverflow s)) ∨
      (s.ol < 65537 ∧ s.par.outCap ≤ s.ol ∧ outByte x s = .ended (raiseFault .outOverflow s)) ∨
      (s.ol < 65537 ∧ s.ol < s.par.outCap ∧ outByte x s = .goes (outByteWritten x s)) := by
  unfold outByte outByteWritten
  split
  · exact .inl ⟨by omega, rfl⟩
  · split
    · exact .inr (.inl ⟨by omega, by assumption, rfl⟩)
    · exact .inr (.inr ⟨by omega, by omega, rfl⟩)

/-- The state after `OutByte` of several bytes with no fault. -/
def bytesWritten : List Byte → State → State
  | [], s => s
  | x :: xs, s => bytesWritten xs (outByteWritten x s)

/-- `bytesWritten` changes OUT and OL only. -/
theorem bytesWritten_frame (xs : List Byte) (s : State) :
    bytesWritten xs s = { s with outBuf := (bytesWritten xs s).outBuf, ol := s.ol + xs.length } := by
  induction xs generalizing s with
  | nil => rfl
  | cons x xs ih =>
    rw [bytesWritten, ih]
    simp [outByteWritten, outWrite, Nat.add_assoc, Nat.add_comm 1]

theorem bytesWritten_lookup (xs : List Byte) (s : State) (a : Nat) :
    memLookup (bytesWritten xs s).outBuf a =
      if s.ol ≤ a ∧ a < s.ol + xs.length then xs[a - s.ol]? else memLookup s.outBuf a := by
  induction xs generalizing s with
  | nil => simp [bytesWritten]
  | cons x xs ih =>
    rw [bytesWritten, ih]
    simp only [outByteWritten, outWrite_outBuf, memLookup_write, List.length_cons]
    rcases Nat.lt_trichotomy a s.ol with h | h | h
    · rw [if_neg (by omega), if_neg (by omega), if_neg (by omega)]
    · subst h; rw [if_neg (by omega), if_pos rfl, if_pos (by omega)]; simp
    · by_cases h2 : a < s.ol + (xs.length + 1)
      · rw [if_pos (by omega), if_pos (by omega)]
        rw [show a - s.ol = (a - (s.ol + 1)) + 1 by omega]; simp
      · rw [if_neg (by omega), if_neg (by omega), if_neg (by omega)]

/-- Byte number `n` of a row written from `s` on is the one that does not fit, and this is the fault it raises. -/
def StopsAt (s : State) (n : Nat) (code : FaultCode) : Prop :=
  (65537 ≤ s.ol + n ∧ code = .sizeOverflow) ∨
    (s.ol + n < 65537 ∧ s.par.outCap ≤ s.ol + n ∧ code = .outOverflow)

/-- `OutByte` of several bytes: all are written, or the first that does not fit raises its fault. -/
theorem outBytes_cases (xs : List Byte) (s : State) :
    (outBytes xs s = .goes (bytesWritten xs s) ∧
        ∀ j < xs.length, s.ol + j < 65537 ∧ s.ol + j < s.par.outCap) ∨
      ∃ n < xs.length, ∃ code, StopsAt s n code ∧ (∀ j < n, s.ol + j < 65537 ∧ s.ol + j < s.par.outCap) ∧
        outBytes xs s = .ended (raiseFault code (bytesWritten (xs.take n) s)) := by
  induction xs generalizing s with
  | nil => exact .inl ⟨rfl, fun j h => absurd h (Nat.not_lt_zero _)⟩
  | cons x xs ih =>
    have e1 : (outByteWritten x s).ol = s.ol + 1 := rfl
    have e2 : (outByteWritten x s).par = s.par := rfl
    rw [outBytes]
    obtain ⟨h1, h⟩ | ⟨h1, h2, h⟩ | ⟨h1, h2, h⟩ := outByte_cases x s
    · exact .inr ⟨0, by simp, _, .inl ⟨h1, rfl⟩, by simp, by simp [h, bytesWritten]⟩
    · exact .inr ⟨0, by simp, _, .inr ⟨h1, h2, rfl⟩, by simp, by simp [h, bytesWritten]⟩
    · rw [h, andThen_goes]
      obtain ⟨h', hj⟩ | ⟨n, hn, code, hc, hj, h'⟩ := ih (outByteWritten x s)
      · refine .inl ⟨h', fun j hlt => ?_⟩
        cases j with
        | zero => exact ⟨h1, h2⟩
        | succ j =>
          have := hj j (by simpa using hlt)
          rw [e1, e2] at this
          omega
      · refine .inr ⟨n + 1, by simpa using hn, code, ?_, fun j hlt => ?_, by simpa [bytesWritten] using h'⟩
        · unfold StopsAt at hc ⊢
          rw [e1, e2] at hc
          rcases hc with hc | hc
          · exact .inl ⟨by omega, hc.2⟩
          · exact .inr ⟨by omega, by omega, hc.2.2⟩
        · cases j with
          | zero => exact ⟨h1, h2⟩
          | succ j =>
            have := hj j (by omega)
            rw [e1, e2] at this
            omega

/-- Writing a row of bytes that fits keeps the canonical form of OUT. -/
theorem bytesWritten_wf (xs : List Byte) (s : State) (h : Memory.wf none s.par.outCap s.outBuf)
    (fits : ∀ j < xs.length, s.ol + j < s.par.outCap) : Memory.wf none s.par.outCap (bytesWritten xs s).outBuf := by
  induction xs generalizing s with
  | nil => exact h
  | cons x xs ih =>
    refine ih (outByteWritten x s) (wf_write h _ (fits 0 (by simp))) fun j hj => ?_
    have := fits (j + 1) (by simpa using hj)
    show s.ol + 1 + j < s.par.outCap
    omega

end Sys2Proof.Machine
end

