-- ==== Sys2Proof/Laws/Engine.lean ====
section
/-! SUPPORT. What an engine step can do, said once: one case per branch of the FSM's rules (R301). Claims about engine steps
start from `engineStep_cases`. -/

namespace Sys2Proof.Machine

/-- The state the CTRL token leaves (R179). -/
def ctrlTaken (s : State) : State :=
  { s with ctrl := inByte s s.rp, rp := s.rp + 1, rem := s.rem - 1#16, bit := 0, fsm := .dUnit }

/-- The state in which the LIT token emits its byte (R180, R183). -/
def litTaken (s : State) : State := { s with bit := s.bit + 1, rp := s.rp + 1, rem := s.rem - 1#16 }

/-- The state the BREF token leaves (R180, R185). -/
def brefTaken (s : State) : State :=
  { s with
    bit := s.bit + 1
    rp := s.rp + 2
    rem := s.rem - 2#16
    src := (inByte s s.rp).setWidth 12 ||| (((inByte s (s.rp + 1)).setWidth 12 <<< 4) &&& 0xF00#12)
    len := (inByte s (s.rp + 1) &&& 0x0F#8).toNat + 3
    k := 0
    fsm := .dCopy }

/-- The byte a D_COPY step copies (R186). -/
def copyByte (s : State) : Byte := winGet (s.src.toNat + s.k : Nat) s

/-- The state a D_COPY step leaves (R186). -/
def copied (s : State) : State :=
  { emitted (copyByte s) s with k := s.k + 1, fsm := if s.k + 1 = s.len then .dUnit else s.fsm }

/-- The state a decision step leaves (R214). -/
def decided (s : State) : State :=
  { decision s with fsm := if (decision s).nf = 8 then .cFlush else (decision s).fsm }

/-- The state a flush without a fault leaves (R219). -/
def flushed (s : State) : State := { groupReset (bytesWritten (groupBytes s) s) with fsm := .cMatch }

/-- The state C_PATCH leaves (R222). -/
def patched (s : State) : State :=
  complete (outWrite 1 (headerBytes s.hdrBe (BitVec.ofNat 16 (s.ol - 2))).2
    (outWrite 0 (headerBytes s.hdrBe (BitVec.ofNat 16 (s.ol - 2))).1 s))

/-- What an engine step from `s` to `t` did. -/
inductive EngineMove (s : State) : State → Prop where
  | rest (f : s.fsm = .idle) : EngineMove s s
  | complete (f : s.fsm = .dCtrl ∨ s.fsm = .dUnit) (r : s.rem = 0#16) : EngineMove s (complete s)
  | ctrl (f : s.fsm = .dCtrl) (r : s.rem ≠ 0#16) (a : s.rp + 1 ≤ s.par.inCap) : EngineMove s (ctrlTaken s)
  | groupEnd (f : s.fsm = .dUnit) (r : s.rem ≠ 0#16) (b : s.bit = 8) : EngineMove s { s with fsm := .dCtrl }
  | lit (f : s.fsm = .dUnit) (r : s.rem ≠ 0#16) (b : s.bit ≠ 8) (g : nextFlag s = true)
      (a : s.rp + 1 ≤ s.par.inCap) (o : s.ol < s.par.outCap) : EngineMove s (emitted (inByte s s.rp) (litTaken s))
  | litFull (f : s.fsm = .dUnit) (r : s.rem ≠ 0#16) (b : s.bit ≠ 8) (g : nextFlag s = true)
      (a : s.rp + 1 ≤ s.par.inCap) (o : s.par.outCap ≤ s.ol) : EngineMove s (raiseFault .outOverflow (litTaken s))
  | brefCut (f : s.fsm = .dUnit) (r : s.rem ≠ 0#16) (b : s.bit ≠ 8) (g : nextFlag s = false)
      (c : s.rem.toNat < 2) : EngineMove s (raiseFault .descTrunc (flagTaken s))
  | bref (f : s.fsm = .dUnit) (r : s.rem ≠ 0#16) (b : s.bit ≠ 8) (g : nextFlag s = false)
      (c : 2 ≤ s.rem.toNat) (a : s.rp + 2 ≤ s.par.inCap) : EngineMove s (brefTaken s)
  | copy (f : s.fsm = .dCopy) (o : s.ol < s.par.outCap) : EngineMove s (copied s)
  | copyFull (f : s.fsm = .dCopy) (o : s.par.outCap ≤ s.ol) : EngineMove s (raiseFault .outOverflow s)
  | inputEnd (f : s.fsm = .cMatch) (a : s.inLen.toNat ≤ s.par.inCap) (p : s.pos = s.inLen.toNat) :
      EngineMove s { s with fsm := if 0 < s.nf then .cFlush else .cPatch }
  | decide (f : s.fsm = .cMatch) (a : s.inLen.toNat ≤ s.par.inCap) (p : s.pos < s.inLen.toNat) :
      EngineMove s (decided s)
  | flush (f : s.fsm = .cFlush)
      (fits : ∀ j < (groupBytes s).length, s.ol + j < 65537 ∧ s.ol + j < s.par.outCap) : EngineMove s (flushed s)
  | flushFull (f : s.fsm = .cFlush) (n : Nat) (h : n < (groupBytes s).length) (code : FaultCode)
      (c : StopsAt s n code) (fits : ∀ j < n, s.ol + j < 65537 ∧ s.ol + j < s.par.outCap) :
      EngineMove s (raiseFault code (bytesWritten ((groupBytes s).take n) s))
  | patch (f : s.fsm = .cPatch) (o : 2 ≤ s.par.outCap) : EngineMove s (patched s)

theorem litToken_run {s : State} (r : s.rem ≠ 0#16) :
    execLit (inByte s s.rp) (flagTaken s) = (emit (inByte s s.rp) (litTaken s)).outcome := by
  simp [execLit, r, litTaken, flagTaken]

/-- Everything an engine step can do. -/
theorem engineStep_cases {s t : State} (h : engineStep s = .next t) : EngineMove s t := by
  unfold engineStep at h
  split at h <;> rename_i f
  · cases h; exact .rest f
  · unfold ctrlStep at h
    split at h <;> rename_i r
    · cases h; exact .complete (.inl f) r
    · unfold runToken at h
      split at h <;> rename_i a
      · simp only [controlToken, decodeControl, exec, execCtrl, r, if_false] at h
        cases h; exact .ctrl f r a
      · cases h
  · unfold unitStep at h
    split at h <;> rename_i r
    · cases h; exact .complete (.inr f) r
    · split at h <;> rename_i b
      · cases h; exact .groupEnd f r b
      · split at h <;> rename_i g
        · unfold runToken at h
          split at h <;> rename_i a
          · have e : exec (literalToken (flagTaken s)) (flagTaken s) = (emit (inByte s s.rp) (litTaken s)).outcome :=
              litToken_run r
            rw [e] at h
            obtain ⟨o, e⟩ | ⟨o, e⟩ := emit_cases (inByte s s.rp) (litTaken s)
            · rw [e] at h; cases h; exact .litFull f r b g a o
            · rw [e] at h; cases h; exact .lit f r b g a o
          · cases h
        · simp only [Bool.not_eq_true] at g
          split at h <;> rename_i c
          · cases h; exact .brefCut f r b g c
          · unfold runToken at h
            split at h <;> rename_i a
            · have e : exec (backrefToken (flagTaken s)) (flagTaken s) = .next (brefTaken s) := by
                simp only [backrefToken, decodeBackref, exec, execBref, flagTaken_rem, c, if_false]; rfl
              rw [e] at h; cases h; exact .bref f r b g (by omega) a
            · cases h
  · unfold copyStep at h
    obtain ⟨o, e⟩ | ⟨o, e⟩ := emit_cases (copyByte s) s
    · rw [show winGet (s.src.toNat + s.k : Nat) s = copyByte s from rfl, e] at h
      cases h; exact .copyFull f o
    · rw [show winGet (s.src.toNat + s.k : Nat) s = copyByte s from rfl, e] at h
      cases h; exact .copy f o
  · unfold matchStep at h
    split at h <;> rename_i a
    · cases h
    · simp only [not_or, Nat.not_lt] at a
      split at h <;> rename_i p
      · cases h; exact .inputEnd f a.1 p
      · cases h; exact .decide f a.1 (by omega)
  · unfold flushStep at h
    obtain ⟨e, fits⟩ | ⟨n, hn, code, c, fits, e⟩ := outBytes_cases (groupBytes s) s
    · rw [e] at h; cases h; exact .flush f fits
    · rw [e] at h; cases h; exact .flushFull f n hn code c fits
  · unfold patchStep at h
    split at h
    · cases h
    · cases h; exact .patch f (by omega)

/-- An engine step always goes on: the model's own stops need a state outside the invariant. -/
theorem engineStep_next {s : State} (hc : s.fsm = .dCtrl → s.rem ≠ 0#16 → s.rp + 1 ≤ s.par.inCap)
    (hu : s.fsm = .dUnit → s.rem ≠ 0#16 → s.rp + min 2 s.rem.toNat ≤ s.par.inCap)
    (hm : s.fsm = .cMatch → s.pos ≤ s.inLen.toNat ∧ s.inLen.toNat ≤ s.par.inCap) (hp : 2 ≤ s.par.outCap) :
    ∃ t, engineStep s = .next t := by
  unfold engineStep
  split <;> rename_i f
  · exact ⟨_, rfl⟩
  · unfold ctrlStep
    split <;> rename_i r
    · exact ⟨_, rfl⟩
    · refine ⟨ctrlTaken s, ?_⟩
      rw [runToken, if_pos (hc f r)]
      simp only [controlToken, decodeControl, exec, execCtrl, r, if_false]; rfl
  · unfold unitStep
    split <;> rename_i r
    · exact ⟨_, rfl⟩
    · have h0 : s.rem.toNat ≠ 0 := fun e => r (BitVec.eq_of_toNat_eq e)
      have hu' := hu f r
      split
      · exact ⟨_, rfl⟩
      · split
        · rw [runToken, if_pos (by show s.rp + 1 ≤ s.par.inCap; omega)]
          exact ⟨_, litToken_run r⟩
        · split <;> rename_i c
          · exact ⟨_, rfl⟩
          · rw [runToken, if_pos (by show s.rp + 2 ≤ s.par.inCap; omega)]
            refine ⟨brefTaken s, ?_⟩
            simp only [backrefToken, decodeBackref, exec, execBref, flagTaken_rem, c, if_false]; rfl
  · exact ⟨_, rfl⟩
  · unfold matchStep
    have := hm f
    rw [if_neg (by omega)]
    split <;> exact ⟨_, rfl⟩
  · exact ⟨_, rfl⟩
  · unfold patchStep
    rw [if_neg (by omega)]
    exact ⟨_, rfl⟩

end Sys2Proof.Machine
end

