-- ==== Sys2Proof/Laws/Flags.lean ====
section
/-! SUPPORT. What the bit-flag operations and a row of window appends do to the state. -/

namespace Sys2Proof.Machine

/-- `addPayload` changes PB and PL only. -/
theorem addPayload_frame (xs : List Byte) (s : State) :
    addPayload xs s = { s with pb := (addPayload xs s).pb, pl := s.pl + xs.length } := by
  induction xs generalizing s with
  | nil => rfl
  | cons x xs ih => rw [addPayload, ih]; simp [Nat.add_assoc, Nat.add_comm 1]

/-- The payload stands after what PB held up to PL. -/
theorem addPayload_bytes (xs : List Byte) (s : State) (h : s.pl + xs.length ≤ 16) :
    (addPayload xs s).pb.toList.take (s.pl + xs.length) = s.pb.toList.take s.pl ++ xs := by
  induction xs generalizing s with
  | nil => simp [addPayload]
  | cons x xs ih =>
    rw [List.length_cons] at h
    have hp : s.pl < s.pb.toList.length := by simp; omega
    have e : (s.pb.setIfInBounds s.pl x).toList.take (s.pl + 1) = s.pb.toList.take s.pl ++ [x] := by
      rw [Vector.toList_setIfInBounds, List.take_add_one, List.take_set_of_le (Nat.le_refl _),
        List.getElem?_set_self hp]
      rfl
    rw [addPayload, List.length_cons, Nat.add_comm xs.length 1, ← Nat.add_assoc,
      ih { s with pb := s.pb.setIfInBounds s.pl x, pl := s.pl + 1 } (by show s.pl + 1 + xs.length ≤ 16; omega)]
    show (s.pb.setIfInBounds s.pl x).toList.take (s.pl + 1) ++ xs = _
    rw [e, List.append_assoc]; rfl

/-- PB below PL does not change. -/
theorem addPayload_below (xs : List Byte) (s : State) (j : Nat) (h : j < s.pl) :
    (addPayload xs s).pb[j]? = s.pb[j]? := by
  induction xs generalizing s with
  | nil => rfl
  | cons x xs ih =>
    rw [addPayload, ih _ (by show j < s.pl + 1; omega)]
    simp only [Vector.getElem?_setIfInBounds]
    rw [if_neg (by omega)]

/-- `addDecision` changes FL, NF, PB and PL only. -/
theorem addDecision_frame (f : Bool) (xs : List Byte) (s : State) :
    addDecision f xs s =
      { s with
        fl := s.fl ||| ((BitVec.ofBool f).setWidth 8 <<< s.nf)
        nf := s.nf + 1
        pb := (addPayload xs s).pb
        pl := s.pl + xs.length } := by
  have key : ∀ (xs : List Byte) (s : State) (v : Byte),
      (addPayload xs { s with fl := v }).pb = (addPayload xs s).pb := by
    intro xs
    induction xs with
    | nil => intro s v; rfl
    | cons x xs ih => intro s v; exact ih { s with pb := s.pb.setIfInBounds s.pl x, pl := s.pl + 1 } v
  unfold addDecision
  dsimp only
  rw [addPayload_frame, key]

/-- A decision's flag lands at bit NF, and no other flag changes. -/
theorem addFlag_bit (fl : Byte) (f : Bool) (nf j : Nat) :
    (fl ||| ((BitVec.ofBool f).setWidth 8 <<< nf)).getLsbD j =
      (fl.getLsbD j || (decide (j < 8) && decide (j = nf) && f)) := by
  simp only [BitVec.getLsbD_or, BitVec.getLsbD_shiftLeft, BitVec.getLsbD_setWidth]
  by_cases h8 : j < 8
  · rcases Nat.lt_trichotomy j nf with h | h | h
    · simp [h8, h]; omega
    · subst h; simp [h8]
    · have h0 : ¬ j < nf := by omega
      have h1 : j ≠ nf := by omega
      have h2 : (BitVec.ofBool f).getLsbD (j - nf) = false := BitVec.getLsbD_of_ge _ _ (by omega)
      simp [h1, h2]
  · simp [h8]

theorem addFlag_lit (fl : Byte) (f : Bool) (nf : Nat) (h : fl.toNat < 2 ^ nf) :
    (fl ||| ((BitVec.ofBool f).setWidth 8 <<< nf)).toNat < 2 ^ (nf + 1) := by
  rw [BitVec.toNat_or]
  apply Nat.or_lt_two_pow (Nat.lt_trans h (Nat.pow_lt_pow_right (by omega) (by omega)))
  rw [BitVec.toNat_shiftLeft, BitVec.toNat_setWidth, Nat.shiftLeft_eq]
  have hf : (BitVec.ofBool f).toNat ≤ 1 := by cases f <;> simp
  have h1 : (BitVec.ofBool f).toNat % 2 ^ 8 = (BitVec.ofBool f).toNat := Nat.mod_eq_of_lt (by omega)
  have h2 : (BitVec.ofBool f).toNat * 2 ^ nf ≤ 1 * 2 ^ nf := Nat.mul_le_mul_right _ hf
  have h3 : 2 ^ (nf + 1) = 2 * 2 ^ nf := by rw [Nat.pow_succ]; omega
  have h4 : 0 < 2 ^ nf := Nat.two_pow_pos nf
  have h5 := Nat.mod_le ((BitVec.ofBool f).toNat % 2 ^ 8 * 2 ^ nf) (2 ^ 8)
  rw [h1] at h5 ⊢
  omega

/-- A row of window appends changes WIN and CUR only. -/
theorem winAppendAll_frame (bs : List Byte) (s : State) :
    winAppendAll bs s = { s with win := (winAppendAll bs s).win, cur := s.cur + BitVec.ofNat 12 bs.length } := by
  induction bs generalizing s with
  | nil => simp [winAppendAll]
  | cons b bs ih =>
    rw [winAppendAll, ih]
    simp only [winAppend, List.length_cons, State.mk.injEq, true_and, and_true]
    apply BitVec.eq_of_toNat_eq
    simp only [BitVec.toNat_add, BitVec.toNat_ofNat]
    omega

/-- The canonical form of WIN survives a row of appends. -/
theorem winAppendAll_wf (bs : List Byte) (s : State) (h : Memory.wf (winDefault s) windowSize s.win) :
    Memory.wf (winDefault s) windowSize (winAppendAll bs s).win := by
  induction bs generalizing s with
  | nil => exact h
  | cons b bs ih => exact ih (winAppend b s) (wf_write h b s.cur.isLt)

theorem winAppendAll_append (bs cs : List Byte) (s : State) :
    winAppendAll (bs ++ cs) s = winAppendAll cs (winAppendAll bs s) := by
  induction bs generalizing s with
  | nil => rfl
  | cons b bs ih => exact ih (winAppend b s)

theorem winAppendAll_cur (bs : List Byte) (s : State) :
    (winAppendAll bs s).cur = s.cur + BitVec.ofNat 12 bs.length := by
  rw [winAppendAll_frame]

/-- After up to 4096 appends an index holds the byte appended there, else what it held. -/
theorem winByte_appendAll (bs : List Byte) (s : State) (i : Nat) (hl : bs.length ≤ 4096) (hi : i < 4096) :
    winByte (winAppendAll bs s) i = (bs[(i + 4096 - s.cur.toNat) % 4096]?).getD (winByte s i) := by
  induction bs using List.reverseRecOn generalizing s with
  | nil => simp [winAppendAll]
  | append_singleton bs b ih =>
    rw [List.length_append, List.length_singleton] at hl
    have hc := s.cur.isLt
    rw [winAppendAll_append]
    show winByte (winAppend b (winAppendAll bs s)) i = _
    rw [winByte_append, winAppendAll_cur, ih s (by omega), List.getElem?_append]
    have e : (s.cur + BitVec.ofNat 12 bs.length).toNat = (s.cur.toNat + bs.length) % 4096 := by
      simp [BitVec.toNat_add]
    rw [e]
    by_cases h : i = (s.cur.toNat + bs.length) % 4096
    · have : (i + 4096 - s.cur.toNat) % 4096 = bs.length := by omega
      rw [if_pos h, this, if_neg (by omega)]; simp
    · rw [if_neg h]
      have hne : (i + 4096 - s.cur.toNat) % 4096 ≠ bs.length := by omega
      split
      · rfl
      · rename_i hn
        obtain ⟨q, hq⟩ := Nat.exists_eq_succ_of_ne_zero
          (show (i + 4096 - s.cur.toNat) % 4096 - bs.length ≠ 0 by omega)
        rw [hq, List.getElem?_eq_none (by omega)]; simp

end Sys2Proof.Machine
end

