-- ==== Sys2Proof/Laws/MatchFinder.lean ====
section
/-! SUPPORT. What the searches of the match finder return. -/

namespace Sys2Proof.Machine

theorem lastIndex_some {test : Nat → Bool} {bound p : Nat} (h : lastIndex test bound = some p) :
    p < bound ∧ test p = true ∧ ∀ q, p < q → q < bound → test q = false := by
  induction bound with
  | zero => simp [lastIndex] at h
  | succ n ih =>
    rw [lastIndex] at h
    split at h
    · rename_i ht
      cases h
      exact ⟨by omega, ht, fun q _ _ => by omega⟩
    · rename_i ht
      obtain ⟨h1, h2, h3⟩ := ih h
      refine ⟨by omega, h2, fun q h4 h5 => ?_⟩
      by_cases e : q = n
      · subst e; simpa using ht
      · exact h3 q h4 (by omega)

theorem lastIndex_none {test : Nat → Bool} {bound : Nat} (h : lastIndex test bound = none) :
    ∀ q, q < bound → test q = false := by
  induction bound with
  | zero => intro q hq; omega
  | succ n ih =>
    rw [lastIndex] at h
    split at h
    · cases h
    · rename_i ht
      intro q hq
      by_cases e : q = n
      · subst e; simpa using ht
      · exact ih h q (by omega)

/-- The match returned is a candidate, and nothing longer, nor as long at a higher index, is one. -/
theorem longestMatch_some {c : Nat} {win : Nat → Byte} {a : List Byte} {bound : Nat} {m : Match}
    (h : longestMatch c win a bound = some m) :
    3 ≤ m.length ∧ m.length ≤ bound ∧ m.index < windowSize ∧ isCandidate c win a m.length m.index = true ∧
      ∀ len p, m.length ≤ len → len ≤ bound → p < windowSize → isCandidate c win a len p = true →
        len = m.length ∧ p ≤ m.index := by
  induction bound with
  | zero => simp [longestMatch] at h
  | succ n ih =>
    rw [longestMatch] at h
    split at h
    · cases h
    · rename_i hmin
      split at h
      · rename_i p hp
        cases h
        obtain ⟨h1, h2, h3⟩ := lastIndex_some hp
        refine ⟨by unfold minLength at hmin; show 3 ≤ n + 1; omega, Nat.le_refl _, h1, h2, fun len q h4 h5 h6 h7 => ?_⟩
        have e : len = n + 1 := Nat.le_antisymm h5 h4
        subst e
        refine ⟨rfl, Nat.le_of_not_lt fun hq => ?_⟩
        rw [h3 q hq h6] at h7; cases h7
      · rename_i hp
        obtain ⟨h1, h2, h3, h4, h5⟩ := ih h
        refine ⟨h1, by omega, h3, h4, fun len q h6 h7 h8 h9 => ?_⟩
        by_cases e : len = n + 1
        · subst e
          rw [lastIndex_none hp q h8] at h9; cases h9
        · exact h5 len q h6 (by omega) h8 h9

theorem longestMatch_none {c : Nat} {win : Nat → Byte} {a : List Byte} {bound : Nat}
    (h : longestMatch c win a bound = none) :
    ∀ len p, 3 ≤ len → len ≤ bound → p < windowSize → isCandidate c win a len p = false := by
  induction bound with
  | zero => intro len p h1 h2; omega
  | succ n ih =>
    rw [longestMatch] at h
    split at h
    · rename_i hmin
      intro len p h1 h2
      unfold minLength at hmin; omega
    · split at h
      · cases h
      · rename_i hp
        intro len p h1 h2 h3
        by_cases e : len = n + 1
        · subst e; exact lastIndex_none hp p h3
        · exact ih h len p h1 (by omega) h3

/-- A match's length and index lie in their ranges (R141). -/
theorem matchFind_range {c : Nat} {win : Nat → Byte} {a : List Byte} {m : Match} (h : matchFind c win a = some m) :
    3 ≤ m.length ∧ m.length ≤ a.length ∧ m.index < windowSize ∧ m.index ≠ 0 := by
  obtain ⟨h1, h2, h3, h4, -⟩ := longestMatch_some h
  refine ⟨h1, h2, h3, ?_⟩
  simp only [isCandidate, Bool.and_eq_true, bne_iff_ne] at h4
  exact h4.1.1

theorem lookaheadBytes_length (s : State) :
    (lookaheadBytes s).length = min s.par.lookahead (s.inLen.toNat - s.pos) := by
  simp [lookaheadBytes, inBytes]

end Sys2Proof.Machine
end

