-- ==== Sys2Proof/Laws/Compress.lean ====
section
/-! SUPPORT. Everything a decision of COMPRESS can do to the state. -/

namespace Sys2Proof.Machine

/-- What a row of appends leaves in WIN depends on WIN, CUR, the seeding and the parameters alone. -/
theorem winAppendAll_win_congr (bs : List Byte) {s t : State} (hw : s.win = t.win) (hc : s.cur = t.cur)
    (hs : s.seeded = t.seeded) (hp : s.par = t.par) : (winAppendAll bs s).win = (winAppendAll bs t).win := by
  induction bs generalizing s t with
  | nil => exact hw
  | cons b bs ih => exact ih (by simp [hw, hc, hs, hp, winDefault]) (by simp [hc]) (by simp [hs]) (by simp [hp])

/-- A decision takes `n` bytes of the input, all below IN_LEN, appends them to the window, and adds a flag with one or two
payload bytes to the group (R215, R216). -/
theorem decision_frame {s : State} (hp : s.pos < s.inLen.toNat) :
    ∃ (n : Nat) (f : Bool) (xs : List Byte),
      1 ≤ n ∧ s.pos + n ≤ s.inLen.toNat ∧ 1 ≤ xs.length ∧ xs.length ≤ 2 ∧
      decision s =
        { s with
          fl := s.fl ||| ((BitVec.ofBool f).setWidth 8 <<< s.nf)
          nf := s.nf + 1
          pl := s.pl + xs.length
          pb := (addPayload xs s).pb
          pos := s.pos + n
          win := (winAppendAll (inBytes s s.pos n) s).win
          cur := s.cur + BitVec.ofNat 12 n } := by
  unfold decision
  split
  · rename_i m hm
    have := matchFind_range hm
    rw [lookaheadBytes_length] at this
    refine ⟨m.length, false, descriptor (BitVec.ofNat 12 m.index) m.length, by omega, by omega, by simp [descriptor],
      by simp [descriptor], ?_⟩
    simp only [refDecision, addDecision_frame]
    rw [winAppendAll_frame]
    simp only [inBytes, List.length_map, List.length_range]
    congr 1
    exact winAppendAll_win_congr _ rfl rfl rfl rfl
  · refine ⟨1, true, [inByte s s.pos], by omega, by omega, by simp, by simp, ?_⟩
    simp only [litDecision, addDecision_frame]
    simp [winAppend, inBytes, winAppendAll, winDefault]

end Sys2Proof.Machine
end

