-- ==== Sys2Proof/Laws/Decode.lean ====
section
/-! SUPPORT. The bit layouts of 30_encoding on numbers, and how a word is put together again from its fields. -/

namespace Sys2Proof

/-- Bits side by side are a sum of numbers. -/
theorem toNat_join {n m : Nat} (x : BitVec n) (y : BitVec m) : (x ++ y).toNat = x.toNat * 2 ^ m + y.toNat := by
  rw [BitVec.toNat_append, Nat.shiftLeft_eq, Nat.mul_comm, Nat.two_pow_add_eq_or_of_lt y.isLt]

/-- A field is a remainder of a quotient. -/
theorem toNat_field {n : Nat} (x : BitVec n) (lo w : Nat) : (x.extractLsb' lo w).toNat = x.toNat / 2 ^ lo % 2 ^ w := by
  rw [BitVec.extractLsb'_toNat, Nat.shiftRight_eq_div_pow]

theorem headerValue_toNat (b0 b1 : Byte) : (headerValue b0 b1).toNat = b0.toNat + 256 * b1.toNat := by
  have := toNat_join b1 b0
  unfold headerValue; omega

/-- The header's two bytes (R71). -/
theorem header_join (h : BitVec 16) : headerValue (h.extractLsb' 0 8) (h.extractLsb' 8 8) = h := by
  apply BitVec.eq_of_toNat_eq
  have := h.isLt
  rw [headerValue_toNat, toNat_field, toNat_field]; omega

theorem header_low (b0 b1 : Byte) : (headerValue b0 b1).extractLsb' 0 8 = b0 := by
  apply BitVec.eq_of_toNat_eq
  have := b0.isLt
  rw [toNat_field, headerValue_toNat]; omega

theorem header_high (b0 b1 : Byte) : (headerValue b0 b1).extractLsb' 8 8 = b1 := by
  apply BitVec.eq_of_toNat_eq
  have := b0.isLt; have := b1.isLt
  rw [toNat_field, headerValue_toNat]; omega

/-- The source index of a descriptor, as its bits stand side by side (R74). -/
theorem sourceIndex_join (low high : Byte) :
    (low.setWidth 12 ||| ((high.setWidth 12 <<< 4) &&& 0xF00#12) : BitVec 12) = (high.extractLsb' 4 4 ++ low : BitVec (4 + 8)) := by
  apply BitVec.eq_of_getLsbD_eq
  intro i hi
  simp only [BitVec.getLsbD_or, BitVec.getLsbD_setWidth, BitVec.getLsbD_and, BitVec.getLsbD_shiftLeft,
    BitVec.getLsbD_append, BitVec.getLsbD_extractLsb']
  have : i = 0 ∨ i = 1 ∨ i = 2 ∨ i = 3 ∨ i = 4 ∨ i = 5 ∨ i = 6 ∨ i = 7 ∨ i = 8 ∨ i = 9 ∨ i = 10 ∨ i = 11 := by omega
  rcases this with rfl | rfl | rfl | rfl | rfl | rfl | rfl | rfl | rfl | rfl | rfl | rfl <;> simp

theorem sourceIndex_toNat (low high : Byte) :
    (low.setWidth 12 ||| ((high.setWidth 12 <<< 4) &&& 0xF00#12) : BitVec 12).toNat =
      low.toNat + 256 * (high.toNat / 16) := by
  have h1 := toNat_join (high.extractLsb' 4 4) low
  have h2 := toNat_field high 4 4
  have := high.isLt
  rw [sourceIndex_join]; omega

theorem lengthCode_toNat (high : Byte) : (high &&& 0x0F#8).toNat = high.toNat % 16 := by
  rw [BitVec.toNat_and]; exact Nat.and_two_pow_sub_one_eq_mod _ 4

/-- The code of a CMD word put together from bytes is its first byte (R78). -/
theorem command_op (b0 b1 b2 b3 : Byte) :
    BitVec.extractLsb' (n := 8 + 8 + 8 + 8) 0 8 (b3 ++ b2 ++ b1 ++ b0) = b0 := by
  apply BitVec.eq_of_toNat_eq
  have := b0.isLt
  rw [toNat_field, toNat_join]; omega

/-- The ignored bits of a CMD word are its other three bytes. -/
theorem command_ignored (b0 b1 b2 b3 : Byte) :
    BitVec.extractLsb' (n := 8 + 8 + 8 + 8) 8 24 (b3 ++ b2 ++ b1 ++ b0) = (b3 ++ b2 ++ b1 : BitVec (8 + 8 + 8)) := by
  apply BitVec.eq_of_toNat_eq
  have := b0.isLt; have := (b3 ++ b2 ++ b1 : BitVec (8 + 8 + 8)).isLt
  rw [toNat_field, toNat_join]; omega

/-- Three bytes put together from a 24-bit field's own bytes. -/
theorem ignored_join (ign : BitVec 24) :
    (ign.extractLsb' 16 8 ++ ign.extractLsb' 8 8 ++ ign.extractLsb' 0 8 : BitVec (8 + 8 + 8)) = ign := by
  apply BitVec.eq_of_toNat_eq
  have := ign.isLt
  rw [toNat_join, toNat_join, toNat_field, toNat_field, toNat_field]; omega

theorem command_code (w : Word) : (w.extractLsb' 0 8).toNat = w.toNat % 256 := by
  rw [toNat_field]; omega

/-- The fields of a window-port word put together from bytes (R79). -/
theorem port_data (b0 b1 : Byte) (x : BitVec 6) : BitVec.extractLsb' (n := 6 + 8 + 8) 0 8 (x ++ b1 ++ b0) = b0 := by
  apply BitVec.eq_of_toNat_eq
  have := b0.isLt
  rw [toNat_field, toNat_join]; omega

theorem port_addr_toNat (b0 b1 : Byte) (x : BitVec 6) :
    (BitVec.extractLsb' (n := 6 + 8 + 8) 8 12 (x ++ b1 ++ b0)).toNat = b1.toNat + 256 * (x.toNat % 16) := by
  have := b0.isLt; have := b1.isLt
  rw [toNat_field, toNat_join, toNat_join]; omega

theorem port_bit (b0 b1 : Byte) (x : BitVec 6) (j : Nat) :
    BitVec.getLsbD (w := 6 + 8 + 8) (x ++ b1 ++ b0) (16 + j) = x.getLsbD j := by
  rw [BitVec.getLsbD_append, BitVec.getLsbD_append, if_neg (by omega), if_neg (by omega)]
  congr 1; omega

end Sys2Proof
end

