-- ==== Sys2Proof/Laws/Memory.lean ====
section
/-! SUPPORT. The canonical form of the three memories, at reset and after each operation that writes one of them. -/

namespace Sys2Proof.Machine

/-- At reset nothing is listed. -/
theorem reset_memories : MemoriesOk State.reset := ⟨wf_nil _ _, wf_nil _ _, wf_nil _ _⟩

theorem winSet_memories (i : Int) (b : Byte) {s : State} (h : MemoriesOk s) : MemoriesOk (winSet i b s) :=
  ⟨wf_write h.win b (winIndex_lt i), h.inBuf, h.outBuf⟩

theorem winAppend_memories (b : Byte) {s : State} (h : MemoriesOk s) : MemoriesOk (winAppend b s) :=
  ⟨wf_write h.win b s.cur.isLt, h.inBuf, h.outBuf⟩

theorem seed_memories {s : State} (h : MemoriesOk s) : MemoriesOk (seed s) :=
  ⟨wf_nil _ _, h.inBuf, h.outBuf⟩

theorem outWrite_memories {a : Nat} (b : Byte) {s : State} (ha : a < s.par.outCap) (h : MemoriesOk s) :
    MemoriesOk (outWrite a b s) :=
  ⟨h.win, h.inBuf, wf_write h.outBuf b ha⟩

/-- A host write of IN. -/
theorem inWrite_memories {a : Nat} (b : Byte) {s : State} (ha : a < s.par.inCap) (h : MemoriesOk s) :
    MemoriesOk { s with inBuf := memWrite none s.inBuf a b } :=
  ⟨h.win, wf_write h.inBuf b ha, h.outBuf⟩

/-- A fault touches no memory. -/
theorem raiseFault_memories (code : FaultCode) {s : State} (h : MemoriesOk s) : MemoriesOk (raiseFault code s) :=
  ⟨h.win, h.inBuf, h.outBuf⟩

end Sys2Proof.Machine
end

