-- ==== Sys2Proof/Laws/PerInstr.lean ====
section
/-! SUPPORT. A family of statements about every instruction as syntax: an encoding is as long as the word of its slot. -/

namespace Sys2Proof.Laws.EncodedSize

/-- The encoding of the instruction fills the word of its slot (30_encoding R70 to R79). -/
def Statement (i : Instr) : Prop := (encode i).length = i.slot.size

theorem hdr (h : BitVec 16) : Statement (.hdr h) := rfl
theorem ctrl (flags : Byte) : Statement (.ctrl flags) := rfl
theorem lit (v : Byte) : Statement (.lit v) := rfl
theorem bref (p : BitVec 12) (len : Nat) : Statement (.bref p len) := rfl
theorem nop (ign : BitVec 24) : Statement (.nop ign) := rfl
theorem decompress (ign : BitVec 24) : Statement (.decompress ign) := rfl
theorem compress (ign : BitVec 24) : Statement (.compress ign) := rfl
theorem reserved03 (ign : BitVec 24) : Statement (.reserved03 ign) := rfl
theorem reserved04 (op : Byte) (ign : BitVec 24) : Statement (.reserved04 op ign) := rfl
theorem reserved08 (op : Byte) (ign : BitVec 24) : Statement (.reserved08 op ign) := rfl
theorem reserved10 (op : Byte) (ign : BitVec 24) : Statement (.reserved10 op ign) := rfl
theorem reserved20 (op : Byte) (ign : BitVec 24) : Statement (.reserved20 op ign) := rfl
theorem reserved40 (op : Byte) (ign : BitVec 24) : Statement (.reserved40 op ign) := rfl
theorem reserved80 (op : Byte) (ign : BitVec 24) : Statement (.reserved80 op ign) := rfl
theorem wnone (addr : BitVec 12) (data : Byte) : Statement (.wnone addr data) := rfl
theorem wget (addr : BitVec 12) (data : Byte) : Statement (.wget addr data) := rfl
theorem wappend (addr : BitVec 12) (data : Byte) : Statement (.wappend addr data) := rfl
theorem wset (addr : BitVec 12) (data : Byte) : Statement (.wset addr data) := rfl

end Sys2Proof.Laws.EncodedSize
end

