-- ==== Sys2Proof/Laws/Step.lean ====
section
/-! SUPPORT. Small facts about the events of R300: which CMD writes start something, the port word that stands alone, and rows of
window-port words. -/

namespace Sys2Proof.Machine

/-- A CMD code is 0, the code of NOP, exactly when the word is 0 modulo 256. -/
theorem commandCode_zero (v : Word) : v.extractLsb' 0 8 = 0x00#8 ↔ v.toNat % 256 = 0 := by
  rw [← command_code]
  exact ⟨fun h => by rw [h]; rfl, fun h => BitVec.eq_of_toNat_eq h⟩

theorem startsCommand_writeReg (width : Width) (offset : Nat) (v : Word) :
    (HostAction.writeReg width offset v).startsCommand = true ↔ offset = 0x00 ∧ v.toNat % 256 ≠ 0 := by
  simp [HostAction.startsCommand, ← commandCode_zero]

/-- No engine step places a window-port word (log 9) or takes an entry off the schedule. -/
theorem engineStep_port {s t : State} (h : engineStep s = .next t) : t.port = s.port ∧ t.inputs = s.inputs := by
  cases engineStep_cases h
  case decide p =>
    obtain ⟨_, _, _, _, _, _, _, e⟩ := decision_frame p
    rw [decided, e]; exact ⟨rfl, rfl⟩
  case flush => rw [flushed, bytesWritten_frame]; exact ⟨rfl, rfl⟩
  case flushFull => rw [bytesWritten_frame]; exact ⟨rfl, rfl⟩
  all_goals exact ⟨rfl, rfl⟩

/-- A row of WAPPEND words appends the bytes in order. -/
theorem appendEach_eq (bs : List Byte) (s : State) : appendEach bs s = .next (winAppendAll bs s) := by
  induction bs generalizing s with
  | nil => rfl
  | cons b bs ih => exact ih (winAppend b s)

end Sys2Proof.Machine
end

