-- ==== Sys2Proof/Tests/Slice0.lean ====
section
/-! SUPPORT. The model's own tests. Expected values are those of spec/95_test_vectors.md (named in the comments) or are written
out by hand from the rules. The theorems `test_hyp_<obligation>…` show states and operands that meet the hypotheses of the
obligation, clause by clause. -/

namespace Sys2Proof.Tests

open Sys2Proof.Machine

/-! ### Helpers -/

/-- An idle engine with small buffers and the seed of profile P0 (00_scope R18), no register of it unspecified. -/
def base : State :=
  { State.reset with
    par := ⟨0x20#8, 0xFEE#12, 18, 64, 64⟩
    cur := 0#12
    rem := 0#16
    rp := 0
    ctrl := 0#8
    bit := 0
    src := 0#12
    len := 3
    k := 0
    ol := 0
    pos := 0
    fl := 0#8
    nf := 0
    pb := Vector.replicate 16 0#8
    pl := 0 }

/-- With these bytes at the start of IN and IN_LEN their number. -/
def withIn (bs : List Byte) (s : State) : State :=
  { s with inLen := BitVec.ofNat 32 bs.length, inBuf := bs.zipIdx.map fun x => (x.2, x.1) }

/-- The engine runs, in an FSM state, on a seeded window. -/
def running (f : Fsm) (s : State) : State := { seed s with fsm := f, status := ⟨true, false, false, 0#8⟩ }

/-- The step answered a next state with this property. -/
def after (o : Host.Outcome State Fault Refusal) (p : State → Bool) : Bool :=
  match o with
  | .next t => p t
  | .fault _ => false
  | .refused _ => false

/-- The step was refused for this reason. -/
def refusedWith (o : Host.Outcome State Fault Refusal) (r : Refusal) : Bool :=
  match o with
  | .next _ => false
  | .fault _ => false
  | .refused r' => decide (r' = r)

/-- The step stopped with this fault of the model. -/
def stoppedWith (o : Host.Outcome State Fault Refusal) (r : Fault) : Bool :=
  match o with
  | .next _ => false
  | .fault r' => decide (r' = r)
  | .refused _ => false

/-- The STATUS word of an ended command. -/
def statusIs (w : Word) (t : State) : Bool := decide (statusWord t.status = w)

/-! ### WellFormed refuses ill-formed terms -/

theorem test_wf_bref_too_short : (Instr.bref 0x123#12 2).wf = false := by decide
theorem test_wf_bref_too_long : (Instr.bref 0x123#12 19).wf = false := by decide
theorem test_wf_bref_bounds : (Instr.bref 0#12 3).wf = true ∧ (Instr.bref 0xFFF#12 18).wf = true := by decide
theorem test_wf_reserved04 : (Instr.reserved04 0x08#8 0#24).wf = false ∧ (Instr.reserved04 0x03#8 0#24).wf = false := by decide
theorem test_wf_reserved08 : (Instr.reserved08 0x10#8 0#24).wf = false ∧ (Instr.reserved08 0x07#8 0#24).wf = false := by decide
theorem test_wf_reserved10 : (Instr.reserved10 0x20#8 0#24).wf = false ∧ (Instr.reserved10 0x0F#8 0#24).wf = false := by decide
theorem test_wf_reserved20 : (Instr.reserved20 0x40#8 0#24).wf = false ∧ (Instr.reserved20 0x1F#8 0#24).wf = false := by decide
theorem test_wf_reserved40 : (Instr.reserved40 0x80#8 0#24).wf = false ∧ (Instr.reserved40 0x3F#8 0#24).wf = false := by decide
theorem test_wf_reserved80 : (Instr.reserved80 0x7F#8 0#24).wf = false := by decide

/-! ### Decoding, from words written out by hand from 30_encoding -/

/-- ENC-10: byte0 = 0x34 is H[7:0], byte1 = 0x12 is H[15:8] (R71). -/
theorem test_decode_hdr : decode .header [0x34#8, 0x12#8, 0x99#8] = .ok (.hdr 0x1234#16, [0x99#8]) := by decide
theorem test_decode_ctrl : decode .control [0b10101011#8] = .ok (.ctrl 0xAB#8, []) := by decide
theorem test_decode_lit : decode .literal [0x5A#8] = .ok (.lit 0x5A#8, []) := by decide
/-- P[7:0] = 0010_0011, then P[11:8] = 0001 and N = 0111 (R74; ENC-4). -/
theorem test_decode_bref : decode .backref [0b00100011#8, 0b00010111#8] = .ok (.bref 0x123#12 10, []) := by decide
theorem test_decode_nop : decode .command [0x00#8, 0xEF#8, 0xCD#8, 0xAB#8] = .ok (.nop 0xABCDEF#24, []) := by decide
theorem test_decode_decompress : decode .command [0x01#8, 0x01#8, 0x00#8, 0x00#8] = .ok (.decompress 0x000001#24, []) := by
  decide
theorem test_decode_compress : decode .command [0x02#8, 0x00#8, 0x00#8, 0x80#8] = .ok (.compress 0x800000#24, []) := by decide
theorem test_decode_reserved03 : decode .command [0x03#8, 0#8, 0#8, 0#8] = .ok (.reserved03 0#24, []) := by decide
theorem test_decode_reserved04 : decodeCommand 0x04#32 = .reserved04 0x04#8 0#24 ∧ decodeCommand 0x07#32 = .reserved04 0x07#8 0#24 := by
  decide
theorem test_decode_reserved08 : decodeCommand 0x08#32 = .reserved08 0x08#8 0#24 ∧ decodeCommand 0x0F#32 = .reserved08 0x0F#8 0#24 := by
  decide
theorem test_decode_reserved10 : decodeCommand 0x10#32 = .reserved10 0x10#8 0#24 ∧ decodeCommand 0x1F#32 = .reserved10 0x1F#8 0#24 := by
  decide
theorem test_decode_reserved20 : decodeCommand 0x20#32 = .reserved20 0x20#8 0#24 ∧ decodeCommand 0x3F#32 = .reserved20 0x3F#8 0#24 := by
  decide
theorem test_decode_reserved40 : decodeCommand 0x40#32 = .reserved40 0x40#8 0#24 ∧ decodeCommand 0x7F#32 = .reserved40 0x7F#8 0#24 := by
  decide
theorem test_decode_reserved80 : decodeCommand 0x80#32 = .reserved80 0x80#8 0#24 ∧ decodeCommand 0xFF#32 = .reserved80 0xFF#8 0#24 := by
  decide
/-- WOP = 00, WADDR = 0xABC, WDATA = 0x5A: 00_1010_1011_1100_0101_1010 (R79). -/
theorem test_decode_wnone : decodePort 0b0010101011110001011010#22 = .wnone 0xABC#12 0x5A#8 := by decide
theorem test_decode_wget : decodePort 0b0110101011110001011010#22 = .wget 0xABC#12 0x5A#8 := by decide
theorem test_decode_wappend : decodePort 0b1010101011110001011010#22 = .wappend 0xABC#12 0x5A#8 := by decide
theorem test_decode_wset : decodePort 0b1110101011110001011010#22 = .wset 0xABC#12 0x5A#8 := by decide

/-- Too few bytes, and a set bit above bit 21 of a window-port word, are rejected by name. -/
theorem test_decode_rejects :
    decode .backref [0x23#8] = .error .truncated ∧ decode .winPort [0#8, 0#8, 0x40#8] = .error .portWordTooWide ∧
      decode .winPort [0#8, 0#8, 0x3F#8] = .ok (.wset 0xF00#12 0#8, []) := by decide

/-- The encoder on ENC-1, ENC-3, ENC-6, ENC-9. -/
theorem test_encode :
    encode (.bref 0xFEE#12 6) = [0xEE#8, 0xF3#8] ∧ encode (.bref 0xFFF#12 18) = [0xFF#8, 0xFF#8] ∧
      encode (.bref 0xFFE#12 17) = [0xFE#8, 0xFE#8] ∧ encode (.hdr 6#16) = [0x06#8, 0x00#8] := by decide

/-- The host's bit numbering: the first byte is the least significant (log 15). -/
theorem test_decodeTableWord :
    decodeTableWord 16 0x1723 = some (.bref 0x123#12 10) ∧ decodeTableWord 32 0x101 = some (.decompress 1#24) ∧
      decodeTableWord 8 0xFF = some (.reserved80 0xFF#8 0#24) ∧ decodeTableWord 24 0x2FEE5A = some (.wappend 0xFEE#12 0x5A#8) := by
  decide

/-! ### The first step after reset runs the word that is placed -/

theorem test_fetch_command :
    after (step (State.reset.withFetchWord 32 0xFF)) (statusIs 0x104#32) = true ∧
      after (step (State.reset.withFetchWord 32 0x00)) (statusIs 0#32) = true := by decide
theorem test_fetch_bref :
    after (step (State.reset.withFetchWord 16 0x1723)) (fun t => decide (t.src = 0x123#12 ∧ t.len = 10 ∧ t.fsm = .dCopy)) = true := by
  decide
theorem test_fetch_port :
    after (step (State.reset.withFetchWord 24 0x3FEE5A)) (fun t => decide (winByte t 0xFEE = 0x5A#8)) = true := by decide

/-! ### One step of each instruction -/

/-- D-1: `02 00` at START, IN_LEN = 4. -/
theorem test_hdr : after (exec (.hdr 2#16) (withIn [0x02#8, 0x00#8, 0x01#8, 0x41#8] (running .idle base)))
    (fun t => decide (t.rem = 2#16 ∧ t.rp = 2 ∧ t.ol = 0 ∧ t.fsm = .dCtrl)) = true := by decide
/-- DF-4: F_HDR_OVERRUN. -/
theorem test_hdr_overrun : after (exec (.hdr 5#16) (withIn [0x05#8, 0x00#8, 0x01#8] (running .idle base))) (statusIs 0x404#32) =
    true := by decide
/-- D-3: a control byte with no unit consumes the whole count. -/
theorem test_ctrl : after (exec (.ctrl 0xAB#8) { running .dCtrl base with rem := 1#16, rp := 2, bit := 8 })
    (fun t => decide (t.ctrl = 0xAB#8 ∧ t.rem = 0#16 ∧ t.rp = 3 ∧ t.bit = 0 ∧ t.fsm = .dUnit)) = true := by decide
/-- L3-1: the literal 0x5A lands at window index 0 and CUR becomes 1. -/
theorem test_lit : after (exec (.lit 0x5A#8) { running .dUnit base with rem := 3#16, rp := 5, cur := 0#12, ol := 18 })
    (fun t => decide (winByte t 0 = 0x5A#8 ∧ t.cur = 1#12 ∧ memLookup t.outBuf 18 = some 0x5A#8 ∧ t.ol = 19 ∧ t.rem = 2#16)) =
      true := by decide
/-- R181: OUT full. -/
theorem test_lit_overflow : after (exec (.lit 0x5A#8) { running .dUnit base with rem := 3#16, ol := 64 }) (statusIs 0x604#32) =
    true := by decide
/-- R185: a new copy starts at K = 0. -/
theorem test_bref : after (exec (.bref 0x123#12 10) { running .dUnit base with rem := 2#16, rp := 5, k := 7 })
    (fun t => decide (t.src = 0x123#12 ∧ t.len = 10 ∧ t.k = 0 ∧ t.rp = 7 ∧ t.rem = 0#16 ∧ t.fsm = .dCopy)) = true := by decide
/-- DF-6 and L3-4: F_DESC_TRUNC. -/
theorem test_bref_cut : after (exec (.bref 0#12 3) { running .dUnit base with rem := 1#16 }) (statusIs 0x504#32) = true := by decide
/-- H-3: STATUS and OUT_LEN stay. -/
theorem test_nop : after (exec (.nop 0#24) { base with status := ⟨false, true, false, 0#8⟩, outLen := 9#32 })
    (fun t => statusIs 0x2#32 t && decide (t.outLen = 9#32)) = true := by decide
/-- H-8. -/
theorem test_nop_busy : refusedWith (exec (.nop 0#24) (running .dUnit base)) .cmdWhileBusy = true := by decide
/-- D-6: the header is found at START = 2; the window is seeded. -/
theorem test_decompress :
    after (exec (.decompress 0#24) { withIn [0xAA#8, 9#8, 2#8, 0#8, 1#8, 0x41#8] base with start := 2#32 })
      (fun t => decide (t.rem = 2#16 ∧ t.rp = 4 ∧ winByte t 7 = 0x20#8 ∧ t.cur = 0xFEE#12) && statusIs 1#32 t) = true := by decide
/-- DF-3: F_START_RANGE. -/
theorem test_decompress_start :
    after (exec (.decompress 0#24) { withIn [2#8, 0#8, 1#8, 0x41#8] base with start := 3#32 }) (statusIs 0x304#32) = true := by decide
/-- R212, R243. -/
theorem test_compress : after (exec (.compress 0#24) { withIn [0x41#8] base with pl := 9, nf := 3, outLen := 4#32 })
    (fun t => decide (t.ol = 2 ∧ t.pos = 0 ∧ t.nf = 0 ∧ t.pl = 0 ∧ t.fsm = .cMatch ∧ t.outLen = 0#32)) = true := by decide
/-- CF-3: F_BAD_LEN, and the window is not seeded (R242). -/
theorem test_compress_bad_len : after (exec (.compress 0#24) { base with inLen := 65#32 })
    (fun t => statusIs 0x204#32 t && decide (t.seeded = false)) = true := by decide
/-- H-4 and R244, each reserved row. -/
theorem test_reserved : [Instr.reserved03 0#24, .reserved04 0x05#8 0#24, .reserved08 0x0B#8 0#24, .reserved10 0x15#8 0#24,
    .reserved20 0x2A#8 0#24, .reserved40 0x55#8 0#24, .reserved80 0xFF#8 0#24].all (fun i =>
      after (exec i { base with outLen := 9#32, status := ⟨false, true, false, 0#8⟩ })
        fun t => statusIs 0x104#32 t && decide (t.outLen = 0#32)) = true := by decide
theorem test_wnone : after (exec (.wnone 0xABC#12 0x5A#8) base) (fun t => decide (t.win = [] ∧ t.cur = 0#12)) = true := by decide
/-- W-4: the index is taken modulo 4096 by its width; 7 is never written and holds the seed. -/
theorem test_wget : after (exec (.wget 7#12 0#8) (seed base)) (fun t => decide (t.portData = 0x20#8)) = true := by decide
/-- W-2. -/
theorem test_wappend : after (exec (.wappend 0#12 0x5A#8) { seed base with cur := 0xFFF#12 })
    (fun t => decide (winByte t 0xFFF = 0x5A#8 ∧ t.cur = 0#12)) = true := by decide
/-- W-5, through the modulo of R103: CUR does not move. -/
theorem test_wset : winByte (winSet (0xFEE + 18) 0x41#8 (seed base)) 0 = 0x41#8 ∧
    (winSet (0xFEE + 18) 0x41#8 (seed base)).cur = 0xFEE#12 := by decide
/-- W-3: a negative index. -/
theorem test_winGet_negative : winGet (-2) (winSet 0xFFE 0x41#8 (seed base)) = 0x41#8 := by decide

/-! ### The steps that are no instruction -/

/-- BF-1: the flags come out least significant first. -/
theorem test_nextFlag : (List.range 8).map (fun j => nextFlag { base with ctrl := 0x07#8, bit := j }) =
    [true, true, true, false, false, false, false, false] := by decide
/-- BF-3. -/
theorem test_groupBytes :
    groupBytes (addDecision false [0xEE#8, 0xF3#8] (addDecision true [3#8] (addDecision true [2#8] (addDecision true [1#8] base)))) =
      [0x07#8, 0x01#8, 0x02#8, 0x03#8, 0xEE#8, 0xF3#8] := by decide
/-- MF-1 and MF-9. -/
theorem test_match_fresh : matchFind 0xFEE (fun _ => 0x20#8) (List.replicate 4 0x20#8) = some ⟨0xFFF, 4⟩ := by decide
/-- MF-2: 0xFFF is the index just past the trial copy. -/
theorem test_match_excluded : matchFind 0xFEE (fun _ => 0x20#8) (List.replicate 17 0x20#8) = some ⟨0xFFE, 17⟩ := by decide
/-- MF-8. -/
theorem test_match_short : matchFind 0xFEE (fun _ => 0x20#8) (List.replicate 2 0x20#8) = none := by decide
/-- MF-4: the decoder view accepts 0xFEE, and not the cursor itself. -/
theorem test_match_view : (isCandidate 0xFEF (fun i => if i = 0xFEE then 0x41#8 else 0x20#8) (List.replicate 5 0x41#8) 5 0xFEE = true) ∧
    isCandidate 0xFEF (fun i => if i = 0xFEE then 0x41#8 else 0x20#8) (List.replicate 5 0x41#8) 5 0xFEF = false := by decide
/-- D-9, the first copied byte: 0x41 from 0xFEE to 0xFEF. -/
theorem test_copy : after (engineStep { winAppend 0x41#8 (running .dCopy base) with src := 0xFEE#12, len := 5, ol := 1 })
    (fun t => decide (memLookup t.outBuf 1 = some 0x41#8 ∧ winByte t 0xFEF = 0x41#8 ∧ t.k = 1 ∧ t.fsm = .dCopy)) = true := by decide
/-- C-8: one literal at the end of the input. -/
theorem test_literal_decision : after (engineStep { withIn [0x41#8] (running .cMatch base) with ol := 2 })
    (fun t => decide (groupBytes t = [0x01#8, 0x41#8] ∧ t.cur = 0xFEF#12 ∧ t.pos = 1)) = true := by decide
/-- C-3: ref (0xFFF, 4). -/
theorem test_ref_decision : after (engineStep { withIn (List.replicate 4 0x20#8) (running .cMatch base) with ol := 2 })
    (fun t => decide (groupBytes t = [0x00#8, 0xFF#8, 0xF1#8] ∧ t.cur = 0xFF2#12 ∧ t.pos = 4)) = true := by decide
/-- C-8: the flush. -/
theorem test_flush : after (engineStep (addDecision true [0x41#8] { running .cFlush base with ol := 2 }))
    (fun t => decide (memLookup t.outBuf 2 = some 0x01#8 ∧ memLookup t.outBuf 3 = some 0x41#8 ∧ t.ol = 4 ∧ t.nf = 0)) = true := by decide
/-- CF-4: the 65536th payload byte faults (log 11). -/
theorem test_flush_size : after (engineStep (addDecision true [0x41#8]
    { running .cFlush base with ol := 65536, par := { base.par with outCap := 70000 } })) (statusIs 0x704#32) = true := by decide
/-- CB-3: the header 0x0003 in the big-endian order. -/
theorem test_patch : after (engineStep { running .cPatch base with ol := 5, hdrBe := true })
    (fun t => decide (memLookup t.outBuf 0 = some 0x00#8 ∧ memLookup t.outBuf 1 = some 0x03#8 ∧ t.outLen = 5#32) && statusIs 2#32 t) =
      true := by decide
/-- H-2, H-6, H-7, H-11. -/
theorem test_host_registers :
    after (hostAct (.readReg .word 0x18) base) (fun t => decide (t.hostData = 0#32)) = true ∧
      after (hostAct (.writeReg .word 0x08 0xFFFFFFFF#32) base) (fun t => decide (regValue 0x08 t = 1#32)) = true ∧
      after (hostAct (.writeReg .word 0x04 0xFFFFFFFF#32) base) (fun t => decide (regValue 0x04 t = 0#32)) = true ∧
      refusedWith (hostAct (.writeReg .byte 0x01 0#32) base) .badRegAccess = true := by decide
theorem test_reset_event : after (step { running .dCopy base with inputs := [.reset], inLen := 9#32 })
    (fun t => decide (t.fsm = .idle ∧ t.inLen = 0#32 ∧ t.resets = 1) && statusIs 0#32 t) = true := by decide

/-! ### States and operands that meet the hypotheses of the obligations -/

theorem test_hyp_DecodeOfEncodeIsInstruction :
    (Instr.bref 0xFFF#12 18).wf = true ∧ (Instr.bref 0#12 3).wf = true ∧ (Instr.reserved80 0x80#8 0xFFFFFF#24).wf = true := by decide

theorem test_hyp_EncodeOfDecodeIsBytes :
    decode .command [0x07#8, 1#8, 2#8, 3#8, 9#8] = .ok (.reserved04 0x07#8 0x030201#24, [9#8]) ∧
      decode .backref [0xFE#8, 0xFE#8] = .ok (.bref 0xFFE#12 17, []) := by decide

theorem test_hyp_DescriptorFieldsOnNumbers : (3 ≤ 3 ∧ 3 ≤ 18) ∧ 3 ≤ 18 ∧ 18 ≤ 18 := by decide

theorem test_hyp_NopChangesNothing : base.status.busy = false ∧ (running .dUnit base).status.busy = true := by decide

theorem test_hyp_ReservedCommandTakesBadCmd :
    3 ≤ (0x03#32).toNat % 256 ∧ 3 ≤ (0xFFFFFFFF#32).toNat % 256 ∧ base.status.busy = false := by decide

theorem test_hyp_EachReservedRowTakesBadCmd :
    Instr.reserved04 0x04#8 0#24 ∈ [Instr.reserved03 0#24, .reserved04 0x04#8 0#24] ∧ base.status.busy = false ∧
      (running .cMatch base).status.busy = true := by decide

/-- IN_CAP is 64. -/
theorem test_hyp_DecompressIsAccepted_badLen : { base with inLen := 65#32 }.par.inCap < (65#32).toNat ∧ base.status.busy = false := by decide
theorem test_hyp_DecompressIsAccepted_startRange :
    let s := { base with inLen := 64#32, start := 63#32 }
    s.status.busy = false ∧ s.inLen.toNat ≤ s.par.inCap ∧ s.inLen.toNat < s.start.toNat + 2 := by decide
theorem test_hyp_DecompressIsAccepted_hdrOverrun :
    let s := withIn [3#8, 0#8, 0#8, 0#8] base
    s.status.busy = false ∧ s.inLen.toNat ≤ s.par.inCap ∧ s.start.toNat + 2 ≤ s.inLen.toNat ∧
      s.inLen.toNat < s.start.toNat + 2 + ((inByte s s.start.toNat).toNat + 256 * (inByte s (s.start.toNat + 1)).toNat) := by decide
theorem test_hyp_DecompressIsAccepted_runs :
    let s := withIn [2#8, 0#8, 0#8, 0#8] base
    s.status.busy = false ∧ s.inLen.toNat ≤ s.par.inCap ∧
      s.start.toNat + 2 + ((inByte s s.start.toNat).toNat + 256 * (inByte s (s.start.toNat + 1)).toNat) ≤ s.inLen.toNat := by decide

theorem test_hyp_CompressIsAccepted :
    base.status.busy = false ∧ base.par.inCap < ({ base with inLen := 65#32 }).inLen.toNat ∧
      ({ base with inLen := 64#32 }).inLen.toNat ≤ base.par.inCap := by decide

theorem test_hyp_NoCommandWhileBusy : (running .cFlush base).status.busy = true := by decide

theorem test_hyp_HeaderTokenStartsTheStream :
    let s := { base with inLen := 4#32 }
    (s.inLen.toNat < { s with start := 3#32 }.start.toNat + 2) ∧
      (s.start.toNat + 2 ≤ s.inLen.toNat ∧ s.inLen.toNat < s.start.toNat + 2 + (3#16).toNat) ∧
      s.start.toNat + 2 + (2#16).toNat ≤ s.inLen.toNat := by decide

theorem test_hyp_ControlTokenLoadsFlags : 1 ≤ ({ base with rem := 1#16 }).rem.toNat := by decide

theorem test_hyp_LiteralTokenEmitsItsByte :
    let s := { base with rem := 1#16 }
    1 ≤ s.rem.toNat ∧ { s with ol := 63 }.ol < s.par.outCap ∧ s.par.outCap ≤ { s with ol := 64 }.ol := by decide

theorem test_hyp_BackrefTokenStartsTheCopy :
    2 ≤ ({ base with rem := 2#16 }).rem.toNat ∧ ({ base with rem := 1#16 }).rem.toNat < 2 := by decide

theorem test_hyp_TokensStopWithNoByteLeft : base.rem.toNat = 0 ∧
    stoppedWith (exec (.lit 0#8) base) .remUnderflow = true := by decide

theorem test_hyp_StreamStepsChooseTheToken_ctrl :
    let s := running .dCtrl base
    s.fsm = .dCtrl ∧ s.rem.toNat = 0 ∧ 1 ≤ ({ s with rem := 1#16 }).rem.toNat ∧ { s with rp := 63 }.rp < s.par.inCap := by decide
theorem test_hyp_StreamStepsChooseTheToken_unit :
    let s := { running .dUnit base with ctrl := 0x80#8 }
    s.fsm = .dUnit ∧ s.rem.toNat = 0 ∧ (1 ≤ ({ s with rem := 1#16 }).rem.toNat ∧ { s with bit := 8 }.bit = 8) ∧
      ({ s with bit := 7 }.bit < 8 ∧ s.ctrl.toNat.testBit 7 = true ∧ { s with rp := 63 }.rp < s.par.inCap) ∧
      (s.bit < 8 ∧ s.ctrl.toNat.testBit s.bit = false ∧ ({ s with rem := 1#16 }).rem.toNat = 1) ∧
      (2 ≤ ({ s with rem := 2#16 }).rem.toNat ∧ { s with rp := 62 }.rp + 1 < s.par.inCap) := by decide

theorem test_hyp_CopyStepCopiesOneByte :
    let s := running .dCopy base
    s.fsm = .dCopy ∧ { s with ol := 63 }.ol < s.par.outCap ∧ s.par.outCap ≤ { s with ol := 64 }.ol := by decide

theorem test_hyp_ConsumptionIsAccounted :
    let s := withIn [0x41#8] { running .dCtrl base with rem := 1#16 }
    decompressing s ∧ ∃ t, engineStep s = .next t ∧ decompressing t := by
  refine ⟨by decide, _, rfl, by decide⟩

theorem test_hyp_RecentAppendsLieBehindTheCursor :
    (1 ≤ 1 ∧ 1 ≤ [0x41#8, 0x42#8].length) ∧ (1 ≤ 4096 ∧ 4096 ≤ (List.replicate 4097 0x41#8).length ∧ 4096 ≤ 4096) := by
  rw [List.length_replicate]; decide

theorem test_hyp_SeedTerritoryStays :
    [0x41#8].length < 4096 ∧ 0xFED < 4096 ∧ ∀ j < [0x41#8].length, 0xFED ≠ (base.par.seedCursor.toNat + j) % 4096 := by decide

theorem test_hyp_GroupHoldsDecisionsInOrder :
    (List.replicate 8 (false, [0xFF#8, 0xFF#8])).length ≤ 8 ∧
      ∀ d ∈ List.replicate 8 (false, [0xFF#8, 0xFF#8]), 1 ≤ d.2.length ∧ d.2.length ≤ 2 := by decide

theorem test_hyp_MatchFindPicksGreatestCandidate : 4095 < 4096 := by decide

theorem test_hyp_MatchFindEqualsTheLoops : 0xFEE < 4096 := by decide

theorem test_hyp_MatchCopyReproducesTheInput :
    let s := { running .dCopy base with src := 0xFFF#12, len := 4, ol := 60 }
    s.inputs = [] ∧ s.port = none ∧ s.fsm = .dCopy ∧ s.k = 0 ∧ (List.replicate 4 0x20#8).length ≤ 18 ∧
      matchFind s.cur.toNat (winByte s) (List.replicate 4 0x20#8) = some ⟨0xFFF, 4⟩ ∧ s.src.toNat = 0xFFF ∧ s.len = 4 ∧
      s.ol + 4 ≤ s.par.outCap := by decide

theorem test_hyp_EndOfInputFlushesOrPatches :
    let s := { running .cMatch base with inLen := 64#32, pos := 64 }
    s.fsm = .cMatch ∧ s.inLen.toNat ≤ s.par.inCap ∧ s.pos = s.inLen.toNat ∧ s.nf = 0 ∧ 0 < { s with nf := 1 }.nf := by decide

theorem test_hyp_NoMatchMakesALiteral :
    let s := { withIn [0x41#8] (running .cMatch base) with nf := 7, pl := 14 }
    s.fsm = .cMatch ∧ s.inLen.toNat ≤ s.par.inCap ∧ s.pos < s.inLen.toNat ∧ s.nf < 8 ∧ s.pl ≤ 2 * s.nf ∧
      matchFind s.cur.toNat (winByte s) (inBytes s s.pos (min s.par.lookahead (s.inLen.toNat - s.pos))) = none := by decide

theorem test_hyp_MatchMakesABackref :
    let s := { withIn (List.replicate 18 0x20#8) (running .cMatch base) with nf := 7, pl := 14 }
    s.fsm = .cMatch ∧ s.inLen.toNat ≤ s.par.inCap ∧ s.pos < s.inLen.toNat ∧ s.nf < 8 ∧ s.pl ≤ 2 * s.nf ∧ s.par.lookahead ≤ 18 ∧
      matchFind s.cur.toNat (winByte s) (inBytes s s.pos (min s.par.lookahead (s.inLen.toNat - s.pos))) = some ⟨0xFFF, 18⟩ := by decide

theorem test_hyp_FlushWritesTheGroup_fits :
    let s := { running .cFlush base with ol := 47, nf := 8, pl := 16 }
    s.fsm = .cFlush ∧ 2 ≤ s.ol ∧ s.ol ≤ 65537 ∧ s.ol ≤ s.par.outCap ∧ s.pl ≤ 16 ∧ s.ol + 1 + s.pl ≤ 65537 ∧
      s.ol + 1 + s.pl ≤ s.par.outCap := by decide
theorem test_hyp_FlushWritesTheGroup_faults :
    let s := { running .cFlush base with ol := 64, nf := 1, pl := 1 }
    let u := { running .cFlush base with ol := 65537, nf := 1, pl := 1, par := { base.par with outCap := 65537 } }
    (s.fsm = .cFlush ∧ 2 ≤ s.ol ∧ s.ol ≤ 65537 ∧ s.ol ≤ s.par.outCap ∧ s.pl ≤ 16 ∧ s.par.outCap < s.ol + 1 + s.pl) ∧
      (u.fsm = .cFlush ∧ 2 ≤ u.ol ∧ u.ol ≤ 65537 ∧ u.ol ≤ u.par.outCap ∧ u.pl ≤ 16 ∧ 65537 < u.ol + 1 + u.pl) := by decide

theorem test_hyp_PatchWritesTheHeader :
    let s := { running .cPatch base with ol := 2 }
    s.fsm = .cPatch ∧ 2 ≤ s.ol ∧ 2 ≤ { s with ol := 65537 }.ol ∧ { s with ol := 65537 }.ol ≤ 65537 ∧ 2 ≤ s.par.outCap ∧
      s.hdrBe = false ∧ { s with hdrBe := true }.hdrBe = true := by decide

theorem test_hyp_HostReadsRegisters :
    [0x00, 0x04, 0x08, 0x0C, 0x10, 0x14, 0x18, 0xFC].all (fun o => decide (Width.word = .word ∧ o % 4 = 0 ∧ o < 0x100)) = true ∧
      ¬ (Width.word = .word ∧ 0x100 % 4 = 0 ∧ 0x100 < 0x100) ∧ ¬ (Width.half = .word ∧ 0 % 4 = 0 ∧ 0 < 0x100) := by decide

theorem test_hyp_HostWritesRegisters :
    base.status.busy = false ∧ (running .dCtrl base).status.busy = true ∧
      [0x00, 0x04, 0x08, 0x0C, 0x10, 0x14, 0xFC].all (fun o => decide (Width.word = .word ∧ o % 4 = 0 ∧ o < 0x100)) = true := by decide

theorem test_hyp_HostAccessesBuffers :
    base.status.busy = false ∧ 63 < base.par.inCap ∧ base.par.inCap ≤ 64 ∧ (running .dCtrl base).status.busy = true := by decide

theorem test_hyp_HostReadsOut :
    let s := { outWrite 3 0x41#8 base with status := ⟨false, true, false, 0#8⟩, outLen := 4#32 }
    s.status.done = true ∧ 3 < s.outLen.toNat ∧ 3 < s.par.outCap ∧ memLookup s.outBuf 3 = some 0x41#8 ∧ s.par.outCap ≤ 64 := by decide

theorem test_hyp_HostReadsHaveNoSideEffect :
    let s := { base with inputs := [.host (.readOut 63)] }
    (HostAction.readOut 63).isRead = true ∧ nextInput s = .host (.readOut 63) ∧ ∃ t, step s = .next t := by
  refine ⟨rfl, rfl, _, rfl⟩

theorem test_hyp_ResetEventLeavesResetValues : nextInput { running .dCopy base with inputs := [.reset] } = .reset := by decide

theorem test_hyp_StepRunsDecodedInstruction_tokens :
    let c := withIn [0xFE#8, 0xFE#8] { running .dCtrl base with rem := 2#16 }
    let u := { c with fsm := .dUnit, bit := 7 }
    (nextInput c = .tick ∧ c.port = none ∧ c.fsm = .dCtrl ∧ c.rem ≠ 0#16 ∧ c.rp < c.par.inCap ∧
        decode .control [inByte c c.rp] = .ok (.ctrl 0xFE#8, [])) ∧
      (nextInput u = .tick ∧ u.port = none ∧ u.fsm = .dUnit ∧ u.bit < 8 ∧ ({ u with ctrl := 0x80#8 }).ctrl.getLsbD u.bit = true ∧
        decode .literal [inByte u u.rp] = .ok (.lit 0xFE#8, [])) ∧
      (2 ≤ u.rem.toNat ∧ u.ctrl.getLsbD u.bit = false ∧ u.rp + 1 < u.par.inCap ∧
        decode .backref [inByte u u.rp, inByte u (u.rp + 1)] = .ok (.bref 0xFFE#12 17, [])) := by decide
theorem test_hyp_StepRunsDecodedInstruction_words :
    let w := { base with inputs := [.host (.writeReg .word 0x00 (0#8 ++ 0#8 ++ 0#8 ++ 0x02#8))] }
    let p := { running .dUnit base with port := some (0x2F#6 ++ 0xEE#8 ++ 0x5A#8) }
    let h := withIn [2#8, 0#8, 0#8, 0#8] base
    (nextInput w = .host (.writeReg .word 0x00 (0#8 ++ 0#8 ++ 0#8 ++ 0x02#8)) ∧
        decode .command [0x02#8, 0#8, 0#8, 0#8] = .ok (.compress 0#24, [])) ∧
      (nextInput p = .tick ∧ p.fsm ≠ .idle ∧
        decode .winPort [0x5A#8, 0xEE#8, (0x2F#6).setWidth 8] = .ok (.wappend 0xFEE#12 0x5A#8, [])) ∧
      (h.status.busy = false ∧ h.inLen.toNat ≤ h.par.inCap ∧
        decode .header [inByte h h.start.toNat, inByte h (h.start.toNat + 1)] = .ok (.hdr 2#16, [])) := by decide

theorem test_hyp_StepIsTheScheduledEvent :
    (nextInput (running .dCopy base) = .tick ∧ (running .dCopy base).fsm ≠ .idle ∧ (running .dCopy base).port = none) ∧
      nextInput { base with inputs := [.host (.writeReg .word 0x08 1#32)] } = .host (.writeReg .word 0x08 1#32) ∧
      (1#32).toNat % 256 ≠ 0 ∧ (0x100#32).toNat % 256 = 0 ∧ nextInput { base with inputs := [.reset] } = .reset := by decide

theorem test_hyp_BytesStayUntilAWrite :
    let s := { base with inputs := [.host (.writeReg .word 0x08 1#32)] }
    nextInput s ≠ .reset ∧ nextInput s ≠ .tick ∧ (∀ width v, nextInput s ≠ .host (.writeReg width 0x00 v)) ∧
      (∀ b, nextInput s ≠ .host (.writeIn 0 b)) ∧ ∃ t, step s = .next t := by
  refine ⟨by decide, by decide, ?_, ?_, _, rfl⟩
  · intro width v h; cases h
  · intro b h; cases h

/-- R58: a CFG write, an idle turn and a NOP draw no byte of OUT anew. -/
theorem test_no_draw :
    after (step { base with inputs := [.host (.writeReg .word 0x08 1#32)] }) (fun t => decide (t.epoch = 0)) = true ∧
      after (step base) (fun t => decide (t.epoch = 0)) = true ∧
      after (step { base with inputs := [.host (.writeReg .word 0x00 0#32)] }) (fun t => decide (t.epoch = 0)) = true ∧
      after (step { base with inputs := [.host (.writeReg .word 0x00 2#32)] }) (fun t => decide (t.epoch = 1)) = true := by decide

theorem test_hyp_StepsUseTheWindowPortOperations :
    let d := { running .dCopy base with rem := 1#16, ol := 63 }
    let c := withIn [0x41#8] (running .cMatch base)
    let m := withIn (List.replicate 4 0x20#8) (running .cMatch base)
    (1 ≤ d.rem.toNat ∧ d.fsm = .dCopy ∧ d.ol < d.par.outCap) ∧
      (c.fsm = .cMatch ∧ c.inLen.toNat ≤ c.par.inCap ∧ c.pos < c.inLen.toNat ∧ matchQuery c = none) ∧
      (m.fsm = .cMatch ∧ m.inLen.toNat ≤ m.par.inCap ∧ m.pos < m.inLen.toNat ∧ matchQuery m = some ⟨0xFFF, 4⟩) := by decide

theorem test_hyp_IdleEngineTakesNoStep : nextInput base = .tick ∧ base.fsm = .idle := by decide

theorem test_hyp_EngineStepsWriteStatusOnlyToEnd :
    let s := running .dCtrl base
    s.fsm ≠ .idle ∧ s.status = ⟨true, false, false, 0#8⟩ ∧ ∃ t, engineStep s = .next t := by
  refine ⟨by decide, by decide, _, rfl⟩

theorem test_hyp_EngineStepsKeepTheInput :
    (∃ t, engineStep (running .dCopy base) = .next t) ∧ (running .dCopy base).fsm ≠ .cPatch := by
  refine ⟨⟨_, rfl⟩, by decide⟩

/-- The idle engine meets the invariant. -/
theorem inv_base : Inv base where
  ranges := ⟨by decide, by decide, by decide, by decide, by decide, by decide, by decide, by decide, by decide⟩
  memories := ⟨by decide, by decide, by decide⟩
  status := ⟨by decide, by decide, by decide, by decide, by decide⟩
  decompress := fun h => absurd h (by decide)
  compress := fun h => absurd h (by decide)
  port := rfl

/-- So does one with an entry scheduled and another IN_LEN. -/
theorem inv_idle (xs : List Input) (n : Word) : Inv { base with inputs := xs, inLen := n } where
  ranges := ⟨inv_base.1.1, inv_base.1.2, inv_base.1.3, inv_base.1.4, inv_base.1.5, inv_base.1.6, inv_base.1.7, inv_base.1.8,
    inv_base.1.9⟩
  memories := ⟨inv_base.2.1, inv_base.2.2, inv_base.2.3⟩
  status := ⟨inv_base.3.1, inv_base.3.2, inv_base.3.3, inv_base.3.4, inv_base.3.5⟩
  decompress := fun h => absurd (show decompressing base from h) (by decide)
  compress := fun h => absurd (show compressing base from h) (by decide)
  port := rfl

/-- So does one in the middle of a copy. -/
def midCopy : State := { winAppend 0x41#8 (running .dCopy base) with inLen := 4#32, rp := 2, rem := 2#16, src := 0xFEE#12, len := 5 }

theorem inv_midCopy : Inv midCopy where
  ranges := ⟨by decide, by decide, by decide, by decide, by decide, by decide, by decide, by decide, by decide⟩
  memories := ⟨by decide, by decide, by decide⟩
  status := ⟨by decide, by decide, by decide, by decide, by decide⟩
  decompress := fun _ => ⟨by decide, by decide, by decide⟩
  compress := fun h => absurd h (by decide)
  port := rfl

/-- And one in the middle of a flush. -/
def midFlush : State := { running .cFlush base with inLen := 1#32, pos := 1, ol := 2, nf := 1, pl := 1, fl := 0x01#8 }

theorem inv_midFlush : Inv midFlush where
  ranges := ⟨by decide, by decide, by decide, by decide, by decide, by decide, by decide, by decide, by decide⟩
  memories := ⟨by decide, by decide, by decide⟩
  status := ⟨by decide, by decide, by decide, by decide, by decide⟩
  decompress := fun h => absurd h (by decide)
  compress := fun _ => ⟨by decide, by decide, by decide, by decide, by decide, by decide, by decide, by decide⟩
  port := rfl

theorem resultWritten_midFlush : ResultWritten midFlush where
  decompress := fun h => absurd h (by decide)
  compress := fun _ a h1 h2 => absurd h1 (Nat.not_lt.2 h2)
  done := fun h => absurd h (by decide)

theorem test_hyp_StepKeepsInv :
    (Inv midCopy ∧ ∃ t, step midCopy = .next t) ∧ (Inv midFlush ∧ ∃ t, step midFlush = .next t) :=
  ⟨⟨inv_midCopy, _, rfl⟩, inv_midFlush, _, rfl⟩

theorem test_hyp_StepKeepsResultWritten : Inv midFlush ∧ ResultWritten midFlush ∧ ∃ t, step midFlush = .next t :=
  ⟨inv_midFlush, resultWritten_midFlush, _, rfl⟩

theorem test_hyp_StepCompletesExactlyWhenAllowed :
    let ok := { base with inputs := [.host (.readOut 63)], inLen := 0#32 }
    let bad := { base with inputs := [.host (.readOut 64)], inLen := 0#32 }
    (Inv ok ∧ allowed ok (nextInput ok)) ∧ Inv bad ∧ ¬ allowed bad (nextInput bad) :=
  ⟨⟨inv_idle _ _, by show 63 < 64; decide⟩, inv_idle _ _, by show ¬ 64 < 64; decide⟩

theorem test_hyp_CommandsEndWithinBounds :
    Inv { base with inputs := [], inLen := 2#32 } ∧ base.status.busy = false ∧ (0x101#32).toNat % 256 = 1 ∧
      (0xFF02#32).toNat % 256 = 2 :=
  ⟨inv_idle _ _, by decide, by decide, by decide⟩

theorem test_hyp_ResultIsWrittenByItsCommand :
    let s := { base with inputs := [], inLen := 0#32 }
    Inv s ∧ s.status.busy = false ∧ (2#32).toNat % 256 = 2 ∧
      ∃ t, Steps (2 + 1) (commanded 2#32 { s with outBuf := [] }) t ∧ t.status.done = true :=
  ⟨inv_idle _ _, rfl, rfl, _, .next rfl (.next rfl (.next rfl (.refl _))), rfl⟩

/-- Two machines that differ in what earlier commands left, in IN at and above IN_LEN, and in what the command does not read. -/
theorem test_hyp_AcceptanceForgetsEarlierCommands :
    let s := withIn [0#8, 0#8] base
    let t := { winAppend 0x41#8 (seed (withIn [0#8, 0#8] base)) with pl := 9, rem := 7#16, hdrBe := true }
    let u := { s with inLen := 0#32 }
    let v := { base with pl := 9, start := 5#32 }
    sameInputs 1#32 s t ∧ sameInputs 2#32 u v ∧ s.status.busy = false ∧ t.status.busy = false ∧ s.fsm = .idle ∧ t.fsm = .idle :=
  ⟨.inl ⟨rfl, ⟨rfl, rfl⟩, ⟨rfl, rfl⟩, ⟨rfl, rfl⟩, fun _ _ _ _ => rfl⟩,
    .inr ⟨rfl, ⟨rfl, rfl⟩, ⟨rfl, rfl⟩, rfl, ⟨rfl, rfl⟩, fun _ h => absurd h (Nat.not_lt_zero _)⟩, rfl, rfl, rfl, rfl⟩

/-- Two machines that differ in registers of COMPRESS, in CFG, in START and in LOOKAHEAD, in the middle of a copy. -/
theorem test_hyp_StepsKeepTheSameCommand :
    let t := { midCopy with pl := 9, pos := 3, hdrBe := true, start := 1#32, par := { midCopy.par with lookahead := 5 } }
    SameCommand midCopy t ∧ ∃ u, engineStep midCopy = .next u := by
  refine ⟨⟨⟨rfl, rfl, rfl⟩, ⟨rfl, rfl, rfl⟩, fun _ => ⟨rfl, rfl, rfl, rfl, rfl⟩, fun _ => ⟨rfl, rfl⟩, fun _ _ _ _ => rfl,
    fun _ => ⟨rfl, rfl⟩, fun _ => ⟨rfl, rfl, rfl⟩, fun h => absurd h (by decide), fun h => absurd h (by decide),
    fun h => absurd h (by decide), fun _ _ _ => rfl, fun _ _ _ _ => rfl, fun _ _ _ => rfl⟩, _, rfl⟩

theorem test_hyp_CommandOutcomeIsAFunctionOfItsInputs :
    let s := { base with inputs := [], inLen := 0#32 }
    let t := { base with inputs := [.reset], inLen := 0#32 }
    Inv s ∧ Inv t ∧ s.status.busy = false ∧ t.status.busy = false ∧ sameInputs 2#32 s t ∧
      ∃ s', Steps (2 + 1) (commanded 2#32 s) s' ∧ s'.status.done = true :=
  ⟨inv_idle _ _, inv_idle _ _, rfl, rfl,
    .inr ⟨rfl, ⟨rfl, rfl⟩, ⟨rfl, rfl⟩, rfl, ⟨rfl, rfl⟩, fun _ h => absurd h (Nat.not_lt_zero _)⟩,
    _, .next rfl (.next rfl (.next rfl (.refl _))), rfl⟩

/-- C-2: an empty input, compressed in three steps; the other machine holds the two header bytes. -/
theorem test_hyp_DecompressInvertsCompress :
    let s := { base with inputs := [], inLen := 0#32 }
    let u := withIn [0#8, 0#8] base
    ∃ t, Steps 3 (commanded 2#32 s) t ∧ Inv s ∧ s.status.busy = false ∧ s.hdrBe = false ∧ t.inputs = [] ∧ t.fsm = .idle ∧
      t.status.done = true ∧ Inv u ∧ u.status.busy = false ∧ u.par.seedByte = s.par.seedByte ∧
      u.par.seedCursor = s.par.seedCursor ∧ u.start = 0#32 ∧ u.inLen = t.outLen ∧ u.inLen.toNat ≤ u.par.inCap ∧
      s.inLen.toNat ≤ u.par.outCap ∧ ∀ a < t.outLen.toNat, inByte u a = outByteSeen t a := by
  refine ⟨_, .next rfl (.next rfl (.next rfl (.refl _))), inv_idle _ _, rfl, rfl, rfl, rfl, rfl, ?_, rfl, rfl, rfl, rfl, rfl,
    by decide, by decide, by decide⟩
  exact ⟨⟨by decide, by decide, by decide, by decide, by decide, by decide, by decide, by decide, by decide⟩,
    ⟨by decide, by decide, by decide⟩, ⟨by decide, by decide, by decide, by decide, by decide⟩,
    fun h => absurd h (by decide), fun h => absurd h (by decide), rfl⟩

end Sys2Proof.Tests
end

section
/-! What a CMD write and a move of the engine can do, said once: the converse of `engineStep_cases`, the effect of a command by its
code, and the cases of the parts of acceptance. -/

namespace Sys2Proof.Machine

/-! ### Moves of the engine -/

/-- The byte that does not fit decides its fault. -/
theorem StopsAt.code_unique {s : State} {n : Nat} {c d : FaultCode} (hc : StopsAt s n c) (hd : StopsAt s n d) : c = d := by
  obtain ⟨h, rfl⟩ | ⟨h, -, rfl⟩ := hc <;> obtain ⟨h', rfl⟩ | ⟨h', -, rfl⟩ := hd
  · rfl
  · omega
  · omega
  · rfl

/-- No byte that stops the row comes before bytes that fit. -/
theorem StopsAt.le_of_fits {s : State} {n m : Nat} {code : FaultCode} (stops : StopsAt s n code)
    (fits : ∀ j < m, s.ol + j < 65537 ∧ s.ol + j < s.par.outCap) : m ≤ n := by
  by_contra hlt
  have := fits n (by omega)
  rcases stops with ⟨h, -⟩ | ⟨-, h, -⟩ <;> omega

/-- `OutByte` of a row of bytes that all fit writes them all. -/
theorem outBytes_of_fits {xs : List Byte} {s : State}
    (fits : ∀ j < xs.length, s.ol + j < 65537 ∧ s.ol + j < s.par.outCap) : outBytes xs s = .goes (bytesWritten xs s) := by
  obtain ⟨e, -⟩ | ⟨n, hn, code, stops, -, -⟩ := outBytes_cases xs s
  · exact e
  · exact absurd hn (Nat.not_lt.2 (stops.le_of_fits fits))

/-- `OutByte` of a row of bytes of which number `n` is the first that does not fit ends in the fault of that byte. -/
theorem outBytes_of_stopsAt {xs : List Byte} {s : State} {n : Nat} {code : FaultCode} (hn : n < xs.length)
    (stops : StopsAt s n code) (fits : ∀ j < n, s.ol + j < 65537 ∧ s.ol + j < s.par.outCap) :
    outBytes xs s = .ended (raiseFault code (bytesWritten (xs.take n) s)) := by
  obtain ⟨-, all⟩ | ⟨m, hm, code', stops', fits', e⟩ := outBytes_cases xs s
  · exact absurd hn (Nat.not_lt.2 (stops.le_of_fits all))
  · obtain rfl : n = m := Nat.le_antisymm (stops'.le_of_fits fits) (stops.le_of_fits fits')
    obtain rfl : code = code' := stops.code_unique stops'
    exact e

/-- An engine step takes every move that its conditions allow: the converse of `engineStep_cases`. -/
theorem engineStep_of_move {s t : State} (m : EngineMove s t) : engineStep s = .next t := by
  cases m with
  | rest f => simp only [engineStep, f]
  | complete f r => rcases f with f | f <;> simp only [engineStep, f, ctrlStep, unitStep, r, if_true]
  | ctrl f r a =>
    simp only [engineStep, f, ctrlStep, r, runToken, a, controlToken, decodeControl, exec, execCtrl, if_true, if_false]; rfl
  | groupEnd f r b => simp only [engineStep, f, unitStep, r, b, if_true, if_false]
  | lit f r b g a o =>
    have run : exec (literalToken (flagTaken s)) (flagTaken s) = (emit (inByte s s.rp) (litTaken s)).outcome := litToken_run r
    obtain ⟨full, -⟩ | ⟨-, e⟩ := emit_cases (inByte s s.rp) (litTaken s)
    · exact absurd o (Nat.not_lt.2 full)
    · simp only [engineStep, f, unitStep, r, b, g, runToken, flagTaken_rp, flagTaken_par, a, run, e, if_true, if_false,
        outcome_goes]
  | litFull f r b g a o =>
    have run : exec (literalToken (flagTaken s)) (flagTaken s) = (emit (inByte s s.rp) (litTaken s)).outcome := litToken_run r
    obtain ⟨-, e⟩ | ⟨fits, -⟩ := emit_cases (inByte s s.rp) (litTaken s)
    · simp only [engineStep, f, unitStep, r, b, g, runToken, flagTaken_rp, flagTaken_par, a, run, e, if_true, if_false,
        outcome_ended]
    · exact absurd fits (Nat.not_lt.2 o)
  | brefCut f r b g c => simp only [engineStep, f, unitStep, r, b, g, c, if_true, if_false, Bool.false_eq_true]
  | bref f r b g c a =>
    have run : exec (backrefToken (flagTaken s)) (flagTaken s) = .next (brefTaken s) := by
      simp only [backrefToken, decodeBackref, exec, execBref, flagTaken_rem, Nat.not_lt.2 c, if_false]; rfl
    simp only [engineStep, f, unitStep, r, b, g, Nat.not_lt.2 c, runToken, flagTaken_rp, flagTaken_par, a, run, if_true,
      if_false, Bool.false_eq_true]
  | copy f o =>
    obtain ⟨full, -⟩ | ⟨-, e⟩ := emit_cases (copyByte s) s
    · exact absurd o (Nat.not_lt.2 full)
    · simp only [copyByte] at e
      simp only [engineStep, f, copyStep, e]; rfl
  | copyFull f o =>
    obtain ⟨-, e⟩ | ⟨fits, -⟩ := emit_cases (copyByte s) s
    · simp only [copyByte] at e
      simp only [engineStep, f, copyStep, e]; rfl
    · exact absurd fits (Nat.not_lt.2 o)
  | inputEnd f a p =>
    have inside : ¬ (s.par.inCap < s.inLen.toNat ∨ s.inLen.toNat < s.pos) := by omega
    simp only [engineStep, f, matchStep, inside, if_false, if_pos p]
  | decide f a p =>
    have inside : ¬ (s.par.inCap < s.inLen.toNat ∨ s.inLen.toNat < s.pos) := by omega
    simp only [engineStep, f, matchStep, inside, Nat.ne_of_lt p, if_false]; rfl
  | flush f fits => simp only [engineStep, f, flushStep, outBytes_of_fits fits]; rfl
  | flushFull f n h code c fits => simp only [engineStep, f, flushStep, outBytes_of_stopsAt h c fits]; rfl
  | patch f o => simp only [engineStep, f, patchStep, Nat.not_lt.2 o, if_false]; rfl

/-! ### Commands -/

/-- What a CMD write with this code does to an idle engine (R241 to R244). -/
def commandEffect : Nat → State → Flow
  | 0, s => .goes s
  | 1, s => (beginCommand s).andThen fun u => takeHeader (headerAtStart u) u
  | 2, s => (beginCommand s).andThen fun u => .goes (startCompress u)
  | _ + 3, s => refuseCommand s

theorem commandEffect_reserved {code : Nat} (h : 3 ≤ code) : commandEffect code = refuseCommand := by
  obtain ⟨n, rfl⟩ := Nat.exists_eq_add_of_le' h
  rfl

/-- A CMD word has the effect of its code, CMD[7:0] (R78). -/
theorem exec_decodeCommand (w : Word) (s : State) :
    exec (decodeCommand w) s = onCmdWrite s (commandEffect (w.toNat % 256)) := by
  rw [← command_code]
  unfold decodeCommand
  generalize w.extractLsb' 0 8 = op
  generalize w.extractLsb' 8 24 = ign
  by_cases h0 : op = 0x00#8
  · subst h0; rfl
  by_cases h1 : op = 0x01#8
  · subst h1; rfl
  by_cases h2 : op = 0x02#8
  · subst h2; rfl
  rw [commandEffect_reserved (by bv_omega)]
  simp only [h0, h1, h2, if_false]
  split_ifs <;> rfl

theorem beginCommand_badLen {s : State} (h : s.par.inCap < s.inLen.toNat) :
    beginCommand s = .ended (raiseFault .badLen (accept s)) := if_pos h

theorem beginCommand_goes {s : State} (h : s.inLen.toNat ≤ s.par.inCap) : beginCommand s = .goes (seed (accept s)) :=
  if_neg (Nat.not_lt.2 h)

/-- The state the header token leaves when it raises no fault (R176). -/
def headerTaken (h : BitVec 16) (s : State) : State :=
  { s with rem := h, rp := s.start.toNat + 2, ol := 0, fsm := .dCtrl }

/-- The header token is looked for where it was before acceptance. -/
@[simp] theorem headerAtStart_seed_accept (s : State) : headerAtStart (seed (accept s)) = headerAtStart s := rfl

theorem takeHeader_startRange {s : State} (h : s.inLen.toNat < s.start.toNat + 2) (size : BitVec 16) :
    takeHeader size s = .ended (raiseFault .startRange s) := if_pos h

theorem takeHeader_hdrOverrun {s : State} (h : s.start.toNat + 2 ≤ s.inLen.toNat) {size : BitVec 16}
    (o : s.inLen.toNat < s.start.toNat + 2 + size.toNat) : takeHeader size s = .ended (raiseFault .hdrOverrun s) :=
  (if_neg (Nat.not_lt.2 h)).trans (if_pos o)

theorem takeHeader_goes {s : State} {size : BitVec 16} (h : s.start.toNat + 2 + size.toNat ≤ s.inLen.toNat) :
    takeHeader size s = .goes (headerTaken size s) :=
  (if_neg (by omega)).trans (if_neg (Nat.not_lt.2 h))

/-- Everything a CMD write can leave of an idle engine: NOP, a reserved code, acceptance with and without a fault. -/
inductive CommandMove (s : State) : State → Prop where
  | nop : CommandMove s s
  | badCmd : CommandMove s (raiseFault .badCmd s)
  | badLen (l : s.par.inCap < s.inLen.toNat) : CommandMove s (raiseFault .badLen (accept s))
  | startRange : CommandMove s (raiseFault .startRange (seed (accept s)))
  | hdrOverrun : CommandMove s (raiseFault .hdrOverrun (seed (accept s)))
  | decompress (l : s.inLen.toNat ≤ s.par.inCap) (i : s.start.toNat + 2 + (headerAtStart s).toNat ≤ s.inLen.toNat) :
      CommandMove s (headerTaken (headerAtStart s) (seed (accept s)))
  | compress (l : s.inLen.toNat ≤ s.par.inCap) : CommandMove s (startCompress (seed (accept s)))

theorem commandEffect_cases (code : Nat) (s : State) : CommandMove s (commandEffect code s).final := by
  match code with
  | 0 => exact .nop
  | 1 =>
    by_cases l : s.par.inCap < s.inLen.toNat
    · rw [commandEffect, beginCommand_badLen l]
      exact .badLen l
    rw [commandEffect, beginCommand_goes (Nat.not_lt.1 l), andThen_goes, headerAtStart_seed_accept]
    by_cases r : s.inLen.toNat < s.start.toNat + 2
    · rw [takeHeader_startRange (s := seed (accept s)) r]
      exact .startRange
    by_cases o : s.inLen.toNat < s.start.toNat + 2 + (headerAtStart s).toNat
    · rw [takeHeader_hdrOverrun (s := seed (accept s)) (Nat.not_lt.1 r) o]
      exact .hdrOverrun
    · rw [takeHeader_goes (s := seed (accept s)) (Nat.not_lt.1 o)]
      exact .decompress (Nat.not_lt.1 l) (Nat.not_lt.1 o)
  | 2 =>
    by_cases l : s.par.inCap < s.inLen.toNat
    · rw [commandEffect, beginCommand_badLen l]
      exact .badLen l
    · rw [commandEffect, beginCommand_goes (Nat.not_lt.1 l)]
      exact .compress (Nat.not_lt.1 l)
  | _ + 3 => exact .badCmd

/-- A CMD write that answers a next state finds the engine idle and makes one of the moves of a command. -/
theorem exec_decodeCommand_cases {w : Word} {s t : State} (h : exec (decodeCommand w) s = .next t) :
    s.status.busy = false ∧ CommandMove s t := by
  rw [exec_decodeCommand] at h
  cases b : s.status.busy with
  | true => rw [onCmdWrite_busy b] at h; cases h
  | false =>
    rw [onCmdWrite_idle b] at h
    cases h
    exact ⟨rfl, commandEffect_cases _ s⟩

end Sys2Proof.Machine
end

section
/-! The invariant: it holds at reset, and every engine step, CMD write, host access and reset keeps it. -/

namespace Sys2Proof.Machine

/-! ### The parts of the invariant -/

/-- An idle machine has no running command to answer for. -/
theorem Inv.of_idle {s : State} (f : s.fsm = .idle) (ranges : RangesOk s) (memories : MemoriesOk s) (status : StatusOk s)
    (port : s.port = none) : Inv s where
  ranges := ranges
  memories := memories
  status := status
  decompress := by simp [f]
  compress := by simp [f]
  port := port

/-- A machine that runs DECOMPRESS has no COMPRESS to answer for. -/
theorem Inv.of_decompressing {s : State} (f : decompressing s) (ranges : RangesOk s) (memories : MemoriesOk s)
    (status : StatusOk s) (ok : DecompressOk s) (port : s.port = none) : Inv s where
  ranges := ranges
  memories := memories
  status := status
  decompress := fun _ => ok
  compress := by rcases f with f | f | f <;> simp [f]
  port := port

/-- A machine that runs COMPRESS has no DECOMPRESS to answer for. -/
theorem Inv.of_compressing {s : State} (f : compressing s) (ranges : RangesOk s) (memories : MemoriesOk s)
    (status : StatusOk s) (ok : CompressOk s) (port : s.port = none) : Inv s where
  ranges := ranges
  memories := memories
  status := status
  decompress := by rcases f with f | f | f <;> simp [f]
  compress := fun _ => ok
  port := port

theorem running_of_decompressing {s : State} (f : decompressing s) : s.fsm ≠ .idle := by
  rcases f with f | f | f <;> simp [f]

theorem running_of_compressing {s : State} (f : compressing s) : s.fsm ≠ .idle := by
  rcases f with f | f | f <;> simp [f]

/-- FSM may move between running states without STATUS and OUT_LEN. -/
theorem StatusOk.of_running {s t : State} (h : StatusOk s) (fs : s.fsm ≠ .idle) (ft : t.fsm ≠ .idle)
    (status : t.status = s.status) (outLen : t.outLen = s.outLen) : StatusOk t where
  busy := by rw [status]; exact ⟨fun _ => ft, fun _ => h.busy.2 fs⟩
  running := by rw [status, outLen]; exact h.running
  ended := by rw [status]; exact h.ended
  noCode := by rw [status]; exact h.noCode
  code := by rw [status]; exact h.code

theorem statusOk_of_accepted {s : State} (f : s.fsm ≠ .idle) (status : s.status = ⟨true, false, false, 0#8⟩)
    (outLen : s.outLen = 0#32) : StatusOk s := by
  constructor <;> simp [status, outLen, f]

/-- A fault the engine can raise leaves a listed code (R261, R265). -/
theorem raiseFault_statusOk {code : FaultCode} (raised : code ≠ .winUnderflow) (s : State) : StatusOk (raiseFault code s) where
  busy := by simp
  running := by simp
  ended := by simp
  noCode := by simp
  code := by cases code <;> simp [FaultCode.number] at raised ⊢

/-- A fault ends the command, whatever it was doing (R265). -/
theorem raiseFault_inv {code : FaultCode} (raised : code ≠ .winUnderflow) {s : State} (ranges : RangesOk s)
    (memories : MemoriesOk s) (port : s.port = none) : Inv (raiseFault code s) :=
  .of_idle rfl { ranges with } (raiseFault_memories code memories) (raiseFault_statusOk raised s) port

/-- Completion ends a running command (R190, R223). -/
theorem complete_inv {s : State} (ranges : RangesOk s) (memories : MemoriesOk s) (status : StatusOk s)
    (running : s.fsm ≠ .idle) (port : s.port = none) : Inv (complete s) := by
  obtain ⟨-, noFault, -⟩ := status.running (status.busy.2 running)
  refine .of_idle rfl { ranges with } { memories with } ?_ port
  constructor <;> simp [noFault, status.noCode noFault]

/-- `Emit` of a byte that fits keeps the ranges. -/
theorem emitted_ranges (b : Byte) {s : State} (h : RangesOk s) (fits : s.ol < s.par.outCap) : RangesOk (emitted b s) :=
  { h with ol := fits }

/-- `Emit` of a byte that fits keeps the memories canonical. -/
theorem emitted_memories (b : Byte) {s : State} (h : MemoriesOk s) (fits : s.ol < s.par.outCap) :
    MemoriesOk (emitted b s) :=
  winAppend_memories b (s := { outWrite s.ol b s with ol := s.ol + 1 }) { outWrite_memories b fits h with }

/-- A row of bytes that fits keeps the ranges. -/
theorem bytesWritten_ranges {xs : List Byte} {s : State} (h : RangesOk s)
    (fits : ∀ j < xs.length, s.ol + j < s.par.outCap) : RangesOk (bytesWritten xs s) := by
  have ol : s.ol + xs.length ≤ s.par.outCap := by
    cases xs with
    | nil => exact h.ol
    | cons x xs => exact fits xs.length (by simp)
  rw [bytesWritten_frame]
  exact { h with ol := ol }

/-- A row of bytes that fits keeps the memories canonical. -/
theorem bytesWritten_memories {xs : List Byte} {s : State} (h : MemoriesOk s)
    (fits : ∀ j < xs.length, s.ol + j < s.par.outCap) : MemoriesOk (bytesWritten xs s) := by
  have out := bytesWritten_wf xs s h.outBuf fits
  rw [bytesWritten_frame]
  exact { h with outBuf := out }

/-! ### Engine steps -/

/-- A count that is not 0 has a byte to come. -/
theorem rem_pos {s : State} (r : s.rem ≠ 0#16) : 1 ≤ s.rem.toNat := by
  by_contra h
  exact r (BitVec.eq_of_toNat_eq (by simp; omega))

/-- Reading `n` bytes of the stream keeps its end where it was. -/
theorem streamEnd_read {rem : BitVec 16} {n : Nat} (h : n ≤ rem.toNat) (rp : Nat) :
    rp + n + (rem - BitVec.ofNat 16 n).toNat = rp + rem.toNat := by
  have := rem.isLt
  rw [BitVec.toNat_sub, BitVec.toNat_ofNat]
  omega

theorem ctrlTaken_inv {s : State} (h : Inv s) (f : s.fsm = .dCtrl) (r : s.rem ≠ 0#16) (a : s.rp + 1 ≤ s.par.inCap) :
    Inv (ctrlTaken s) := by
  have ok := h.decompress (.inl f)
  have image := streamEnd_read (rem_pos r) s.rp
  exact .of_decompressing (.inr (.inl rfl)) { h.ranges with rp := a, bit := Nat.zero_le 8 } { h.memories with }
    (h.status.of_running (by simp [f]) nofun rfl rfl)
    { ok with image := ⟨image.trans_le ok.image.1, ok.image.2⟩, copy := nofun } h.port

theorem groupEnd_inv {s : State} (h : Inv s) (f : s.fsm = .dUnit) : Inv { s with fsm := .dCtrl } :=
  .of_decompressing (.inl rfl) { h.ranges with } { h.memories with } (h.status.of_running (by simp [f]) nofun rfl rfl)
    { h.decompress (.inr (.inl f)) with copy := nofun } h.port

/-- The literal unit, up to its `Emit`, keeps the invariant. -/
theorem litTaken_inv {s : State} (h : Inv s) (f : s.fsm = .dUnit) (r : s.rem ≠ 0#16) (b : s.bit ≠ 8)
    (a : s.rp + 1 ≤ s.par.inCap) : Inv (litTaken s) := by
  have ok := h.decompress (.inr (.inl f))
  have image := streamEnd_read (rem_pos r) s.rp
  have bit : s.bit + 1 ≤ 8 := by have := h.ranges.bit; omega
  exact .of_decompressing (.inr (.inl f)) { h.ranges with rp := a, bit := bit } { h.memories with }
    (h.status.of_running (by simp [f]) (by simp [litTaken, f]) rfl rfl)
    { ok with image := ⟨image.trans_le ok.image.1, ok.image.2⟩ } h.port

theorem brefTaken_inv {s : State} (h : Inv s) (f : s.fsm = .dUnit) (b : s.bit ≠ 8) (c : 2 ≤ s.rem.toNat)
    (a : s.rp + 2 ≤ s.par.inCap) : Inv (brefTaken s) := by
  have ok := h.decompress (.inr (.inl f))
  have image := streamEnd_read c s.rp
  have bit : s.bit + 1 ≤ 8 := by have := h.ranges.bit; omega
  have len : 3 ≤ (brefTaken s).len ∧ (brefTaken s).len ≤ 18 := by
    have := lengthCode_toNat (inByte s (s.rp + 1))
    simp only [brefTaken]
    omega
  exact .of_decompressing (.inr (.inr rfl)) { h.ranges with rp := a, bit := bit, len := len, k := Nat.zero_le 18 }
    { h.memories with } (h.status.of_running (by simp [f]) nofun rfl rfl)
    { ok with image := ⟨image.trans_le ok.image.1, ok.image.2⟩, copy := fun _ => by show 0 < (brefTaken s).len; omega }
    h.port

/-- `Emit` of a byte that fits keeps the invariant of a running DECOMPRESS. -/
theorem emitted_inv (b : Byte) {s : State} (h : Inv s) (f : decompressing s) (o : s.ol < s.par.outCap) :
    Inv (emitted b s) :=
  have running := running_of_decompressing f
  .of_decompressing f (emitted_ranges b h.ranges o) (emitted_memories b h.memories o)
    (h.status.of_running running running rfl rfl) { h.decompress f with } h.port

/-- A copy goes on until its last byte (R186). -/
theorem copied_fsm {s : State} (f : s.fsm = .dCopy) : (copied s).fsm = if s.k + 1 = s.len then .dUnit else .dCopy := by
  rw [← f]
  rfl

theorem copied_decompressing {s : State} (f : s.fsm = .dCopy) : decompressing (copied s) := by
  unfold decompressing
  rw [copied_fsm f]
  split <;> simp

theorem copied_inv {s : State} (h : Inv s) (f : s.fsm = .dCopy) (o : s.ol < s.par.outCap) : Inv (copied s) := by
  have k : s.k + 1 ≤ s.len := (h.decompress (.inr (.inr f))).copy f
  have e := emitted_inv (copyByte s) h (.inr (.inr f)) o
  have running := copied_decompressing f
  refine .of_decompressing running { e.ranges with k := k.trans h.ranges.len.2 } { e.memories with }
    (h.status.of_running (by simp [f]) (running_of_decompressing running) rfl rfl)
    { h.decompress (.inr (.inr f)) with copy := fun g => ?_ } h.port
  rw [copied_fsm f] at g
  refine Nat.lt_of_le_of_ne k fun full => ?_
  rw [if_pos (show s.k + 1 = s.len from full)] at g
  cases g

/-- At the end of the input a pending group is flushed first, else the header is patched (R214). -/
theorem inputEnd_compressing (s : State) : compressing { s with fsm := if 0 < s.nf then .cFlush else .cPatch } := by
  unfold compressing
  split <;> simp

theorem inputEnd_inv {s : State} (h : Inv s) (f : s.fsm = .cMatch) (p : s.pos = s.inLen.toNat) :
    Inv { s with fsm := if 0 < s.nf then .cFlush else .cPatch } := by
  have running := inputEnd_compressing s
  refine .of_compressing running { h.ranges with } { h.memories with }
    (h.status.of_running (by simp [f]) (running_of_compressing running) rfl rfl)
    { h.compress (.inl f) with cMatch := ?_, cFlush := ?_, cPatch := ?_ } h.port
  all_goals by_cases n : 0 < s.nf <;> simp [n, p]
  omega

/-- A decision that fills the group is followed by its flush (R214). -/
theorem decided_fsm {s : State} (f : s.fsm = .cMatch) (p : s.pos < s.inLen.toNat) :
    (decided s).fsm = if s.nf + 1 = 8 then .cFlush else .cMatch := by
  obtain ⟨_, _, _, _, _, _, _, e⟩ := decision_frame p
  rw [decided, e, ← f]

theorem decided_compressing {s : State} (f : s.fsm = .cMatch) (p : s.pos < s.inLen.toNat) : compressing (decided s) := by
  unfold compressing
  rw [decided_fsm f p]
  split <;> simp

theorem decided_inv {s : State} (h : Inv s) (f : s.fsm = .cMatch) (p : s.pos < s.inLen.toNat) : Inv (decided s) := by
  have ok := h.compress (.inl f)
  have nf := ok.cMatch f
  have group := ok.group
  have inCap := ok.input.2
  have running := decided_compressing f p
  have busy := running_of_compressing running
  have fsm := decided_fsm f p
  have cMatch : (decided s).fsm = .cMatch → s.nf + 1 < 8 := by
    rw [fsm]
    split
    · nofun
    · omega
  have cPatch : (decided s).fsm ≠ .cPatch := by rw [fsm]; split <;> nofun
  obtain ⟨n, g, xs, -, hpos, hxs, hxs', e⟩ := decision_frame p
  have win := winAppendAll_wf (inBytes s s.pos n) s h.memories.win
  unfold decided at running busy cMatch cPatch ⊢
  rw [e] at running busy cMatch cPatch ⊢
  exact .of_compressing running
    { h.ranges with pos := hpos.trans inCap, nf := nf, pl := by show s.pl + xs.length ≤ 16; omega }
    { h.memories with win := win } (h.status.of_running (by simp [f]) busy rfl rfl)
    { ok with
      input := ⟨hpos, inCap⟩
      group := by show s.nf + 1 ≤ s.pl + xs.length ∧ s.pl + xs.length ≤ 2 * (s.nf + 1); omega
      padding := addFlag_lit s.fl g s.nf ok.padding
      cMatch := cMatch
      cFlush := fun _ => Nat.succ_pos s.nf
      cPatch := fun g => absurd g cPatch } h.port

theorem flushed_inv {s : State} (h : Inv s) (f : s.fsm = .cFlush)
    (fits : ∀ j < (groupBytes s).length, s.ol + j < 65537 ∧ s.ol + j < s.par.outCap) : Inv (flushed s) := by
  have ok := h.compress (.inr (.inl f))
  have inCap : ∀ j < (groupBytes s).length, s.ol + j < s.par.outCap := fun j hj => (fits j hj).2
  have ranges := bytesWritten_ranges h.ranges inCap
  have memories := bytesWritten_memories h.memories inCap
  have ol : s.ol + (groupBytes s).length ≤ 65537 := (fits (s.pb.toList.take s.pl).length (by simp [groupBytes])).1
  unfold flushed
  rw [bytesWritten_frame] at ranges memories ⊢
  exact .of_compressing (.inl rfl) { ranges with nf := Nat.zero_le 8, pl := Nat.zero_le 16 } { memories with }
    (h.status.of_running (by simp [f]) nofun rfl rfl)
    { ok with
      payload := ⟨ok.payload.1.trans (Nat.le_add_right _ _), ol⟩
      group := ⟨Nat.le_refl 0, Nat.zero_le _⟩
      padding := Nat.zero_lt_one
      cMatch := fun _ => Nat.zero_lt_succ 7
      cFlush := nofun
      cPatch := nofun } h.port

/-- A flush that a fault ends (R219, R265). -/
theorem flushFull_inv {s : State} (h : Inv s) {n : Nat} {code : FaultCode} (stops : StopsAt s n code)
    (fits : ∀ j < n, s.ol + j < 65537 ∧ s.ol + j < s.par.outCap) :
    Inv (raiseFault code (bytesWritten ((groupBytes s).take n) s)) := by
  have raised : code ≠ .winUnderflow := by rcases stops with ⟨-, rfl⟩ | ⟨-, -, rfl⟩ <;> nofun
  have room : ∀ j < ((groupBytes s).take n).length, s.ol + j < s.par.outCap := fun j hj =>
    (fits j (hj.trans_le (List.length_take_le n _))).2
  exact raiseFault_inv raised (bytesWritten_ranges h.ranges room) (bytesWritten_memories h.memories room)
    (by rw [bytesWritten_frame]; exact h.port)

theorem patched_inv {s : State} (h : Inv s) (f : s.fsm = .cPatch) (o : 2 ≤ s.par.outCap) : Inv (patched s) := by
  have memories (b0 b1 : Byte) : MemoriesOk (outWrite 1 b1 (outWrite 0 b0 s)) :=
    outWrite_memories b1 o (outWrite_memories b0 (by omega) h.memories)
  exact complete_inv { h.ranges with } (memories _ _)
    (h.status.of_running (by simp [f]) (by simp [f]) rfl rfl) (by simp [f]) h.port

/-- Every move of the engine keeps the invariant. -/
theorem EngineMove.inv {s t : State} (m : EngineMove s t) (h : Inv s) : Inv t := by
  cases m with
  | rest => exact h
  | complete f =>
    exact complete_inv h.ranges h.memories h.status (by rcases f with f | f <;> simp [f]) h.port
  | ctrl f r a => exact ctrlTaken_inv h f r a
  | groupEnd f => exact groupEnd_inv h f
  | lit f r b g a o => exact emitted_inv _ (litTaken_inv h f r b a) (.inr (.inl f)) o
  | litFull f r b g a =>
    have t := litTaken_inv h f r b a
    exact raiseFault_inv (by decide) t.ranges t.memories t.port
  | brefCut f r b =>
    have bit : s.bit + 1 ≤ 8 := by have := h.ranges.bit; omega
    exact raiseFault_inv (by decide) { h.ranges with bit := bit } { h.memories with } h.port
  | bref f r b g c a => exact brefTaken_inv h f b c a
  | copy f o => exact copied_inv h f o
  | copyFull => exact raiseFault_inv (by decide) h.ranges h.memories h.port
  | inputEnd f a p => exact inputEnd_inv h f p
  | decide f a p => exact decided_inv h f p
  | flush f fits => exact flushed_inv h f fits
  | flushFull f n hn code stops fits => exact flushFull_inv h stops fits
  | patch f o => exact patched_inv h f o

/-! ### CMD writes, host accesses and the reset -/

/-- A machine with BUSY = 0 is idle (R23). -/
theorem Inv.idle_of_not_busy {s : State} (h : Inv s) (b : s.status.busy = false) : s.fsm = .idle := by
  by_contra f
  have := h.status.busy.2 f
  simp [b] at this

/-- Seeding an accepted command keeps the ranges. -/
theorem seed_accept_ranges {s : State} (h : RangesOk s) : RangesOk (seed (accept s)) := { h with }

/-- Seeding an accepted command keeps the memories canonical. -/
theorem seed_accept_memories {s : State} (h : MemoriesOk s) : MemoriesOk (seed (accept s)) :=
  seed_memories (s := accept s) { h with }

/-- An accepted DECOMPRESS starts with its whole image inside IN (R176, R242). -/
theorem headerTaken_inv {s : State} (h : Inv s) {size : BitVec 16} (l : s.inLen.toNat ≤ s.par.inCap)
    (i : s.start.toNat + 2 + size.toNat ≤ s.inLen.toNat) : Inv (headerTaken size (seed (accept s))) :=
  .of_decompressing (.inl rfl)
    { seed_accept_ranges h.ranges with
      rp := by show s.start.toNat + 2 ≤ s.par.inCap; omega
      ol := Nat.zero_le _ }
    { seed_accept_memories h.memories with } (statusOk_of_accepted nofun rfl rfl)
    { seeded := rfl, image := ⟨i, l⟩, copy := nofun } h.port

/-- An accepted COMPRESS starts with an empty group and the header's two bytes reserved (R212, R243). -/
theorem startCompress_inv {s : State} (h : Inv s) (l : s.inLen.toNat ≤ s.par.inCap) :
    Inv (startCompress (seed (accept s))) := by
  obtain ⟨-, -, -, -, -, -, outCap, -⟩ := h.ranges.par
  exact .of_compressing (.inl rfl)
    { seed_accept_ranges h.ranges with
      ol := outCap, pos := Nat.zero_le _, nf := Nat.zero_le 8, pl := Nat.zero_le 16 }
    { seed_accept_memories h.memories with } (statusOk_of_accepted nofun rfl rfl)
    { seeded := rfl
      input := ⟨Nat.zero_le _, l⟩
      payload := ⟨Nat.le_refl 2, by show 2 ≤ 65537; omega⟩
      group := ⟨Nat.le_refl 0, Nat.zero_le _⟩
      padding := Nat.zero_lt_one
      cMatch := fun _ => Nat.zero_lt_succ 7
      cFlush := nofun
      cPatch := nofun } h.port

/-- Every move of a command keeps the invariant. -/
theorem CommandMove.inv {s t : State} (m : CommandMove s t) (h : Inv s) : Inv t := by
  cases m with
  | nop => exact h
  | badCmd => exact raiseFault_inv (by decide) h.ranges h.memories h.port
  | badLen => exact raiseFault_inv (by decide) (s := accept s) { h.ranges with } { h.memories with } h.port
  | startRange => exact raiseFault_inv (by decide) (seed_accept_ranges h.ranges) (seed_accept_memories h.memories) h.port
  | hdrOverrun => exact raiseFault_inv (by decide) (seed_accept_ranges h.ranges) (seed_accept_memories h.memories) h.port
  | decompress l i => exact headerTaken_inv h l i
  | compress l => exact startCompress_inv h l

/-- A write of CFG, IN_LEN or START is refused while BUSY = 1 (R306). -/
theorem onRegWrite_cases {s u t : State} (h : onRegWrite s u = .next t) : s.status.busy = false ∧ t = u := by
  unfold onRegWrite at h
  split at h
  · cases h
  · rename_i b
    cases h
    exact ⟨by simpa using b, rfl⟩

/-- What the host writes of CFG, IN_LEN and START while the engine is idle is no part of the invariant. -/
theorem Inv.registers {s : State} (h : Inv s) (b : s.status.busy = false) (hdrBe : Bool) (inLen start : Word) :
    Inv { s with hdrBe := hdrBe, inLen := inLen, start := start } :=
  .of_idle (h.idle_of_not_busy b) { h.ranges with } { h.memories with } { h.status with } h.port

/-- The schedule, the host's latch and the draw of OUT bytes are no part of the invariant. -/
theorem Inv.outside {s : State} (h : Inv s) (inputs : List Input) (hostData : Word) (epoch : Nat) :
    Inv { s with inputs := inputs, hostData := hostData, epoch := epoch } where
  ranges := { h.ranges with }
  memories := { h.memories with }
  status := { h.status with }
  decompress := fun f => { h.decompress f with }
  compress := fun f => { h.compress f with }
  port := h.port

theorem dropInput_inv {s : State} (h : Inv s) : Inv (dropInput s) := h.outside _ _ _

theorem newEpoch_inv {s : State} (h : Inv s) : Inv (newEpoch s) := h.outside _ _ _

theorem hostReceives_inv (v : Word) {s : State} (h : Inv s) : Inv (hostReceives v s) := h.outside _ _ _

/-- A write of IN while the engine is idle. -/
theorem inWrite_inv {s : State} (h : Inv s) (b : s.status.busy = false) {offset : Nat} (inside : offset < s.par.inCap)
    (v : Byte) : Inv { s with inBuf := memWrite none s.inBuf offset v } :=
  .of_idle (h.idle_of_not_busy b) { h.ranges with } (inWrite_memories v inside h.memories) { h.status with } h.port

/-- Every register write that is not refused keeps the invariant. -/
theorem regWrite_inv {offset : Nat} {v : Word} {s t : State} (h : Inv s) (w : regWrite offset v s = .next t) : Inv t := by
  unfold regWrite at w
  split_ifs at w
  · exact (exec_decodeCommand_cases w).2.inv h
  · obtain ⟨b, rfl⟩ := onRegWrite_cases w
    exact h.registers b _ _ _
  · obtain ⟨b, rfl⟩ := onRegWrite_cases w
    exact h.registers b _ _ _
  · obtain ⟨b, rfl⟩ := onRegWrite_cases w
    exact h.registers b _ _ _
  · cases w
    exact h

/-- Every host action that is not refused keeps the invariant. -/
theorem hostAct_inv {a : HostAction} {s t : State} (h : Inv s) (e : hostAct a s = .next t) : Inv t := by
  cases a <;> simp only [hostAct] at e
  case readReg =>
    split at e <;> cases e
    exact hostReceives_inv _ h
  case writeReg =>
    split at e
    · exact regWrite_inv h e
    · cases e
  case readIn =>
    split at e <;> cases e
    exact hostReceives_inv _ h
  case writeIn offset v =>
    split at e
    · cases e
    · rename_i b
      split at e <;> cases e
      exact inWrite_inv h (by simpa using b) (by assumption) v
  case readOut =>
    split at e <;> cases e
    exact hostReceives_inv _ h
  case writeOut => cases e

/-- The engine's turn keeps the invariant: no window-port word stands alone, so it is a step of R301. -/
theorem engineTurn_inv {s t : State} (h : Inv s) (e : engineTurn s = .next t) : Inv t := by
  unfold engineTurn at e
  split at e
  · cases e
    exact h
  · rw [h.port] at e
    exact (engineStep_cases e).inv (newEpoch_inv h)

/-- A reset leaves every register in its range, given the parameters in theirs (R290; logs 1 and 2). -/
theorem afterReset_inv {par : Params} (h : par.wf) (inputs : List Input) (resets epoch : Nat) :
    Inv (State.afterReset par inputs resets epoch) := by
  refine .of_idle rfl ?_ ⟨wf_nil _ _, wf_nil _ _, wf_nil _ _⟩ ?_ rfl
  · have bit := (Config.unspecified resets).bit.isLt
    have len := (Config.unspecified resets).lenCode.isLt
    have k := (Config.unspecified resets).k.isLt
    have nf := (Config.unspecified resets).nf.isLt
    have pl := (Config.unspecified resets).pl.isLt
    constructor <;> simp only [State.afterReset]
    case par => exact h
    all_goals omega
  · constructor <;> simp [State.afterReset]

theorem transition_inv {x : Input} {s t : State} (h : Inv s) (e : transition x s = .next t) : Inv t := by
  cases x with
  | tick => exact engineTurn_inv h e
  | host a =>
    refine hostAct_inv ?_ e
    split
    · exact newEpoch_inv h
    · exact h
  | reset =>
    cases e
    exact afterReset_inv h.ranges.par _ _ _

/-- The parameters `State.reset` stands for lie in their ranges (R10 to R13; log 1). -/
theorem params_wf : Config.params.wf := by
  have seedByte := Config.seedByteLessOne.isLt
  have seedCursor := Config.seedCursorLessOne.isLt
  have lookahead := Config.lookaheadLessThree.isLt
  have inCap := Config.inCapLessTwo.isLt
  have outCap := Config.outCapLessTwo.isLt
  refine ⟨?_, ?_, ?_⟩
  · simp only [Config.params]; bv_omega
  · simp only [Config.params]; bv_omega
  · simp only [Config.params]; omega

/-- Settles O49: each of the three events of R300 keeps the invariant. -/
theorem stepKeepsInv : Obligations.StepKeepsInv := fun _ _ h e => transition_inv (dropInput_inv h) e

/-- Settles O48: the reset state is idle, with every register in its range and no result. -/
theorem resetMeetsInv : Obligations.ResetMeetsInv :=
  ⟨afterReset_inv params_wf _ _ _, { decompress := nofun, compress := nofun, done := nofun }⟩

end Sys2Proof.Machine
end

section
/-! What engine steps leave alone (R7, R59, R67). -/

namespace Sys2Proof.Machine

/-- No move of the engine changes what the host and the platform hold: IN, the registers the host writes, the parameters, the
schedule, and the model's latches (R7, R59, R67). -/
theorem EngineMove.host_frame {s t : State} (m : EngineMove s t) :
    t.inBuf = s.inBuf ∧ t.inLen = s.inLen ∧ t.start = s.start ∧ t.hdrBe = s.hdrBe ∧ t.par = s.par ∧
      t.inputs = s.inputs ∧ t.resets = s.resets ∧ t.hostData = s.hostData ∧ t.portData = s.portData := by
  cases m
  case decide p =>
    obtain ⟨_, _, _, _, _, _, _, e⟩ := decision_frame p
    rw [decided, e]
    exact ⟨rfl, rfl, rfl, rfl, rfl, rfl, rfl, rfl, rfl⟩
  case flush =>
    rw [flushed, bytesWritten_frame]
    exact ⟨rfl, rfl, rfl, rfl, rfl, rfl, rfl, rfl, rfl⟩
  case flushFull =>
    rw [bytesWritten_frame]
    exact ⟨rfl, rfl, rfl, rfl, rfl, rfl, rfl, rfl, rfl⟩
  all_goals exact ⟨rfl, rfl, rfl, rfl, rfl, rfl, rfl, rfl, rfl⟩

/-- `Emit` writes its byte at OL and leaves the rest of OUT. -/
theorem emitted_lookup (b : Byte) (s : State) (a : Nat) :
    memLookup (emitted b s).outBuf a = if a = s.ol then some b else memLookup s.outBuf a :=
  memLookup_write s.outBuf s.ol b a

/-- `Emit` leaves OUT outside the byte from the old OL to the new one. -/
theorem emitted_lookup_outside (b : Byte) {s : State} {a : Nat} (h : a < s.ol ∨ s.ol + 1 ≤ a) :
    memLookup (emitted b s).outBuf a = memLookup s.outBuf a := by
  rw [emitted_lookup, if_neg (by omega)]

theorem bytesWritten_ol (xs : List Byte) (s : State) : (bytesWritten xs s).ol = s.ol + xs.length := by
  rw [bytesWritten_frame]

/-- A row of bytes leaves OUT outside the bytes from the old OL to the new one. -/
theorem bytesWritten_lookup_outside (xs : List Byte) {s : State} {a : Nat}
    (h : a < s.ol ∨ (bytesWritten xs s).ol ≤ a) : memLookup (bytesWritten xs s).outBuf a = memLookup s.outBuf a := by
  rw [bytesWritten_ol] at h
  rw [bytesWritten_lookup, if_neg (by omega)]

/-- But for C_PATCH, no move changes OUT outside the bytes from the old OL to the new one. -/
theorem EngineMove.out_frame {s t : State} (m : EngineMove s t) (f : s.fsm ≠ .cPatch) {a : Nat} (h : a < s.ol ∨ t.ol ≤ a) :
    memLookup t.outBuf a = memLookup s.outBuf a := by
  cases m
  case lit => exact emitted_lookup_outside _ (s := litTaken s) h
  case copy => exact emitted_lookup_outside _ h
  case decide p =>
    obtain ⟨_, _, _, _, _, _, _, e⟩ := decision_frame p
    rw [decided, e]
  case flush => exact bytesWritten_lookup_outside _ h
  case flushFull => exact bytesWritten_lookup_outside _ h
  case patch g _ => exact absurd g f
  all_goals rfl

/-- Settles O47: every move of the engine writes registers of its own, and OUT from OL on. -/
theorem engineStepsKeepTheInput : Obligations.EngineStepsKeepTheInput := by
  intro s t h
  have m := engineStep_cases h
  obtain ⟨inBuf, inLen, start, hdrBe, par, inputs, resets, hostData, portData⟩ := m.host_frame
  exact ⟨inBuf, inLen, start, hdrBe, par, inputs, resets, hostData, portData, fun f _ => m.out_frame f⟩

end Sys2Proof.Machine
end

section
/-! Noninterference: two machines in the same place of the same command stay in the same place of it, step by step, and acceptance
puts two machines with the same inputs there. -/

namespace Sys2Proof.Machine

/-! ### The same place of a DECOMPRESS, of a COMPRESS, and of no command -/

/-- The part of `SameCommand` about the parameters. -/
abbrev sameParams (s t : State) : Prop :=
  s.par.seedByte = t.par.seedByte ∧ s.par.inCap = t.par.inCap ∧ s.par.outCap = t.par.outCap

/-- What `SameCommand` says of machines that run DECOMPRESS. -/
structure SameStream (s t : State) : Prop where
  par : sameParams s t
  status : s.status = t.status ∧ s.outLen = t.outLen ∧ s.fsm = t.fsm
  window : s.seeded = true ∧ t.seeded = true ∧ s.win = t.win ∧ s.cur = t.cur ∧ s.ol = t.ol
  stream : s.rem = t.rem ∧ s.rp = t.rp
  image : ∀ a, s.rp ≤ a → a < s.rp + s.rem.toNat → inByte s a = inByte t a
  flags : s.fsm = .dUnit ∨ s.fsm = .dCopy → s.ctrl = t.ctrl ∧ s.bit = t.bit
  copy : s.fsm = .dCopy → s.src = t.src ∧ s.len = t.len ∧ s.k = t.k
  written : ∀ a < s.ol, memLookup s.outBuf a = memLookup t.outBuf a
  results : s.status.done = true → ∀ a < s.outLen.toNat, memLookup s.outBuf a = memLookup t.outBuf a

/-- What `SameCommand` says of machines that run COMPRESS. -/
structure SameInput (s t : State) : Prop where
  par : sameParams s t
  status : s.status = t.status ∧ s.outLen = t.outLen ∧ s.fsm = t.fsm
  window : s.seeded = true ∧ t.seeded = true ∧ s.win = t.win ∧ s.cur = t.cur ∧ s.ol = t.ol
  operands : s.par.lookahead = t.par.lookahead ∧ s.hdrBe = t.hdrBe ∧ s.inLen = t.inLen ∧ s.pos = t.pos
  input : ∀ a, s.pos ≤ a → a < s.inLen.toNat → inByte s a = inByte t a
  group : s.fl = t.fl ∧ s.nf = t.nf ∧ s.pl = t.pl ∧ ∀ j < s.pl, s.pb[j]? = t.pb[j]?
  payload : ∀ a < s.ol, 2 ≤ a → memLookup s.outBuf a = memLookup t.outBuf a
  results : s.status.done = true → ∀ a < s.outLen.toNat, memLookup s.outBuf a = memLookup t.outBuf a

theorem not_compressing_of_decompressing {s : State} (f : decompressing s) : ¬ compressing s := by
  rcases f with f | f | f <;> simp [f]

theorem SameStream.ol {s t : State} (h : SameStream s t) : s.ol = t.ol := by
  obtain ⟨-, -, -, -, ol⟩ := h.window
  exact ol

theorem SameInput.ol {s t : State} (h : SameInput s t) : s.ol = t.ol := by
  obtain ⟨-, -, -, -, ol⟩ := h.window
  exact ol

theorem SameInput.pos {s t : State} (h : SameInput s t) : s.pos = t.pos := by
  obtain ⟨-, -, -, pos⟩ := h.operands
  exact pos

theorem SameCommand.sameStream {s t : State} (h : SameCommand s t) (f : decompressing s) : SameStream s t where
  par := h.par
  status := h.status
  window := h.window (running_of_decompressing f)
  stream := h.stream f
  image := h.image f
  flags := h.flags
  copy := h.copy
  written := h.written f
  results := h.results

theorem SameStream.sameCommand {s t : State} (h : SameStream s t) (f : decompressing s) : SameCommand s t where
  par := h.par
  status := h.status
  window := fun _ => h.window
  stream := fun _ => h.stream
  image := fun _ => h.image
  flags := h.flags
  copy := h.copy
  operands := fun g => absurd g (not_compressing_of_decompressing f)
  input := fun g => absurd g (not_compressing_of_decompressing f)
  group := fun g => absurd g (not_compressing_of_decompressing f)
  written := fun _ => h.written
  payload := fun g => absurd g (not_compressing_of_decompressing f)
  results := h.results

theorem SameCommand.sameInput {s t : State} (h : SameCommand s t) (f : compressing s) : SameInput s t where
  par := h.par
  status := h.status
  window := h.window (running_of_compressing f)
  operands := h.operands f
  input := h.input f
  group := h.group f
  payload := h.payload f
  results := h.results

theorem SameInput.sameCommand {s t : State} (h : SameInput s t) (f : compressing s) : SameCommand s t where
  par := h.par
  status := h.status
  window := fun _ => h.window
  stream := fun g => absurd f (not_compressing_of_decompressing g)
  image := fun g => absurd f (not_compressing_of_decompressing g)
  flags := by rcases f with f | f | f <;> simp [f]
  copy := by rcases f with f | f | f <;> simp [f]
  operands := fun _ => h.operands
  input := fun _ => h.input
  group := fun _ => h.group
  written := fun g => absurd f (not_compressing_of_decompressing g)
  payload := fun _ => h.payload
  results := h.results

/-- Idle machines are told apart by STATUS, OUT_LEN and the result alone. -/
theorem sameCommand_of_idle {s t : State} (fs : s.fsm = .idle) (ft : t.fsm = .idle) (par : sameParams s t)
    (status : s.status = t.status) (outLen : s.outLen = t.outLen)
    (results : s.status.done = true → ∀ a < s.outLen.toNat, memLookup s.outBuf a = memLookup t.outBuf a) :
    SameCommand s t where
  par := par
  status := ⟨status, outLen, fs.trans ft.symm⟩
  window := by simp [fs]
  stream := by simp [fs]
  image := by simp [fs]
  flags := by simp [fs]
  copy := by simp [fs]
  operands := by simp [fs]
  input := by simp [fs]
  group := by simp [fs]
  written := by simp [fs]
  payload := by simp [fs]
  results := results

/-- A fault leaves nothing of the command behind (R265). -/
theorem sameCommand_raiseFault (code : FaultCode) {s t : State} (par : sameParams s t) :
    SameCommand (raiseFault code s) (raiseFault code t) :=
  sameCommand_of_idle rfl rfl par rfl rfl nofun

/-- Completion shows the host the bytes below OL (R190, R223). -/
theorem sameCommand_complete {s t : State} (par : sameParams s t) (status : s.status = t.status) (ol : s.ol = t.ol)
    (written : ∀ a < s.ol, memLookup s.outBuf a = memLookup t.outBuf a) : SameCommand (complete s) (complete t) := by
  refine sameCommand_of_idle rfl rfl par (by simp [status]) (by simp [ol]) fun _ a ha => written a ?_
  rw [complete_outLen, BitVec.toNat_ofNat] at ha
  exact ha.trans_le (Nat.mod_le _ _)

/-! ### The window and the input, as two machines in the same place see them -/

/-- Once seeded, an unlisted index holds the seed byte, whatever came before (R100). -/
theorem winDefault_seeded {s : State} (h : s.seeded = true) : winDefault s = some s.par.seedByte := if_pos h

theorem winDefault_congr {s t : State} (hs : s.seeded = true) (ht : t.seeded = true)
    (par : s.par.seedByte = t.par.seedByte) : winDefault s = winDefault t := by
  rw [winDefault_seeded hs, winDefault_seeded ht, par]

/-- A seeded window shows no byte of before the seeding. -/
theorem winByte_congr_seeded {s t : State} (hs : s.seeded = true) (ht : t.seeded = true) (win : s.win = t.win)
    (par : s.par.seedByte = t.par.seedByte) : winByte s = winByte t := by
  funext i
  cases e : memLookup t.win i <;> simp [winByte, memRead, winDefault_seeded, hs, ht, win, par, e]

/-- What a row of appends leaves in WIN depends on WIN, CUR and what unlisted indices hold. -/
theorem winAppendAll_win_eq (bs : List Byte) {s t : State} (dflt : winDefault s = winDefault t) (win : s.win = t.win)
    (cur : s.cur = t.cur) : (winAppendAll bs s).win = (winAppendAll bs t).win := by
  induction bs generalizing s t with
  | nil => exact win
  | cons b bs ih => exact ih dflt (by simp [dflt, win, cur]) (by simp [cur])

theorem inBytes_congr {s t : State} {a n : Nat} (h : ∀ j < n, inByte s (a + j) = inByte t (a + j)) :
    inBytes s a n = inBytes t a n :=
  List.map_congr_left fun j hj => h j (List.mem_range.1 hj)

/-! ### Steps of DECOMPRESS -/

/-- While a byte is to come, the one at RP is the same. -/
theorem byteAtRp_eq {s t : State} (h : SameStream s t) (r : s.rem ≠ 0#16) : inByte s s.rp = inByte t t.rp := by
  rw [← h.stream.2]
  exact h.image _ (Nat.le_refl _) (Nat.lt_add_of_pos_right (rem_pos r))

/-- The flag of the next unit is the same (R120). -/
theorem nextFlag_eq {s t : State} (h : SameStream s t) (f : s.fsm = .dUnit) : nextFlag s = nextFlag t := by
  obtain ⟨ctrl, bit⟩ := h.flags (.inl f)
  rw [nextFlag, nextFlag, ctrl, bit]

theorem ctrlTaken_sameStream {s t : State} (h : SameStream s t) (r : s.rem ≠ 0#16) :
    SameStream (ctrlTaken s) (ctrlTaken t) := by
  obtain ⟨rem, rp⟩ := h.stream
  have stream_end := streamEnd_read (rem_pos r) s.rp
  exact
    { h with
      status := ⟨h.status.1, h.status.2.1, rfl⟩
      stream := ⟨congrArg (· - 1#16) rem, congrArg (· + 1) rp⟩
      image := fun a lo hi => h.image a (Nat.le_of_succ_le lo) (hi.trans_eq stream_end)
      flags := fun _ => ⟨byteAtRp_eq h r, rfl⟩
      copy := nofun }

theorem groupEnd_sameStream {s t : State} (h : SameStream s t) :
    SameStream { s with fsm := .dCtrl } { t with fsm := .dCtrl } :=
  { h with status := ⟨h.status.1, h.status.2.1, rfl⟩, flags := nofun, copy := nofun }

theorem litTaken_sameStream {s t : State} (h : SameStream s t) (f : s.fsm = .dUnit) (r : s.rem ≠ 0#16) :
    SameStream (litTaken s) (litTaken t) := by
  obtain ⟨rem, rp⟩ := h.stream
  obtain ⟨ctrl, bit⟩ := h.flags (.inl f)
  have stream_end := streamEnd_read (rem_pos r) s.rp
  exact
    { h with
      stream := ⟨congrArg (· - 1#16) rem, congrArg (· + 1) rp⟩
      image := fun a lo hi => h.image a (Nat.le_of_succ_le lo) (hi.trans_eq stream_end)
      flags := fun _ => ⟨ctrl, congrArg (· + 1) bit⟩ }

theorem brefTaken_sameStream {s t : State} (h : SameStream s t) (f : s.fsm = .dUnit) (c : 2 ≤ s.rem.toNat) :
    SameStream (brefTaken s) (brefTaken t) := by
  obtain ⟨rem, rp⟩ := h.stream
  obtain ⟨ctrl, bit⟩ := h.flags (.inl f)
  have stream_end := streamEnd_read c s.rp
  have low : inByte s s.rp = inByte t t.rp := by rw [← rp]; exact h.image _ (Nat.le_refl _) (by omega)
  have high : inByte s (s.rp + 1) = inByte t (t.rp + 1) := by rw [← rp]; exact h.image _ (by omega) (by omega)
  exact
    { h with
      status := ⟨h.status.1, h.status.2.1, rfl⟩
      stream := ⟨congrArg (· - 2#16) rem, congrArg (· + 2) rp⟩
      image := fun a lo hi => h.image a (Nat.le_trans (Nat.le_add_right _ 2) lo) (hi.trans_eq stream_end)
      flags := fun _ => ⟨ctrl, congrArg (· + 1) bit⟩
      copy := fun _ => ⟨by simp only [brefTaken, low, high], by simp only [brefTaken, high], rfl⟩ }

/-- `Emit` of the same byte. -/
theorem emitted_sameStream {s t : State} (h : SameStream s t) (b : Byte) : SameStream (emitted b s) (emitted b t) := by
  obtain ⟨hs, ht, win, cur, ol⟩ := h.window
  have same {a : Nat} (e : memLookup s.outBuf a = memLookup t.outBuf a) :
      memLookup (emitted b s).outBuf a = memLookup (emitted b t).outBuf a := by
    simp only [emitted_lookup, ol, e]
  refine
    { h with
      window := ⟨hs, ht, ?_, congrArg (· + 1#12) cur, congrArg (· + 1) ol⟩
      written := fun a ha => ?_
      results := fun d a ha => same (h.results d a ha) }
  · show memWrite (winDefault s) s.win s.cur.toNat b = memWrite (winDefault t) t.win t.cur.toNat b
    rw [winDefault_congr hs ht h.par.1, win, cur]
  · by_cases e : a = s.ol
    · simp only [emitted_lookup, ← ol, e, if_true]
    · exact same (h.written a (Nat.lt_of_le_of_ne (Nat.le_of_lt_succ ha) e))

/-- A copy step reads the same index of the same window. -/
theorem copyByte_eq {s t : State} (h : SameStream s t) (f : s.fsm = .dCopy) : copyByte s = copyByte t := by
  obtain ⟨hs, ht, win, -, -⟩ := h.window
  obtain ⟨src, -, k⟩ := h.copy f
  simp only [copyByte, winGet, winByte_congr_seeded hs ht win h.par.1, src, k]

theorem copied_sameStream {s t : State} (h : SameStream s t) (f : s.fsm = .dCopy) : SameStream (copied s) (copied t) := by
  obtain ⟨src, len, k⟩ := h.copy f
  have e := emitted_sameStream h (copyByte s)
  have fsm : (copied s).fsm = (copied t).fsm := by
    simp only [copied, k, len, h.status.2.2]
  unfold copied at fsm ⊢
  rw [← copyByte_eq h f]
  exact
    { e with
      status := ⟨e.status.1, e.status.2.1, fsm⟩
      flags := fun _ => h.flags (.inr f)
      copy := fun _ => ⟨src, len, congrArg (· + 1) k⟩ }

/-! ### Steps of COMPRESS -/

/-- What the match finder is asked is the same (R140, R141). -/
theorem matchQuery_eq {s t : State} (h : SameInput s t) : matchQuery s = matchQuery t := by
  obtain ⟨hs, ht, win, cur, -⟩ := h.window
  obtain ⟨lookahead, -, inLen, pos⟩ := h.operands
  have ahead : lookaheadBytes s = lookaheadBytes t := by
    rw [lookaheadBytes, lookaheadBytes, ← lookahead, ← inLen, ← pos]
    exact inBytes_congr fun j hj => h.input _ (by omega) (by omega)
  rw [matchQuery, matchQuery, winByte_congr_seeded hs ht win h.par.1, cur, ahead]

/-- The bytes of input that a decision takes are the same. -/
theorem inBytes_eq {s t : State} (h : SameInput s t) {n : Nat} (below : s.pos + n ≤ s.inLen.toNat) :
    inBytes s s.pos n = inBytes t t.pos n := by
  rw [← h.pos]
  exact inBytes_congr fun j hj => h.input _ (by omega) (by omega)

/-- The group's payload stays the same under the same decision. -/
theorem addPayload_congr (xs : List Byte) {s t : State} (pl : s.pl = t.pl) (pb : ∀ j < s.pl, s.pb[j]? = t.pb[j]?) :
    ∀ j < s.pl + xs.length, (addPayload xs s).pb[j]? = (addPayload xs t).pb[j]? := by
  induction xs generalizing s t with
  | nil => exact pb
  | cons x xs ih =>
    rw [List.length_cons, Nat.add_comm xs.length 1, ← Nat.add_assoc]
    refine ih (s := { s with pb := s.pb.setIfInBounds s.pl x, pl := s.pl + 1 })
      (t := { t with pb := t.pb.setIfInBounds t.pl x, pl := t.pl + 1 }) (congrArg (· + 1) pl) fun j hj => ?_
    simp only [Vector.getElem?_setIfInBounds, ← pl]
    split
    · rfl
    · exact pb j (by have : j < s.pl + 1 := hj; omega)

/-- A decision with flag `f` and payload `xs` that takes the bytes `bs` of the input (R215, R216). -/
def decisionTaken (f : Bool) (xs bs : List Byte) (s : State) : State :=
  { s with
    fl := s.fl ||| ((BitVec.ofBool f).setWidth 8 <<< s.nf)
    nf := s.nf + 1
    pl := s.pl + xs.length
    pb := (addPayload xs s).pb
    pos := s.pos + bs.length
    win := (winAppendAll bs s).win
    cur := s.cur + BitVec.ofNat 12 bs.length }

theorem litDecision_eq (s : State) : litDecision s = decisionTaken true [inByte s s.pos] [inByte s s.pos] s := by
  simp only [litDecision, addDecision_frame]
  rfl

theorem refDecision_eq (m : Match) (s : State) :
    refDecision m s =
      decisionTaken false (descriptor (BitVec.ofNat 12 m.index) m.length) (inBytes s s.pos m.length) s := by
  simp only [refDecision, addDecision_frame, decisionTaken]
  rw [winAppendAll_frame]
  simp only [inBytes, List.length_map, List.length_range]
  congr 1
  exact winAppendAll_win_eq _ rfl rfl rfl

theorem decisionTaken_sameInput {s t : State} (h : SameInput s t) (f : Bool) (xs bs : List Byte) :
    SameInput (decisionTaken f xs bs s) (decisionTaken f xs bs t) := by
  obtain ⟨hs, ht, win, cur, ol⟩ := h.window
  obtain ⟨lookahead, hdrBe, inLen, pos⟩ := h.operands
  obtain ⟨fl, nf, pl, pb⟩ := h.group
  exact
    { h with
      window := ⟨hs, ht, winAppendAll_win_eq bs (winDefault_congr hs ht h.par.1) win cur,
        congrArg (· + BitVec.ofNat 12 bs.length) cur, ol⟩
      operands := ⟨lookahead, hdrBe, inLen, congrArg (· + bs.length) pos⟩
      input := fun a lo hi => h.input a (Nat.le_trans (Nat.le_add_right _ bs.length) lo) hi
      group := ⟨by simp only [decisionTaken, fl, nf], congrArg (· + 1) nf, congrArg (· + xs.length) pl,
        addPayload_congr xs pl pb⟩ }

/-- The decision at POS is the same one. -/
theorem decision_sameInput {s t : State} (h : SameInput s t) (p : s.pos < s.inLen.toNat) :
    SameInput (decision s) (decision t) := by
  unfold decision
  rw [← matchQuery_eq h]
  cases e : matchQuery s with
  | none =>
    have byte : inByte s s.pos = inByte t t.pos := by rw [← h.pos]; exact h.input _ (Nat.le_refl _) p
    simp only [litDecision_eq, ← byte]
    exact decisionTaken_sameInput h _ _ _
  | some m =>
    have short := (matchFind_range e).2.1
    rw [lookaheadBytes_length] at short
    simp only [refDecision_eq, ← inBytes_eq h (n := m.length) (by omega)]
    exact decisionTaken_sameInput h _ _ _

theorem decided_sameInput {s t : State} (h : SameInput s t) (p : s.pos < s.inLen.toNat) :
    SameInput (decided s) (decided t) := by
  have d := decision_sameInput h p
  exact { d with status := ⟨d.status.1, d.status.2.1, by simp only [decided, d.group.2.1, d.status.2.2]⟩ }

theorem inputEnd_sameInput {s t : State} (h : SameInput s t) :
    SameInput { s with fsm := if 0 < s.nf then .cFlush else .cPatch } { t with fsm := if 0 < t.nf then .cFlush else .cPatch } :=
  { h with status := ⟨h.status.1, h.status.2.1, by simp only [h.group.2.1]⟩ }

/-- The pending group is the same row of bytes (R122). -/
theorem groupBytes_eq {s t : State} (h : SameInput s t) : groupBytes s = groupBytes t := by
  obtain ⟨fl, -, pl, pb⟩ := h.group
  have payload : s.pb.toList.take s.pl = t.pb.toList.take s.pl := by
    refine List.ext_getElem? fun j => ?_
    rw [List.getElem?_take, List.getElem?_take]
    split
    · simpa using pb j (by assumption)
    · rfl
  rw [groupBytes, groupBytes, fl, payload, pl]

/-- Writing the same byte at the same place of OUT keeps two machines equal wherever they were. -/
theorem outByteWritten_lookup_congr (x : Byte) {s t : State} (ol : s.ol = t.ol) {a : Nat}
    (e : memLookup s.outBuf a = memLookup t.outBuf a) :
    memLookup (outByteWritten x s).outBuf a = memLookup (outByteWritten x t).outBuf a := by
  simp only [outByteWritten, outWrite_outBuf, memLookup_write, ol, e]

theorem outByteWritten_sameInput {s t : State} (h : SameInput s t) (x : Byte) :
    SameInput (outByteWritten x s) (outByteWritten x t) := by
  obtain ⟨hs, ht, win, cur, ol⟩ := h.window
  refine
    { h with
      window := ⟨hs, ht, win, cur, congrArg (· + 1) ol⟩
      payload := fun a ha lo => ?_
      results := fun d a ha => outByteWritten_lookup_congr x ol (h.results d a ha) }
  by_cases e : a = s.ol
  · simp only [outByteWritten, outWrite_outBuf, memLookup_write, ← ol, e, if_true]
  · exact outByteWritten_lookup_congr x ol (h.payload a (Nat.lt_of_le_of_ne (Nat.le_of_lt_succ ha) e) lo)

theorem bytesWritten_sameInput (xs : List Byte) {s t : State} (h : SameInput s t) :
    SameInput (bytesWritten xs s) (bytesWritten xs t) := by
  induction xs generalizing s t with
  | nil => exact h
  | cons x xs ih => exact ih (outByteWritten_sameInput h x)

theorem flushed_sameInput {s t : State} (h : SameInput s t) : SameInput (flushed s) (flushed t) := by
  have w := bytesWritten_sameInput (groupBytes s) h
  unfold flushed
  rw [← groupBytes_eq h]
  exact { w with status := ⟨w.status.1, w.status.2.1, rfl⟩, group := ⟨rfl, rfl, rfl, nofun⟩ }

/-- C_PATCH writes the same header and completes with the same result (R222, R223). -/
theorem patched_sameCommand {s t : State} (h : SameInput s t) : SameCommand (patched s) (patched t) := by
  obtain ⟨-, hdrBe, -, -⟩ := h.operands
  unfold patched
  rw [← hdrBe, ← h.ol]
  refine sameCommand_complete h.par h.status.1 h.ol fun a ha => ?_
  simp only [outWrite_outBuf, memLookup_write]
  split
  · rfl
  · split
    · rfl
    · exact h.payload a ha (by omega)

/-! ### Every engine step -/

/-- The machine in the same place makes the same move and comes to the same place. -/
theorem EngineMove.sameCommand {s s' t : State} (m : EngineMove s s') (h : SameCommand s t) :
    ∃ t', EngineMove t t' ∧ SameCommand s' t' := by
  obtain ⟨-, inCap, outCap⟩ := h.par
  have fsm := h.status.2.2
  cases m with
  | rest f => exact ⟨t, .rest (fsm ▸ f), h⟩
  | complete f r =>
    have d := h.sameStream (f.imp_right .inl)
    exact ⟨_, .complete (fsm ▸ f) (d.stream.1 ▸ r), sameCommand_complete h.par d.status.1 d.ol d.written⟩
  | ctrl f r a =>
    have d := h.sameStream (.inl f)
    obtain ⟨rem, rp⟩ := d.stream
    exact ⟨_, .ctrl (fsm ▸ f) (rem ▸ r) (rp ▸ inCap ▸ a), (ctrlTaken_sameStream d r).sameCommand (.inr (.inl rfl))⟩
  | groupEnd f r b =>
    have d := h.sameStream (.inr (.inl f))
    obtain ⟨-, bit⟩ := d.flags (.inl f)
    exact ⟨_, .groupEnd (fsm ▸ f) (d.stream.1 ▸ r) (bit ▸ b),
      (groupEnd_sameStream d).sameCommand (.inl rfl)⟩
  | lit f r b g a o =>
    have d := h.sameStream (.inr (.inl f))
    obtain ⟨rem, rp⟩ := d.stream
    obtain ⟨-, bit⟩ := d.flags (.inl f)
    have e := emitted_sameStream (litTaken_sameStream d f r) (inByte s s.rp)
    rw [byteAtRp_eq d r] at e ⊢
    exact ⟨_, .lit (fsm ▸ f) (rem ▸ r) (bit ▸ b) (nextFlag_eq d f ▸ g) (rp ▸ inCap ▸ a) (d.ol ▸ outCap ▸ o),
      e.sameCommand (.inr (.inl f))⟩
  | litFull f r b g a o =>
    have d := h.sameStream (.inr (.inl f))
    obtain ⟨rem, rp⟩ := d.stream
    obtain ⟨-, bit⟩ := d.flags (.inl f)
    exact ⟨_, .litFull (fsm ▸ f) (rem ▸ r) (bit ▸ b) (nextFlag_eq d f ▸ g) (rp ▸ inCap ▸ a)
      (d.ol ▸ outCap ▸ o), sameCommand_raiseFault _ h.par⟩
  | brefCut f r b g c =>
    have d := h.sameStream (.inr (.inl f))
    have rem := d.stream.1
    obtain ⟨-, bit⟩ := d.flags (.inl f)
    exact ⟨_, .brefCut (fsm ▸ f) (rem ▸ r) (bit ▸ b) (nextFlag_eq d f ▸ g) (rem ▸ c), sameCommand_raiseFault _ h.par⟩
  | bref f r b g c a =>
    have d := h.sameStream (.inr (.inl f))
    obtain ⟨rem, rp⟩ := d.stream
    obtain ⟨-, bit⟩ := d.flags (.inl f)
    exact ⟨_, .bref (fsm ▸ f) (rem ▸ r) (bit ▸ b) (nextFlag_eq d f ▸ g) (rem ▸ c) (rp ▸ inCap ▸ a),
      (brefTaken_sameStream d f c).sameCommand (.inr (.inr rfl))⟩
  | copy f o =>
    have d := h.sameStream (.inr (.inr f))
    exact ⟨_, .copy (fsm ▸ f) (d.ol ▸ outCap ▸ o), (copied_sameStream d f).sameCommand (copied_decompressing f)⟩
  | copyFull f o =>
    have d := h.sameStream (.inr (.inr f))
    exact ⟨_, .copyFull (fsm ▸ f) (d.ol ▸ outCap ▸ o), sameCommand_raiseFault _ h.par⟩
  | inputEnd f a p =>
    have d := h.sameInput (.inl f)
    obtain ⟨-, -, inLen, pos⟩ := d.operands
    exact ⟨_, .inputEnd (fsm ▸ f) (inLen ▸ inCap ▸ a) (pos ▸ inLen ▸ p),
      (inputEnd_sameInput d).sameCommand (inputEnd_compressing s)⟩
  | decide f a p =>
    have d := h.sameInput (.inl f)
    obtain ⟨-, -, inLen, pos⟩ := d.operands
    exact ⟨_, .decide (fsm ▸ f) (inLen ▸ inCap ▸ a) (pos ▸ inLen ▸ p),
      (decided_sameInput d p).sameCommand (decided_compressing f p)⟩
  | flush f fits =>
    have d := h.sameInput (.inr (.inl f))
    exact ⟨_, .flush (fsm ▸ f) (groupBytes_eq d ▸ d.ol ▸ outCap ▸ fits),
      (flushed_sameInput d).sameCommand (.inl rfl)⟩
  | flushFull f n hn code stops fits =>
    have d := h.sameInput (.inr (.inl f))
    have ol := d.ol
    have w := bytesWritten_sameInput ((groupBytes s).take n) d
    unfold StopsAt at stops
    rw [groupBytes_eq d] at hn w ⊢
    rw [ol, outCap] at stops fits
    exact ⟨_, .flushFull (fsm ▸ f) n hn code stops fits, sameCommand_raiseFault code w.par⟩
  | patch f o =>
    have d := h.sameInput (.inr (.inr f))
    exact ⟨_, .patch (fsm ▸ f) (outCap ▸ o), patched_sameCommand d⟩

/-- Settles O54: the machine in the same place of the same command makes the same move. -/
theorem stepsKeepTheSameCommand : Obligations.StepsKeepTheSameCommand := by
  intro s t s' h e
  obtain ⟨t', m, h'⟩ := (engineStep_cases e).sameCommand h
  exact ⟨t', engineStep_of_move m, h'⟩

/-! ### Acceptance -/

/-- An accepted DECOMPRESS reads the same header (R176). -/
theorem headerAtStart_eq {s t : State} (h : SameDecompress s t) (r : s.start.toNat + 2 ≤ s.inLen.toNat) :
    headerAtStart s = headerAtStart t := by
  unfold headerAtStart
  rw [← h.operands.2, h.image _ (by omega) (by omega) (by omega), h.image (s.start.toNat + 1) (by omega) (by omega) (by omega)]

/-- Acceptance of DECOMPRESS on the same image (R193, R242). -/
theorem decompress_sameCommand {s t : State} (h : SameDecompress s t) :
    SameCommand (commandEffect 1 s).final (commandEffect 1 t).final := by
  obtain ⟨seedByte, seedCursor⟩ := h.seed
  obtain ⟨inCap, outCap⟩ := h.caps
  obtain ⟨inLen, start⟩ := h.operands
  have par : sameParams s t := ⟨seedByte, inCap, outCap⟩
  by_cases l : s.par.inCap < s.inLen.toNat
  · rw [commandEffect, commandEffect, beginCommand_badLen l, beginCommand_badLen (inCap ▸ inLen ▸ l)]
    exact sameCommand_raiseFault .badLen par
  have l := Nat.not_lt.1 l
  rw [commandEffect, commandEffect, beginCommand_goes l, beginCommand_goes (inCap ▸ inLen ▸ l), andThen_goes, andThen_goes,
    headerAtStart_seed_accept, headerAtStart_seed_accept]
  by_cases r : s.inLen.toNat < s.start.toNat + 2
  · rw [takeHeader_startRange (s := seed (accept s)) r, takeHeader_startRange (s := seed (accept t)) (inLen ▸ start ▸ r)]
    exact sameCommand_raiseFault .startRange par
  have r := Nat.not_lt.1 r
  rw [← headerAtStart_eq h r]
  by_cases o : s.inLen.toNat < s.start.toNat + 2 + (headerAtStart s).toNat
  · rw [takeHeader_hdrOverrun (s := seed (accept s)) r o,
      takeHeader_hdrOverrun (s := seed (accept t)) (inLen ▸ start ▸ r) (inLen ▸ start ▸ o)]
    exact sameCommand_raiseFault .hdrOverrun par
  have i := Nat.not_lt.1 o
  rw [takeHeader_goes (s := seed (accept s)) i, takeHeader_goes (s := seed (accept t)) (inLen ▸ start ▸ i)]
  exact SameStream.sameCommand
    { par := par
      status := ⟨rfl, rfl, rfl⟩
      window := ⟨rfl, rfl, rfl, seedCursor, rfl⟩
      stream := ⟨rfl, congrArg (·.toNat + 2) start⟩
      image := fun a lo hi => h.image a (Nat.le_trans (Nat.le_add_right _ 2) lo) hi (Nat.lt_of_lt_of_le hi i)
      flags := nofun
      copy := nofun
      written := nofun
      results := nofun } (.inl rfl)

/-- Acceptance of COMPRESS on the same input (R228, R243). -/
theorem compress_sameCommand {s t : State} (h : SameCompress s t) :
    SameCommand (commandEffect 2 s).final (commandEffect 2 t).final := by
  obtain ⟨seedByte, seedCursor⟩ := h.seed
  obtain ⟨inCap, outCap⟩ := h.caps
  obtain ⟨inLen, hdrBe⟩ := h.operands
  have par : sameParams s t := ⟨seedByte, inCap, outCap⟩
  by_cases l : s.par.inCap < s.inLen.toNat
  · rw [commandEffect, commandEffect, beginCommand_badLen l, beginCommand_badLen (inCap ▸ inLen ▸ l)]
    exact sameCommand_raiseFault .badLen par
  have l := Nat.not_lt.1 l
  rw [commandEffect, commandEffect, beginCommand_goes l, beginCommand_goes (inCap ▸ inLen ▸ l)]
  exact SameInput.sameCommand
    { par := par
      status := ⟨rfl, rfl, rfl⟩
      window := ⟨rfl, rfl, rfl, seedCursor, rfl⟩
      operands := ⟨h.lookahead, hdrBe, inLen, rfl⟩
      input := fun a _ below => h.input a below
      group := ⟨rfl, rfl, rfl, nofun⟩
      payload := fun a below from2 => absurd from2 (Nat.not_le.2 below)
      results := nofun } (.inl rfl)

/-- Settles O53: acceptance seeds the window and initialises every register its command reads, from what the command depends
on alone. -/
theorem acceptanceForgetsEarlierCommands : Obligations.AcceptanceForgetsEarlierCommands := by
  intro s t w h bs bt _ _
  rw [exec_decodeCommand, exec_decodeCommand, onCmdWrite_idle bs, onCmdWrite_idle bt]
  refine ⟨_, _, rfl, rfl, ?_⟩
  rcases h with ⟨code, same⟩ | ⟨code, same⟩
  · rw [code]
    exact decompress_sameCommand same
  · rw [code]
    exact compress_sameCommand same

end Sys2Proof.Machine
end

section
/-! STATUS, CFG and the reset values (R23 to R25, R28, R42, R290), and the ways in which a step ends. -/

namespace Sys2Proof.Machine

/-! ### The words STATUS and CFG -/

/-- The fields of STATUS as a sum; bits 7:3 and 31:16 are 0 (R23). -/
theorem statusWord_toNat (st : Status) : (statusWord st).toNat =
    st.busy.toNat + 2 * st.done.toNat + 4 * st.fault.toNat + 256 * st.fcode.toNat := by
  simp only [statusWord, toNat_join, BitVec.toNat_ofBool, BitVec.toNat_ofNat]
  omega

/-- Bits 31:1 of CFG are 0 (R24). -/
theorem cfgWord_toNat (hdrBe : Bool) : (cfgWord hdrBe).toNat = hdrBe.toNat := by
  simp only [cfgWord, toNat_join, BitVec.toNat_ofBool, BitVec.toNat_ofNat]
  omega

/-- Settles O35: both words are their fields side by side. -/
theorem statusAndCfgWords : Obligations.StatusAndCfgWords := ⟨statusWord_toNat, cfgWord_toNat⟩

/-! ### Reset -/

theorem statusWord_clear : statusWord ⟨false, false, false, 0#8⟩ = 0#32 := by decide

theorem cfgWord_clear : cfgWord false = 0#32 := by decide

/-- Every register word reads 0 after a reset (R42, R246). -/
theorem regValue_afterReset (offset : Nat) (par : Params) (inputs : List Input) (resets epoch : Nat) :
    regValue offset (State.afterReset par inputs resets epoch) = 0#32 := by
  unfold regValue
  split_ifs
  · exact statusWord_clear
  · exact cfgWord_clear
  all_goals rfl

/-- Settles O43: `State.reset` is the state after reset number 0. -/
theorem resetStateHasResetValues : Obligations.ResetStateHasResetValues :=
  ⟨rfl, rfl, rfl, rfl, rfl, rfl, fun offset => regValue_afterReset offset _ _ _ _⟩

/-- A reset entry of the schedule is taken whatever the engine is doing (R290). -/
theorem step_reset {s : State} (h : nextInput s = .reset) :
    step s = .next (State.afterReset s.par s.inputs.tail (s.resets + 1) (s.epoch + 1)) := by
  rw [step, h]
  rfl

/-- Settles O42: the step leaves the state after the next reset. -/
theorem resetEventLeavesResetValues : Obligations.ResetEventLeavesResetValues := fun _ h =>
  ⟨_, step_reset h, rfl, rfl, rfl, rfl, rfl, rfl, rfl, rfl, rfl, rfl, rfl, rfl⟩

/-! ### Tokens with no byte left -/

theorem execCtrl_remUnderflow {s : State} (h : s.rem = 0#16) (flags : Byte) :
    execCtrl flags s = .fault .remUnderflow := if_pos h

theorem execLit_remUnderflow {s : State} (h : s.rem = 0#16) (v : Byte) :
    execLit v s = .fault .remUnderflow := if_pos h

/-- Settles O16: both tokens look at REM first. -/
theorem tokensStopWithNoByteLeft : Obligations.TokensStopWithNoByteLeft := by
  intro b s h
  have rem : s.rem = 0#16 := BitVec.eq_of_toNat_eq h
  exact ⟨execCtrl_remUnderflow rem b, execLit_remUnderflow rem b⟩

/-! ### How an engine step ends -/

/-- A row of bytes changes neither STATUS nor OUT_LEN. -/
theorem bytesWritten_status (xs : List Byte) (s : State) :
    (bytesWritten xs s).status = s.status ∧ (bytesWritten xs s).outLen = s.outLen := by
  rw [bytesWritten_frame]
  exact ⟨rfl, rfl⟩

/-- A decision changes neither STATUS nor OUT_LEN. -/
theorem decided_status {s : State} (p : s.pos < s.inLen.toNat) :
    (decided s).status = s.status ∧ (decided s).outLen = s.outLen := by
  obtain ⟨_, _, _, _, _, _, _, e⟩ := decision_frame p
  rw [decided, e]
  exact ⟨rfl, rfl⟩

/-- The faults that stop a row of output bytes are those of R220; none is F_WIN_UNDERFLOW (R263). -/
theorem StopsAt.code_ne_winUnderflow {s : State} {n : Nat} {code : FaultCode} (stops : StopsAt s n code) :
    code ≠ .winUnderflow := by
  obtain ⟨-, rfl⟩ | ⟨-, -, rfl⟩ := stops <;> decide

/-- A move of a running engine goes on without touching STATUS and OUT_LEN, completes the command, or raises a fault other than
F_WIN_UNDERFLOW (R25, R263, R309). -/
theorem EngineMove.goes_or_ends {s t : State} (m : EngineMove s t) (running : s.fsm ≠ .idle) :
    (t.fsm ≠ .idle ∧ t.status = s.status ∧ t.outLen = s.outLen) ∨
      (∃ u, u.status = s.status ∧ t = Machine.complete u) ∨
      ∃ code u, code ≠ .winUnderflow ∧ t = raiseFault code u := by
  cases m with
  | rest f => exact absurd f running
  | complete => exact .inr (.inl ⟨s, rfl, rfl⟩)
  | patch => exact .inr (.inl ⟨outWrite 1 _ (outWrite 0 _ s), rfl, rfl⟩)
  | litFull => exact .inr (.inr ⟨_, _, by decide, rfl⟩)
  | brefCut => exact .inr (.inr ⟨_, _, by decide, rfl⟩)
  | copyFull => exact .inr (.inr ⟨_, _, by decide, rfl⟩)
  | flushFull f n h code stops => exact .inr (.inr ⟨code, _, stops.code_ne_winUnderflow, rfl⟩)
  | ctrl => exact .inl ⟨nofun, rfl, rfl⟩
  | groupEnd => exact .inl ⟨nofun, rfl, rfl⟩
  | lit => exact .inl ⟨running, rfl, rfl⟩
  | bref => exact .inl ⟨nofun, rfl, rfl⟩
  | copy f => exact .inl ⟨running_of_decompressing (copied_decompressing f), rfl, rfl⟩
  | inputEnd => exact .inl ⟨running_of_compressing (inputEnd_compressing s), rfl, rfl⟩
  | decide f a p => exact .inl ⟨running_of_compressing (decided_compressing f p), decided_status p⟩
  | flush => exact .inl ⟨nofun, bytesWritten_status (groupBytes s) s⟩

/-- Settles O46: of BUSY alone set, completion leaves DONE alone and a fault leaves FAULT and its code alone. -/
theorem engineStepsWriteStatusOnlyToEnd : Obligations.EngineStepsWriteStatusOnlyToEnd := by
  intro s t running busy h
  obtain goes | ⟨u, status, rfl⟩ | ⟨code, u, raised, rfl⟩ := (engineStep_cases h).goes_or_ends running
  · exact .inl goes
  · refine .inr (.inl ⟨rfl, ?_, rfl⟩)
    rw [complete_status, status, busy]
  · exact .inr (.inr ⟨code, raised, rfl, rfl, rfl⟩)

end Sys2Proof.Machine
end

section
/-! On which inputs a step completes, and on which it is refused (R57, R61, R245, R247, R300, R306). -/

namespace Sys2Proof.Machine

/-! ### Outcomes that are next states exactly where a condition holds -/

/-- The outcome is a next state where `p` holds and a refusal where it does not; it is never a fault of the model. -/
def CompletesExactlyWhen (p : Prop) (o : Host.Outcome State Fault Refusal) : Prop :=
  (p → ∃ t, o = .next t) ∧ (¬ p → ∃ r, o = .refused r)

theorem completesExactlyWhen_next {p : Prop} (h : p) (t : State) : CompletesExactlyWhen p (.next t) :=
  ⟨fun _ => ⟨t, rfl⟩, absurd h⟩

theorem completesExactlyWhen_refused {p : Prop} (h : ¬ p) (r : Refusal) : CompletesExactlyWhen p (.refused r) :=
  ⟨fun hp => absurd hp h, fun _ => ⟨r, rfl⟩⟩

theorem completesExactlyWhen_ite (p : Prop) [Decidable p] (t : State) (r : Refusal) :
    CompletesExactlyWhen p (if p then .next t else .refused r) := by
  split
  · exact completesExactlyWhen_next ‹_› t
  · exact completesExactlyWhen_refused ‹_› r

/-- A test in front of an outcome adds its condition. -/
theorem CompletesExactlyWhen.guard {p q : Prop} [Decidable p] {o : Host.Outcome State Fault Refusal}
    (h : CompletesExactlyWhen q o) (r : Refusal) : CompletesExactlyWhen (p ∧ q) (if p then o else .refused r) := by
  split
  · next hp => rwa [and_iff_right hp]
  · next hp => exact completesExactlyWhen_refused (fun ⟨hp', _⟩ => hp hp') r

/-! ### Host actions -/

/-- A CMD write completes on an idle engine alone (R306). -/
theorem onCmdWrite_completes (s : State) (effect : State → Flow) :
    CompletesExactlyWhen (s.status.busy = false) (onCmdWrite s effect) := by
  cases b : s.status.busy with
  | true => rw [onCmdWrite_busy b]; exact completesExactlyWhen_refused nofun _
  | false => rw [onCmdWrite_idle b]; exact completesExactlyWhen_next rfl _

/-- A write of CFG, IN_LEN or START completes on an idle engine alone (R306). -/
theorem onRegWrite_completes (s t : State) : CompletesExactlyWhen (s.status.busy = false) (onRegWrite s t) := by
  unfold onRegWrite
  cases s.status.busy with
  | true => exact completesExactlyWhen_refused nofun _
  | false => exact completesExactlyWhen_next rfl _

/-- The four registers that do something when written want an idle engine; every other word takes a write at any time (R245). -/
theorem regWrite_completes (offset : Nat) (v : Word) (s : State) :
    CompletesExactlyWhen (regWriteAllowed s.status.busy offset) (regWrite offset v s) := by
  have idleOnly (h : ¬ (offset ≠ 0x00 ∧ offset ≠ 0x08 ∧ offset ≠ 0x0C ∧ offset ≠ 0x10)) :
      regWriteAllowed s.status.busy offset = (s.status.busy = false) := propext (or_iff_left h)
  unfold regWrite
  split_ifs with cmd cfg inLen start
  · rw [idleOnly (by omega), exec_decodeCommand]; exact onCmdWrite_completes _ _
  · rw [idleOnly (by omega)]; exact onRegWrite_completes _ _
  · rw [idleOnly (by omega)]; exact onRegWrite_completes _ _
  · rw [idleOnly (by omega)]; exact onRegWrite_completes _ _
  · exact completesExactlyWhen_next (.inr ⟨cmd, cfg, inLen, start⟩) _

/-- A host action completes exactly when the rules give it an outcome. -/
theorem hostAct_completes (a : HostAction) (s : State) :
    CompletesExactlyWhen (allowed s (.host a)) (hostAct a s) := by
  cases a with
  | readReg width offset => exact completesExactlyWhen_ite (regAccessOk width offset) _ _
  | writeReg width offset v => exact (regWrite_completes offset v s).guard _
  | readIn offset => exact completesExactlyWhen_ite (offset < s.par.inCap) _ _
  | writeIn offset b =>
    simp only [hostAct, allowed]
    cases s.status.busy with
    | true => exact completesExactlyWhen_refused nofun _
    | false => simpa using completesExactlyWhen_ite (offset < s.par.inCap) _ _
  | readOut offset => exact completesExactlyWhen_ite (offset < s.par.outCap) _ _
  | writeOut offset b => exact completesExactlyWhen_refused id _

/-! ### Every event -/

/-- A draw of the unspecified OUT bytes opens and closes no action to the host. -/
theorem allowed_newEpoch (s : State) (x : Input) : allowed (newEpoch s) x = allowed s x := by
  rcases x with _ | a | _
  · rfl
  · cases a <;> rfl
  · rfl

theorem allowed_dropInput (s : State) (x : Input) : allowed (dropInput s) x = allowed s x := by
  rcases x with _ | a | _
  · rfl
  · cases a <;> rfl
  · rfl

/-- The engine's turn always goes on: the invariant keeps every read inside IN and OUT_CAP at 2 or more (R13, R33, R37, R59). -/
theorem engineTurn_next {s : State} (h : Inv s) : ∃ t, engineTurn s = .next t := by
  unfold engineTurn
  split
  · exact ⟨s, rfl⟩
  · rw [h.port]
    obtain ⟨-, -, -, -, -, -, outCap, -⟩ := h.ranges.par
    refine engineStep_next (s := newEpoch s) (fun f r => ?_) (fun f r => ?_) (fun f => ?_) outCap
    · obtain ⟨image, inLen⟩ := (h.decompress (.inl f)).image
      have rem : 1 ≤ s.rem.toNat := rem_pos r
      show s.rp + 1 ≤ s.par.inCap
      omega
    · obtain ⟨image, inLen⟩ := (h.decompress (.inr (.inl f))).image
      show s.rp + min 2 s.rem.toNat ≤ s.par.inCap
      omega
    · exact (h.compress (.inl f)).input

theorem transition_completes {s : State} (h : Inv s) (x : Input) :
    CompletesExactlyWhen (allowed s x) (transition x s) := by
  cases x with
  | tick =>
    obtain ⟨t, e⟩ := engineTurn_next h
    rw [transition, e]
    exact completesExactlyWhen_next trivial t
  | host a =>
    rw [transition]
    split
    · rw [← allowed_newEpoch]
      exact hostAct_completes a (newEpoch s)
    · exact hostAct_completes a s
  | reset => exact completesExactlyWhen_next trivial _

/-- Settles O51: the engine's turn and a reset always go on, and a host action does exactly when it is allowed. -/
theorem stepCompletesExactlyWhenAllowed : Obligations.StepCompletesExactlyWhenAllowed := by
  intro s h
  rw [← allowed_dropInput]
  exact transition_completes (dropInput_inv h) (nextInput s)

end Sys2Proof.Machine
end

section
/-! What each host action does, said once, and what the host reads of the registers, IN and OUT (R56 to R61, R245 to R247). -/

namespace Sys2Proof.Machine

/-! ### Reads -/

/-- CMD and the reserved offsets read 0 (R246). -/
theorem regValue_reserved {offset : Nat} (h : 0x18 ≤ offset) (s : State) : regValue offset s = 0#32 := by
  unfold regValue
  rw [if_neg (by omega), if_neg (by omega), if_neg (by omega), if_neg (by omega), if_neg (by omega)]

theorem hostAct_readReg {width : Width} {offset : Nat} (h : regAccessOk width offset) (s : State) :
    hostAct (.readReg width offset) s = .next (hostReceives (regValue offset s) s) := if_pos h

theorem hostAct_readReg_refused {width : Width} {offset : Nat} (h : ¬ regAccessOk width offset) (s : State) :
    hostAct (.readReg width offset) s = .refused .badRegAccess := if_neg h

theorem hostAct_readIn {s : State} {offset : Nat} (h : offset < s.par.inCap) :
    hostAct (.readIn offset) s = .next (hostReceives ((inByte s offset).setWidth 32) s) := if_pos h

theorem hostAct_readIn_refused {s : State} {offset : Nat} (h : s.par.inCap ≤ offset) :
    hostAct (.readIn offset) s = .refused .beyondBuffer := if_neg (Nat.not_lt.2 h)

theorem hostAct_readOut {s : State} {offset : Nat} (h : offset < s.par.outCap) :
    hostAct (.readOut offset) s = .next (hostReceives ((outByteSeen s offset).setWidth 32) s) := if_pos h

theorem hostAct_readOut_refused {s : State} {offset : Nat} (h : s.par.outCap ≤ offset) :
    hostAct (.readOut offset) s = .refused .beyondBuffer := if_neg (Nat.not_lt.2 h)

/-- Settles O36: an aligned word returns the register at its offset. -/
theorem hostReadsRegisters : Obligations.HostReadsRegisters := by
  intro s width offset
  refine ⟨fun ok => ?_, fun bad => hostAct_readReg_refused bad s⟩
  have read := hostAct_readReg ok s
  refine ⟨?_, ?_, ?_, ?_, ?_, ?_, fun reserved => by rw [read, regValue_reserved reserved]; rfl⟩
  all_goals rintro rfl; exact read

/-- Below OUT_LEN after DONE = 1 the host sees the byte that was written (R60). -/
theorem outByteSeen_result {s : State} {a : Nat} {b : Byte} (done : s.status.done = true) (below : a < s.outLen.toNat)
    (written : memLookup s.outBuf a = some b) : outByteSeen s a = b := by
  rw [outByteSeen, if_pos ⟨done, below⟩, memRead_none, written, Option.getD_some]

/-- Settles O39: the byte read is the one `outByteSeen` shows. -/
theorem hostReadsOut : Obligations.HostReadsOut := by
  intro s o
  refine ⟨fun b done below inside written => ?_, fun inside => ⟨_, hostAct_readOut inside⟩, hostAct_readOut_refused⟩
  rw [hostAct_readOut inside, outByteSeen_result done below written]
  rfl

/-! ### Writes of the buffers -/

theorem hostAct_writeIn {s : State} {offset : Nat} (idle : s.status.busy = false) (h : offset < s.par.inCap) (b : Byte) :
    hostAct (.writeIn offset b) s = .next { s with inBuf := memWrite none s.inBuf offset b } := by
  simp only [hostAct, idle, h, Bool.false_eq_true, if_true, if_false]

theorem hostAct_writeIn_busy {s : State} (busy : s.status.busy = true) (offset : Nat) (b : Byte) :
    hostAct (.writeIn offset b) s = .refused .inWhileBusy := if_pos busy

theorem hostAct_writeIn_refused {s : State} {offset : Nat} (idle : s.status.busy = false) (h : s.par.inCap ≤ offset)
    (b : Byte) : hostAct (.writeIn offset b) s = .refused .beyondBuffer := by
  simp only [hostAct, idle, Nat.not_lt.2 h, Bool.false_eq_true, if_false]

/-- A read of IN after a write of IN. -/
theorem inByte_write (s : State) (o : Nat) (b : Byte) (a : Nat) :
    inByte { s with inBuf := memWrite none s.inBuf o b } a = if a = o then b else inByte s a := by
  simp only [inByte, memRead_write]
  split <;> rfl

/-- Settles O38: a byte the host stores in IN is the one read there later, and no other changes. -/
theorem hostAccessesBuffers : Obligations.HostAccessesBuffers := by
  intro s o b
  exact ⟨fun idle inside => ⟨_, hostAct_writeIn idle inside b, inByte_write s o b, rfl⟩,
    fun busy => hostAct_writeIn_busy busy o b, fun idle beyond => hostAct_writeIn_refused idle beyond b,
    hostAct_readIn, hostAct_readIn_refused, rfl⟩

/-! ### Every host action -/

/-- What a host action that completes did to `s`: it read something, or wrote CMD, another register word or a byte of IN. -/
inductive HostMove (s : State) : HostAction → State → Prop where
  | read {a : HostAction} (r : a.isRead = true) (v : Word) : HostMove s a (hostReceives v s)
  | command (idle : s.status.busy = false) (w : Word) :
      HostMove s (.writeReg .word 0x00 w) (commandEffect (w.toNat % 256) s).final
  | cfg (idle : s.status.busy = false) (v : Word) :
      HostMove s (.writeReg .word 0x08 v) { s with hdrBe := v.getLsbD 0 }
  | inLen (idle : s.status.busy = false) (v : Word) : HostMove s (.writeReg .word 0x0C v) { s with inLen := v }
  | start (idle : s.status.busy = false) (v : Word) : HostMove s (.writeReg .word 0x10 v) { s with start := v }
  | ignored {offset : Nat} (o : offset ≠ 0x00 ∧ offset ≠ 0x08 ∧ offset ≠ 0x0C ∧ offset ≠ 0x10) (v : Word) :
      HostMove s (.writeReg .word offset v) s
  | writeIn (idle : s.status.busy = false) {offset : Nat} (inside : offset < s.par.inCap) (b : Byte) :
      HostMove s (.writeIn offset b) { s with inBuf := memWrite none s.inBuf offset b }

/-- Everything a register write can do. -/
theorem regWrite_cases {offset : Nat} {v : Word} {s t : State} (h : regWrite offset v s = .next t) :
    HostMove s (.writeReg .word offset v) t := by
  unfold regWrite at h
  split_ifs at h with cmd cfg inLen start
  · subst cmd
    have b := (exec_decodeCommand_cases h).1
    rw [exec_decodeCommand, onCmdWrite_idle b] at h
    cases h
    exact .command b v
  · subst cfg
    obtain ⟨b, rfl⟩ := onRegWrite_cases h
    exact .cfg b v
  · subst inLen
    obtain ⟨b, rfl⟩ := onRegWrite_cases h
    exact .inLen b v
  · subst start
    obtain ⟨b, rfl⟩ := onRegWrite_cases h
    exact .start b v
  · cases h
    exact .ignored ⟨cmd, cfg, inLen, start⟩ v

/-- Everything a host action can do. -/
theorem hostAct_cases {a : HostAction} {s t : State} (h : hostAct a s = .next t) : HostMove s a t := by
  cases a <;> simp only [hostAct] at h
  case readReg => split at h <;> cases h; exact .read rfl _
  case writeReg =>
    split at h
    · next ok => obtain ⟨rfl, -⟩ := ok; exact regWrite_cases h
    · cases h
  case readIn => split at h <;> cases h; exact .read rfl _
  case writeIn o b =>
    split_ifs at h with busy inside
    cases h
    exact .writeIn (by simpa using busy) inside b
  case readOut => split at h <;> cases h; exact .read rfl _
  case writeOut => cases h

/-- A host read that is repeated at once returns the same value (R58): what it reads is no latch of the host. -/
theorem hostAct_read_again {a : HostAction} {s t : State} (r : a.isRead = true) (h : hostAct a s = .next t) :
    hostAct a t = .next t := by
  cases a <;> simp only [hostAct] at h
  case readReg => split at h <;> cases h; exact hostAct_readReg ‹_› _
  case readIn => split at h <;> cases h; exact hostAct_readIn (s := hostReceives _ s) ‹_›
  case readOut => split at h <;> cases h; exact hostAct_readOut (s := hostReceives _ s) ‹_›
  all_goals cases r

end Sys2Proof.Machine
end

section
/-! The three events of R300 as the schedule names them, and what the host reads of IN and OUT through each (R58, R60). -/

namespace Sys2Proof.Machine

/-! ### The events -/

theorem engineTurn_idle {s : State} (f : s.fsm = .idle) : engineTurn s = .next s := if_pos f

theorem engineTurn_running {s : State} (f : s.fsm ≠ .idle) (port : s.port = none) :
    engineTurn s = engineStep (newEpoch s) := by
  rw [engineTurn, if_neg f, port]

theorem step_tick {s : State} (h : nextInput s = .tick) : step s = engineTurn (dropInput s) := by
  rw [step, h]
  rfl

/-- A host action other than a CMD write of a code other than NOP draws no OUT byte anew (log 5). -/
theorem step_host {s : State} {a : HostAction} (h : nextInput s = .host a) (c : a.startsCommand = false) :
    step s = hostAct a (dropInput s) := by
  rw [step, h, transition, if_neg (by simp [c])]

theorem step_host_starts {s : State} {a : HostAction} (h : nextInput s = .host a) (c : a.startsCommand = true) :
    step s = hostAct a (newEpoch (dropInput s)) := by
  rw [step, h, transition, if_pos c]

theorem startsCommand_of_isRead {a : HostAction} (r : a.isRead = true) : a.startsCommand = false := by
  cases a with
  | readReg | readIn | readOut => rfl
  | writeReg | writeIn | writeOut => cases r

/-- An action starts no command when every CMD write is a NOP. -/
theorem startsCommand_eq_false {a : HostAction}
    (h : ∀ width v, a = .writeReg width 0x00 v → v.toNat % 256 = 0) : a.startsCommand = false := by
  rw [Bool.eq_false_iff]
  intro c
  cases a with
  | writeReg width offset v =>
    obtain ⟨rfl, code⟩ := (startsCommand_writeReg width offset v).1 c
    exact code (h width v rfl)
  | _ => cases c

/-- Settles O56: an unfolding of `step`, entry by entry. -/
theorem stepIsTheScheduledEvent : Obligations.StepIsTheScheduledEvent := by
  intro s
  refine ⟨fun h f port => ?_, fun h f => ?_, fun a h nop => ?_, fun width v h code => ?_, fun h => ?_⟩
  · rw [step_tick h]; exact engineTurn_running (s := dropInput s) f port
  · rw [step_tick h]; exact engineTurn_idle (s := dropInput s) f
  · exact step_host h (startsCommand_eq_false nop)
  · exact step_host_starts h ((startsCommand_writeReg width 0x00 v).2 ⟨rfl, code⟩)
  · exact step_reset h

/-- Settles O40: a read hands its value to the host, and the value it handed over is not among those it reads. -/
theorem hostReadsHaveNoSideEffect : Obligations.HostReadsHaveNoSideEffect := by
  intro s t a r h e
  have c := startsCommand_of_isRead r
  rw [step_host h c] at e
  refine ⟨?_, ?_⟩
  · cases hostAct_cases e with
    | read => rfl
    | _ => cases r
  · rw [step_host (s := { t with inputs := .host a :: t.inputs }) rfl c]
    exact hostAct_read_again r e

/-! ### Bytes of IN and OUT as the host reads them -/

theorem inByte_congr {s t : State} (inBuf : t.inBuf = s.inBuf) (resets : t.resets = s.resets) : inByte t = inByte s := by
  funext o
  rw [inByte, inByte, inBuf, resets]

/-- No CMD write changes IN. -/
theorem CommandMove.inByte_eq {s t : State} (m : CommandMove s t) : inByte t = inByte s := by
  cases m <;> rfl

/-- The engine's turn leaves IN alone, a window-port word that stands alone included (R59). -/
theorem engineTurn_inByte {s t : State} (h : engineTurn s = .next t) : inByte t = inByte s := by
  unfold engineTurn at h
  split at h
  · cases h; rfl
  · split at h
    · simp only [decodePort] at h
      split at h <;> cases h <;> rfl
    · obtain ⟨inBuf, -, -, -, -, -, resets, -, -⟩ := (engineStep_cases h).host_frame
      exact inByte_congr inBuf resets

/-- A host action changes no byte of IN but the one it writes. -/
theorem HostMove.inByte_eq {s t : State} {a : HostAction} (m : HostMove s a t) {o : Nat} (other : ∀ b, a ≠ .writeIn o b) :
    inByte t o = inByte s o := by
  cases m with
  | command b w => rw [(commandEffect_cases _ s).inByte_eq]
  | writeIn idle inside b =>
    rw [inByte_write, if_neg]
    rintro rfl
    exact other b rfl
  | read | cfg | inLen | start | ignored => rfl

/-- A host action that starts no command leaves OUT as the host sees it. -/
theorem HostMove.outByteSeen_eq {s t : State} {a : HostAction} (m : HostMove s a t) (c : a.startsCommand = false) (o : Nat) :
    outByteSeen t o = outByteSeen s o := by
  cases m with
  | command b w =>
    have nop : w.toNat % 256 = 0 := by
      by_contra code
      simp [(startsCommand_writeReg .word 0x00 w).2 ⟨rfl, code⟩] at c
    rw [nop]
    rfl
  | read | cfg | inLen | start | ignored | writeIn => rfl

/-- Settles O57: OUT as the host sees it depends on STATUS, OUT_LEN, the bytes written and the draw, IN on the bytes written and
the resets. -/
theorem bytesStayUntilAWrite : Obligations.BytesStayUntilAWrite := by
  intro s t o h noReset
  cases x : nextInput s with
  | tick =>
    rw [step_tick x] at h
    refine ⟨fun idle _ => ?_, fun _ => congrFun (engineTurn_inByte h) o⟩
    rw [engineTurn_idle (s := dropInput s) (idle rfl)] at h
    cases h
    rfl
  | host a =>
    simp only [Input.host.injEq, ne_eq]
    refine ⟨fun _ nop => ?_, fun other => ?_⟩
    · have c := startsCommand_eq_false nop
      rw [step_host x c] at h
      exact (hostAct_cases h).outByteSeen_eq c o
    · cases c : a.startsCommand with
      | false => rw [step_host x c] at h; exact (hostAct_cases h).inByte_eq other
      | true => rw [step_host_starts x c] at h; exact (hostAct_cases h).inByte_eq other
  | reset => exact absurd x noReset

end Sys2Proof.Machine
end

section
/-! The result: every byte the host may see below OUT_LEN after DONE = 1 was written, since reset and by the command itself
(R60, R190, R223). -/

namespace Sys2Proof.Machine

/-! ### The parts of `ResultWritten` -/

/-- No result stands while a command runs (R25). -/
theorem Inv.not_done {s : State} (h : Inv s) (f : s.fsm ≠ .idle) : s.status.done = false :=
  (h.status.running (h.status.busy.2 f)).1

/-- A machine that runs DECOMPRESS answers for the bytes below OL. -/
theorem ResultWritten.of_decompressing {s : State} (noResult : s.fsm ≠ .idle → s.status.done = false) (f : decompressing s)
    (written : ∀ a < s.ol, (memLookup s.outBuf a).isSome = true) : ResultWritten s where
  decompress := fun _ => written
  compress := fun g => absurd g (not_compressing_of_decompressing f)
  done := by simp [noResult (running_of_decompressing f)]

/-- A machine that runs COMPRESS answers for the payload below OL. -/
theorem ResultWritten.of_compressing {s : State} (noResult : s.fsm ≠ .idle → s.status.done = false) (f : compressing s)
    (written : ∀ a < s.ol, 2 ≤ a → (memLookup s.outBuf a).isSome = true) : ResultWritten s where
  decompress := fun g => absurd f (not_compressing_of_decompressing g)
  compress := fun _ => written
  done := by simp [noResult (running_of_compressing f)]

/-- A fault leaves no result (R265). -/
theorem raiseFault_resultWritten (code : FaultCode) (s : State) : ResultWritten (raiseFault code s) where
  decompress := nofun
  compress := nofun
  done := nofun

/-- Completion shows the bytes below OL. -/
theorem complete_resultWritten {s : State} (written : ∀ a < s.ol, (memLookup s.outBuf a).isSome = true) :
    ResultWritten (complete s) where
  decompress := nofun
  compress := nofun
  done := fun _ a ha => written a (by
    rw [complete_outLen, BitVec.toNat_ofNat] at ha
    exact ha.trans_le (Nat.mod_le _ _))

/-- Acceptance withdraws the result of the command before (R25). -/
theorem accept_resultWritten {s : State} (idle : s.fsm = .idle) : ResultWritten (accept s) where
  decompress := fun f => absurd idle (running_of_decompressing f)
  compress := fun f => absurd idle (running_of_compressing f)
  done := nofun

/-! ### Bytes written from OL on -/

/-- `Emit` writes the byte OL moves past. -/
theorem emitted_written (b : Byte) {s : State} (h : ∀ a < s.ol, (memLookup s.outBuf a).isSome = true) :
    ∀ a < (emitted b s).ol, (memLookup (emitted b s).outBuf a).isSome = true := by
  intro a ha
  rw [emitted_lookup]
  split
  · rfl
  · next ne => exact h a (Nat.lt_of_le_of_ne (Nat.le_of_lt_succ ha) ne)

/-- A row of bytes writes every byte OL moves past. -/
theorem bytesWritten_written (xs : List Byte) {s : State} {lo : Nat}
    (h : ∀ a < s.ol, lo ≤ a → (memLookup s.outBuf a).isSome = true) :
    ∀ a < (bytesWritten xs s).ol, lo ≤ a → (memLookup (bytesWritten xs s).outBuf a).isSome = true := by
  intro a ha from_lo
  rw [bytesWritten_ol] at ha
  rw [bytesWritten_lookup]
  split
  · rw [List.getElem?_eq_getElem (by omega), Option.isSome_some]
  · exact h a (by omega) from_lo

/-- C_PATCH adds the header's two bytes to the payload (R222). -/
theorem patched_written {s : State} (b0 b1 : Byte) (h : ∀ a < s.ol, 2 ≤ a → (memLookup s.outBuf a).isSome = true) :
    ∀ a < s.ol, (memLookup (outWrite 1 b1 (outWrite 0 b0 s)).outBuf a).isSome = true := by
  intro a ha
  simp only [outWrite_outBuf, memLookup_write]
  split
  · rfl
  · split
    · rfl
    · exact h a ha (by omega)

/-! ### Every step -/

/-- Every move of the engine keeps the results written. -/
theorem EngineMove.resultWritten {s t : State} (m : EngineMove s t) (h : Inv s) (r : ResultWritten s) : ResultWritten t := by
  have noResult := (m.inv h).not_done
  cases m with
  | rest => exact r
  | complete f => exact complete_resultWritten (r.decompress (f.imp_right .inl))
  | ctrl f => exact .of_decompressing noResult (.inr (.inl rfl)) (r.decompress (.inl f))
  | groupEnd f => exact .of_decompressing noResult (.inl rfl) (r.decompress (.inr (.inl f)))
  | lit f =>
    have written : ∀ a < (litTaken s).ol, (memLookup (litTaken s).outBuf a).isSome = true := r.decompress (.inr (.inl f))
    exact .of_decompressing noResult (.inr (.inl f)) (emitted_written _ written)
  | bref f => exact .of_decompressing noResult (.inr (.inr rfl)) (r.decompress (.inr (.inl f)))
  | copy f =>
    exact .of_decompressing noResult (copied_decompressing f) (emitted_written (copyByte s) (r.decompress (.inr (.inr f))))
  | inputEnd f => exact .of_compressing noResult (inputEnd_compressing s) (r.compress (.inl f))
  | decide f a p =>
    refine .of_compressing noResult (decided_compressing f p) ?_
    obtain ⟨_, _, _, _, _, _, _, e⟩ := decision_frame p
    rw [decided, e]
    exact r.compress (.inl f)
  | flush f => exact .of_compressing noResult (.inl rfl) (bytesWritten_written (groupBytes s) (r.compress (.inr (.inl f))))
  | patch f =>
    unfold patched
    exact complete_resultWritten (patched_written (s := s) _ _ (r.compress (.inr (.inr f))))
  | litFull | brefCut | copyFull | flushFull => exact raiseFault_resultWritten _ _

/-- Every move of a command keeps the results written: it leaves them alone, or there are none yet. -/
theorem CommandMove.resultWritten {s t : State} (m : CommandMove s t) (r : ResultWritten s) : ResultWritten t := by
  cases m with
  | nop => exact r
  | badCmd | badLen | startRange | hdrOverrun => exact raiseFault_resultWritten _ _
  | decompress => exact .of_decompressing (fun _ => rfl) (.inl rfl) fun a below => absurd below (Nat.not_lt_zero a)
  | compress => exact .of_compressing (fun _ => rfl) (.inl rfl) fun a below from2 => absurd below (Nat.not_lt.2 from2)

/-- Every host action keeps the results written. -/
theorem HostMove.resultWritten {s t : State} {a : HostAction} (m : HostMove s a t) (r : ResultWritten s) :
    ResultWritten t := by
  cases m with
  | command b w => exact (commandEffect_cases _ s).resultWritten r
  | ignored => exact r
  | read | cfg | inLen | start | writeIn => exact { r with }

theorem engineTurn_resultWritten {s t : State} (h : Inv s) (r : ResultWritten s) (e : engineTurn s = .next t) :
    ResultWritten t := by
  by_cases f : s.fsm = .idle
  · rw [engineTurn_idle f] at e
    cases e
    exact r
  · rw [engineTurn_running f h.port] at e
    exact (engineStep_cases e).resultWritten (newEpoch_inv h) { r with }

theorem transition_resultWritten {x : Input} {s t : State} (h : Inv s) (r : ResultWritten s)
    (e : transition x s = .next t) : ResultWritten t := by
  cases x with
  | tick => exact engineTurn_resultWritten h r e
  | host a =>
    refine (hostAct_cases e).resultWritten ?_
    split
    · exact { r with }
    · exact r
  | reset =>
    cases e
    exact { decompress := nofun, compress := nofun, done := nofun }

/-- Settles O50: each of the three events of R300 keeps the results written. -/
theorem stepKeepsResultWritten : Obligations.StepKeepsResultWritten := fun _ _ h r e =>
  transition_resultWritten (dropInput_inv h) { r with } e

/-! ### Whole commands -/

/-- What every step keeps, a run keeps. -/
theorem Steps.keeps {P : State → Prop} (kept : ∀ s t, P s → step s = .next t → P t) {n : Nat} {s t : State}
    (run : Steps n s t) (h : P s) : P t := by
  induction run with
  | refl => exact h
  | next first _ ih => exact ih (kept _ _ h first)

/-- The first step of a command: the CMD write of an idle machine has the effect of its code. -/
theorem step_commanded {w : Word} {s : State} (idle : s.status.busy = false) (code : w.toNat % 256 ≠ 0) :
    step (commanded w s) =
      .next (commandEffect (w.toNat % 256) (newEpoch (dropInput (commanded w s)))).final := by
  rw [step_host_starts rfl ((startsCommand_writeReg .word 0x00 w).2 ⟨rfl, code⟩)]
  exact (exec_decodeCommand w _).trans (onCmdWrite_idle (s := newEpoch (dropInput (commanded w s))) idle _)

/-- DECOMPRESS and COMPRESS set STATUS and OUT_LEN first, whatever was in them (R242, R243). -/
theorem commandEffect_accept {code : Nat} (c : code = 1 ∨ code = 2) (s : State) :
    commandEffect code (accept s) = commandEffect code s := by
  rcases c with rfl | rfl <;> rfl

/-- An accepted command has no result yet, so no byte of an earlier one counts as its own. -/
theorem commandEffect_resultWritten {code : Nat} (c : code = 1 ∨ code = 2) {s : State} (idle : s.fsm = .idle) :
    ResultWritten (commandEffect code s).final := by
  rw [← commandEffect_accept c]
  exact (commandEffect_cases code (accept s)).resultWritten (accept_resultWritten idle)

/-- A run of a command, from its CMD write on, has a written result at every point of it. -/
theorem commanded_resultWritten {s t : State} {w : Word} {n : Nat} (h : Inv s) (idle : s.status.busy = false)
    (c : w.toNat % 256 = 1 ∨ w.toNat % 256 = 2) (run : Steps (n + 1) (commanded w s) t) : ResultWritten t := by
  have kept : ∀ u v, Inv u ∧ ResultWritten u → step u = .next v → Inv v ∧ ResultWritten v := fun u v ⟨hi, hr⟩ e =>
    ⟨stepKeepsInv u v hi e, stepKeepsResultWritten u v hi hr e⟩
  cases run with
  | next first rest =>
    have inv := stepKeepsInv _ _ (h.outside _ _ _) first
    rw [step_commanded idle (by omega)] at first
    cases first
    have accepted := commandEffect_resultWritten c (s := newEpoch (dropInput (commanded w s))) (h.idle_of_not_busy idle)
    exact (rest.keeps kept ⟨inv, accepted⟩).2

/-- Emptying OUT of an idle machine keeps the invariant. -/
theorem emptyOut_inv {s : State} (h : Inv s) (idle : s.status.busy = false) : Inv { s with outBuf := [] } :=
  .of_idle (h.idle_of_not_busy idle) { h.ranges with } { h.memories with outBuf := wf_nil _ _ } { h.status with } h.port

/-- Settles O59: in an OUT emptied before the command, a byte that is written is one the command wrote. -/
theorem resultIsWrittenByItsCommand : Obligations.ResultIsWrittenByItsCommand := by
  intro s t w n h idle c run done
  exact (commanded_resultWritten (emptyOut_inv h idle) idle c run).done done

end Sys2Proof.Machine
end

section
/-! The steps access the window by the operations of the window port (R50, R79, R101, R102). -/

namespace Sys2Proof.Machine

/-- Two states have the same window: its bytes, its cursor and its seeding. -/
def SameWindow (t u : State) : Prop := t.win = u.win ∧ t.cur = u.cur ∧ t.seeded = u.seeded

/-- A literal token that OUT has room for emits its byte (R183). -/
theorem execLit_emits {s : State} (rem : 1 ≤ s.rem.toNat) (room : s.ol < s.par.outCap) (v : Byte) :
    execLit v s = .next (emitted v { s with rp := s.rp + 1, rem := s.rem - 1#16 }) := by
  have r : s.rem ≠ 0#16 := fun e => by simp [e] at rem
  rw [execLit, if_neg r]
  obtain ⟨full, -⟩ | ⟨-, e⟩ := emit_cases v { s with rp := s.rp + 1, rem := s.rem - 1#16 }
  · exact absurd room (Nat.not_lt.2 full)
  · rw [e, outcome_goes]

/-- `Emit` appends its byte to the window. -/
theorem emitted_sameWindow (b : Byte) (s : State) : SameWindow (emitted b s) (winAppend b s) := ⟨rfl, rfl, rfl⟩

/-- The source index of a copied byte, reduced, is a 12-bit sum (R101, R186). -/
theorem winIndex_add (src : BitVec 12) (k : Nat) : winIndex (src.toNat + k : Nat) = (src + BitVec.ofNat 12 k).toNat := by
  simp only [winIndex, BitVec.toNat_add, BitVec.toNat_ofNat]
  omega

/-- A copy step reads the byte that a GET of its source index reads. -/
theorem copyByte_eq_winGet (s : State) : copyByte s = winGet (s.src + BitVec.ofNat 12 s.k).toNat s := by
  rw [copyByte, winGet, winGet, winIndex_add, winIndex_toNat]

/-- A decision appends the bytes it takes. -/
theorem decisionTaken_sameWindow (f : Bool) (xs bs : List Byte) (s : State) :
    SameWindow (decisionTaken f xs bs s) (winAppendAll bs s) := by
  rw [winAppendAll_frame]
  exact ⟨rfl, rfl, rfl⟩

/-- A decision step appends the bytes of its decision. -/
theorem decided_sameWindow {s : State} {f : Bool} {xs bs : List Byte} (e : decision s = decisionTaken f xs bs s) :
    SameWindow (decided s) (winAppendAll bs s) := by
  rw [decided, e]
  exact decisionTaken_sameWindow f xs bs s

/-- Settles O58: `Emit` and a decision append with `winAppend`, which is what WAPPEND runs, and D_COPY reads with `winGet`,
which is what WGET runs. -/
theorem stepsUseTheWindowPortOperations : Obligations.StepsUseTheWindowPortOperations := by
  intro s
  refine ⟨fun v rem room => ?_, fun f room => ?_, fun f inLen p noMatch => ?_, fun m f inLen p found => ?_⟩
  · exact ⟨_, _, execLit_emits rem room v, rfl, emitted_sameWindow v _⟩
  · refine ⟨_, _, _, engineStep_of_move (.copy f room), rfl, rfl, ?_⟩
    rw [copied, copyByte_eq_winGet]
    exact ⟨emitted_sameWindow _ s, (emitted_lookup _ s s.ol).trans (if_pos rfl)⟩
  · have taken : decision s = decisionTaken true [inByte s s.pos] [inByte s s.pos] s := by
      rw [decision, noMatch]
      exact litDecision_eq s
    exact ⟨_, _, engineStep_of_move (.decide f inLen p), rfl, decided_sameWindow taken⟩
  · have taken : decision s =
        decisionTaken false (descriptor (BitVec.ofNat 12 m.index) m.length) (inBytes s s.pos m.length) s := by
      rw [decision, found]
      exact refDecision_eq m s
    exact ⟨_, _, engineStep_of_move (.decide f inLen p), appendEach_eq _ s, decided_sameWindow taken⟩

end Sys2Proof.Machine
end

section
/-! The decoder and the encoder undo each other (30_encoding R71 to R80). A slot's word is taken as its fields side by side; the
rows of the two tables of opcodes, CMD's and the window port's, are each said once. -/

namespace Sys2Proof

/-! ### The rows of CMD codes (R78) -/

/-- A mask of the bits from bit `k` on takes off the remainder by `2 ^ k`. -/
theorem highBits_toNat (b : Byte) (k : Nat) : (b &&& (BitVec.allOnes 8 <<< k)).toNat = b.toNat / 2 ^ k * 2 ^ k := by
  have := b.isLt
  have := Nat.div_mul_le_self b.toNat (2 ^ k)
  rw [← BitVec.shiftLeft_ushiftRight, BitVec.toNat_shiftLeft, BitVec.toNat_ushiftRight, Nat.shiftRight_eq_div_pow,
    Nat.shiftLeft_eq, Nat.mod_eq_of_lt (by omega)]

/-- A reserved row with a mask of its own holds the codes from one power of two to below the next. -/
theorem inRow_iff {k : Nat} (hk : k < 8) (op : Byte) :
    inRow (BitVec.allOnes 8 <<< k) (BitVec.ofNat 8 (2 ^ k)) op ↔ 2 ^ k ≤ op.toNat ∧ op.toNat < 2 * 2 ^ k := by
  have pos : 0 < 2 ^ k := Nat.two_pow_pos k
  have small : 2 ^ k < 2 ^ 8 := Nat.pow_lt_pow_right (by omega) hk
  rw [inRow, ← BitVec.toNat_inj, highBits_toNat, BitVec.toNat_ofNat, Nat.mod_eq_of_lt small, Nat.mul_eq_right pos.ne',
    Nat.div_eq_iff pos]
  omega

theorem inRow04_iff (op : Byte) : inRow 0xFC#8 0x04#8 op ↔ 4 ≤ op.toNat ∧ op.toNat < 8 := inRow_iff (k := 2) (by decide) op
theorem inRow08_iff (op : Byte) : inRow 0xF8#8 0x08#8 op ↔ 8 ≤ op.toNat ∧ op.toNat < 16 := inRow_iff (k := 3) (by decide) op
theorem inRow10_iff (op : Byte) : inRow 0xF0#8 0x10#8 op ↔ 16 ≤ op.toNat ∧ op.toNat < 32 := inRow_iff (k := 4) (by decide) op
theorem inRow20_iff (op : Byte) : inRow 0xE0#8 0x20#8 op ↔ 32 ≤ op.toNat ∧ op.toNat < 64 := inRow_iff (k := 5) (by decide) op
theorem inRow40_iff (op : Byte) : inRow 0xC0#8 0x40#8 op ↔ 64 ≤ op.toNat ∧ op.toNat < 128 := inRow_iff (k := 6) (by decide) op
theorem inRow80_iff (op : Byte) : inRow 0x80#8 0x80#8 op ↔ 128 ≤ op.toNat ∧ op.toNat < 256 := inRow_iff (k := 7) (by decide) op

/-- The instruction of each CMD code, by the row that the code lies in. -/
inductive CommandRow (ign : BitVec 24) : Byte → Instr → Prop where
  | nop : CommandRow ign 0x00#8 (.nop ign)
  | decompress : CommandRow ign 0x01#8 (.decompress ign)
  | compress : CommandRow ign 0x02#8 (.compress ign)
  | reserved03 : CommandRow ign 0x03#8 (.reserved03 ign)
  | reserved04 {op : Byte} (row : inRow 0xFC#8 0x04#8 op) : CommandRow ign op (.reserved04 op ign)
  | reserved08 {op : Byte} (row : inRow 0xF8#8 0x08#8 op) : CommandRow ign op (.reserved08 op ign)
  | reserved10 {op : Byte} (row : inRow 0xF0#8 0x10#8 op) : CommandRow ign op (.reserved10 op ign)
  | reserved20 {op : Byte} (row : inRow 0xE0#8 0x20#8 op) : CommandRow ign op (.reserved20 op ign)
  | reserved40 {op : Byte} (row : inRow 0xC0#8 0x40#8 op) : CommandRow ign op (.reserved40 op ign)
  | reserved80 {op : Byte} (row : inRow 0x80#8 0x80#8 op) : CommandRow ign op (.reserved80 op ign)

/-- Every code lies in the row that the decoder picks. -/
theorem decodeCommand_row (w : Word) : CommandRow (w.extractLsb' 8 24) (w.extractLsb' 0 8) (decodeCommand w) := by
  unfold decodeCommand
  generalize w.extractLsb' 0 8 = op
  generalize w.extractLsb' 8 24 = ign
  dsimp only
  split_ifs with h00 h01 h02 h03 h04 h08 h10 h20 h40
  · exact h00 ▸ .nop
  · exact h01 ▸ .decompress
  · exact h02 ▸ .compress
  · exact h03 ▸ .reserved03
  · exact .reserved04 h04
  · exact .reserved08 h08
  · exact .reserved10 h10
  · exact .reserved20 h20
  · exact .reserved40 h40
  · rw [inRow04_iff] at h04; rw [inRow08_iff] at h08; rw [inRow10_iff] at h10; rw [inRow20_iff] at h20
    rw [inRow40_iff] at h40
    exact .reserved80 ((inRow80_iff op).2 (by bv_omega))

/-- No code lies in two rows: an instruction in whose row the code lies is the one that the decoder gives. -/
theorem decodeCommand_of_row {w : Word} {i : Instr} (h : CommandRow (w.extractLsb' 8 24) (w.extractLsb' 0 8) i) :
    decodeCommand w = i := by
  unfold decodeCommand
  generalize w.extractLsb' 0 8 = op at h ⊢
  generalize w.extractLsb' 8 24 = ign at h ⊢
  cases h with
  | nop | decompress | compress | reserved03 => rfl
  | reserved04 row | reserved08 row | reserved10 row | reserved20 row | reserved40 row | reserved80 row =>
    simp only [inRow04_iff, inRow08_iff, inRow10_iff, inRow20_iff, inRow40_iff, inRow80_iff] at row ⊢
    simp (disch := omega) only [← BitVec.toNat_inj, BitVec.toNat_ofNat, if_neg, if_pos]

theorem CommandRow.wf {ign : BitVec 24} {op : Byte} {i : Instr} (h : CommandRow ign op i) : i.wf = true := by
  cases h with
  | nop | decompress | compress | reserved03 => rfl
  | reserved04 row | reserved08 row | reserved10 row | reserved20 row | reserved40 row | reserved80 row =>
    exact decide_eq_true row

theorem CommandRow.slot {ign : BitVec 24} {op : Byte} {i : Instr} (h : CommandRow ign op i) : i.slot = .command := by
  cases h <;> rfl

theorem CommandRow.encode {ign : BitVec 24} {op : Byte} {i : Instr} (h : CommandRow ign op i) :
    encode i = commandBytes op ign := by
  cases h <;> rfl

/-! ### The rows of the window port (R79) -/

/-- The instruction of each value of WOP. -/
inductive PortRow (addr : BitVec 12) (data : Byte) : BitVec 2 → Instr → Prop where
  | wnone : PortRow addr data 0b00#2 (.wnone addr data)
  | wget : PortRow addr data 0b01#2 (.wget addr data)
  | wappend : PortRow addr data 0b10#2 (.wappend addr data)
  | wset : PortRow addr data 0b11#2 (.wset addr data)

/-- The two bits of WOP in a window-port word. -/
theorem wop_bits (w : BitVec 22) :
    w.getLsbD 20 = (w.extractLsb' 20 2).getLsbD 0 ∧ w.getLsbD 21 = (w.extractLsb' 20 2).getLsbD 1 := by
  simp only [BitVec.getLsbD_extractLsb']
  exact ⟨rfl, rfl⟩

/-- Every value of WOP has a row, and the decoder picks it. -/
theorem decodePort_row (w : BitVec 22) :
    PortRow (w.extractLsb' 8 12) (w.extractLsb' 0 8) (w.extractLsb' 20 2) (decodePort w) := by
  unfold decodePort
  rw [(wop_bits w).1, (wop_bits w).2]
  generalize w.extractLsb' 20 2 = wop
  obtain rfl | rfl | rfl | rfl : wop = 0b00#2 ∨ wop = 0b01#2 ∨ wop = 0b10#2 ∨ wop = 0b11#2 := by bv_omega
  · exact .wnone
  · exact .wget
  · exact .wappend
  · exact .wset

theorem decodePort_of_row {w : BitVec 22} {i : Instr}
    (h : PortRow (w.extractLsb' 8 12) (w.extractLsb' 0 8) (w.extractLsb' 20 2) i) : decodePort w = i := by
  unfold decodePort
  rw [(wop_bits w).1, (wop_bits w).2]
  generalize w.extractLsb' 20 2 = wop at h ⊢
  cases h <;> rfl

theorem PortRow.wf {addr : BitVec 12} {data : Byte} {wop : BitVec 2} {i : Instr} (h : PortRow addr data wop i) :
    i.wf = true := by
  cases h <;> rfl

theorem PortRow.slot {addr : BitVec 12} {data : Byte} {wop : BitVec 2} {i : Instr} (h : PortRow addr data wop i) :
    i.slot = .winPort := by
  cases h <;> rfl

theorem PortRow.encode {addr : BitVec 12} {data : Byte} {wop : BitVec 2} {i : Instr} (h : PortRow addr data wop i) :
    encode i = portBytes wop addr data := by
  cases h <;> rfl

/-! ### Words and their bytes -/

/-- The bytes that a CMD word was put together from (R78). -/
theorem commandBytes_join (b0 b1 b2 b3 : Byte) : commandBytes b0 (b3 ++ b2 ++ b1 : BitVec (8 + 8 + 8)) = [b0, b1, b2, b3] := by
  have := b1.isLt; have := b2.isLt; have := b3.isLt
  have word : (b3 ++ b2 ++ b1 : BitVec (8 + 8 + 8)).toNat = b3.toNat * 65536 + b2.toNat * 256 + b1.toNat := by
    rw [toNat_join, toNat_join]; omega
  have e1 : BitVec.extractLsb' (n := 8 + 8 + 8) 0 8 (b3 ++ b2 ++ b1) = b1 :=
    BitVec.eq_of_toNat_eq (by rw [toNat_field, word]; omega)
  have e2 : BitVec.extractLsb' (n := 8 + 8 + 8) 8 8 (b3 ++ b2 ++ b1) = b2 :=
    BitVec.eq_of_toNat_eq (by rw [toNat_field, word]; omega)
  have e3 : BitVec.extractLsb' (n := 8 + 8 + 8) 16 8 (b3 ++ b2 ++ b1) = b3 :=
    BitVec.eq_of_toNat_eq (by rw [toNat_field, word]; omega)
  rw [commandBytes, e1, e2, e3]

/-- The fields that a descriptor was put together from (R74, R75). -/
theorem decodeBackref_descriptor (p : BitVec 12) {len : Nat} (h : 3 ≤ len ∧ len ≤ 18) :
    decodeBackref (p.extractLsb' 0 8) (p.extractLsb' 8 4 ++ BitVec.ofNat 4 (len - 3)) = .bref p len := by
  have := p.isLt
  have high : (p.extractLsb' 8 4 ++ BitVec.ofNat 4 (len - 3)).toNat = p.toNat / 256 % 16 * 16 + (len - 3) := by
    rw [toNat_join, toNat_field, BitVec.toNat_ofNat]; omega
  rw [decodeBackref, lengthCode_toNat, high, Instr.bref.injEq]
  refine ⟨BitVec.eq_of_toNat_eq ?_, by omega⟩
  rw [sourceIndex_toNat, high, toNat_field]; omega

/-- The bytes that a descriptor's fields were taken from (R74, R75). -/
theorem encode_decodeBackref (low high : Byte) : encode (decodeBackref low high) = [low, high] := by
  have := low.isLt; have := high.isLt
  rw [decodeBackref, encode, descriptor, List.cons.injEq, List.cons.injEq]
  refine ⟨BitVec.eq_of_toNat_eq ?_, BitVec.eq_of_toNat_eq ?_, rfl⟩
  · rw [toNat_field, sourceIndex_toNat]; omega
  · rw [toNat_join, toNat_field, sourceIndex_toNat, BitVec.toNat_ofNat, lengthCode_toNat]; omega

theorem decodeBackref_wf (low high : Byte) : (decodeBackref low high).wf = true := by
  have code := lengthCode_toNat high
  exact decide_eq_true (by omega)

/-- A window-port word's third byte holds no bit above bit 21 of the word (R79). -/
theorem port_fits_iff (b2 : Byte) : b2 &&& 0xC0#8 = 0#8 ↔ b2.toNat < 64 := by
  have high : (b2 &&& 0xC0#8).toNat = b2.toNat / 2 ^ 6 * 2 ^ 6 := highBits_toNat b2 6
  rw [← BitVec.toNat_inj, high, BitVec.toNat_ofNat]
  omega

theorem port_wop_toNat (b0 b1 : Byte) (x : BitVec 6) :
    (BitVec.extractLsb' (n := 6 + 8 + 8) 20 2 (x ++ b1 ++ b0)).toNat = x.toNat / 16 := by
  have := b0.isLt; have := b1.isLt; have := x.isLt
  rw [toNat_field, toNat_join, toNat_join]; omega

/-- The third byte of a window-port word with these fields. -/
theorem portTop_toNat (wop : BitVec 2) (addr : BitVec 12) :
    (0#2 ++ wop ++ addr.extractLsb' 8 4 : BitVec (2 + 2 + 4)).toNat = wop.toNat * 16 + addr.toNat / 256 := by
  have := addr.isLt
  rw [toNat_join, toNat_join, toNat_field, BitVec.toNat_ofNat]; omega

/-- The instruction of a window-port word whose upper six bits are these. -/
theorem decodePort_join {wop : BitVec 2} {addr : BitVec 12} {data : Byte} {i : Instr} (row : PortRow addr data wop i)
    {x : BitVec 6} (top : x.toNat = wop.toNat * 16 + addr.toNat / 256) :
    decodePort (x ++ addr.extractLsb' 0 8 ++ data) = i := by
  have := addr.isLt; have := wop.isLt
  have addrField : BitVec.extractLsb' (n := 6 + 8 + 8) 8 12 (x ++ addr.extractLsb' 0 8 ++ data) = addr :=
    BitVec.eq_of_toNat_eq (by rw [port_addr_toNat, top, toNat_field]; omega)
  have wopField : BitVec.extractLsb' (n := 6 + 8 + 8) 20 2 (x ++ addr.extractLsb' 0 8 ++ data) = wop :=
    BitVec.eq_of_toNat_eq (by rw [port_wop_toNat, top]; omega)
  apply decodePort_of_row
  rwa [addrField, port_data, wopField]

/-- The bytes of a window-port word that has no bit above bit 21, from its fields. -/
theorem portBytes_join (b0 b1 : Byte) {b2 : Byte} (fits : b2.toNat < 64) :
    portBytes (BitVec.extractLsb' (n := 6 + 8 + 8) 20 2 (b2.setWidth 6 ++ b1 ++ b0))
      (BitVec.extractLsb' (n := 6 + 8 + 8) 8 12 (b2.setWidth 6 ++ b1 ++ b0)) b0 = [b0, b1, b2] := by
  have := b1.isLt
  rw [portBytes, List.cons.injEq, List.cons.injEq, List.cons.injEq]
  refine ⟨rfl, BitVec.eq_of_toNat_eq ?_, BitVec.eq_of_toNat_eq ?_, rfl⟩
  · rw [toNat_field, port_addr_toNat]; omega
  · rw [portTop_toNat, port_wop_toNat, port_addr_toNat, BitVec.toNat_setWidth]; omega

/-! ### Decoding an encoding -/

theorem decode_encode_header (h : BitVec 16) (rest : List Byte) :
    decode .header (encode (.hdr h) ++ rest) = .ok (.hdr h, rest) := by
  rw [encode, List.cons_append, List.cons_append, List.nil_append, decode, decodeHeader, header_join]

theorem decode_descriptor (p : BitVec 12) {len : Nat} (h : 3 ≤ len ∧ len ≤ 18) (rest : List Byte) :
    decode .backref (descriptor p len ++ rest) = .ok (.bref p len, rest) := by
  rw [descriptor, List.cons_append, List.cons_append, List.nil_append, decode, decodeBackref_descriptor p h]

theorem decode_commandBytes {op : Byte} {ign : BitVec 24} {i : Instr} (row : CommandRow ign op i) (rest : List Byte) :
    decode .command (commandBytes op ign ++ rest) = .ok (i, rest) := by
  rw [commandBytes, List.cons_append, List.cons_append, List.cons_append, List.cons_append, List.nil_append, decode,
    decodeCommand_of_row (i := i)]
  rwa [command_op, command_ignored, ignored_join]

theorem decode_portBytes {wop : BitVec 2} {addr : BitVec 12} {data : Byte} {i : Instr} (row : PortRow addr data wop i)
    (rest : List Byte) : decode .winPort (portBytes wop addr data ++ rest) = .ok (i, rest) := by
  have := addr.isLt; have := wop.isLt
  have top := portTop_toNat wop addr
  rw [portBytes, List.cons_append, List.cons_append, List.cons_append, List.nil_append, decode,
    if_pos ((port_fits_iff _).2 (by omega)), decodePort_join row]
  rw [BitVec.toNat_setWidth, top]; omega

/-- Settles O1, row by row: the fields of each word stand in its bytes, and no two rows share a word. -/
theorem decodeOfEncodeIsInstruction : Obligations.DecodeOfEncodeIsInstruction := by
  intro i rest wf
  cases i with
  | hdr h => exact decode_encode_header h rest
  | ctrl | lit => rfl
  | bref p len => exact decode_descriptor p (of_decide_eq_true wf) rest
  | nop => exact decode_commandBytes .nop rest
  | decompress => exact decode_commandBytes .decompress rest
  | compress => exact decode_commandBytes .compress rest
  | reserved03 => exact decode_commandBytes .reserved03 rest
  | reserved04 => exact decode_commandBytes (.reserved04 (of_decide_eq_true wf)) rest
  | reserved08 => exact decode_commandBytes (.reserved08 (of_decide_eq_true wf)) rest
  | reserved10 => exact decode_commandBytes (.reserved10 (of_decide_eq_true wf)) rest
  | reserved20 => exact decode_commandBytes (.reserved20 (of_decide_eq_true wf)) rest
  | reserved40 => exact decode_commandBytes (.reserved40 (of_decide_eq_true wf)) rest
  | reserved80 => exact decode_commandBytes (.reserved80 (of_decide_eq_true wf)) rest
  | wnone => exact decode_portBytes .wnone rest
  | wget => exact decode_portBytes .wget rest
  | wappend => exact decode_portBytes .wappend rest
  | wset => exact decode_portBytes .wset rest

/-! ### Encoding what was decoded -/

theorem encode_decodeHeader (b0 b1 : Byte) : encode (decodeHeader b0 b1) = [b0, b1] := by
  rw [decodeHeader, encode, header_low, header_high]

theorem encode_decodeCommand (b0 b1 b2 b3 : Byte) : encode (decodeCommand (b3 ++ b2 ++ b1 ++ b0)) = [b0, b1, b2, b3] := by
  rw [(decodeCommand_row _).encode, command_op, command_ignored, commandBytes_join]

theorem encode_decodePort (b0 b1 : Byte) {b2 : Byte} (fits : b2 &&& 0xC0#8 = 0#8) :
    encode (decodePort (b2.setWidth 6 ++ b1 ++ b0)) = [b0, b1, b2] := by
  rw [(decodePort_row _).encode, port_data, portBytes_join b0 b1 ((port_fits_iff b2).1 fits)]

/-- Settles O2: the decoder takes whole words, and each is the encoding of what it decodes to. -/
theorem encodeOfDecodeIsBytes : Obligations.EncodeOfDecodeIsBytes := by
  intro slot bs i rest h
  match slot, bs, h with
  | .header, b0 :: b1 :: _, rfl => exact ⟨rfl, rfl, congrArg (· ++ rest) (encode_decodeHeader b0 b1)⟩
  | .control, _ :: _, rfl | .literal, _ :: _, rfl => exact ⟨rfl, rfl, rfl⟩
  | .backref, low :: high :: _, rfl =>
    exact ⟨decodeBackref_wf low high, rfl, congrArg (· ++ rest) (encode_decodeBackref low high)⟩
  | .command, b0 :: b1 :: b2 :: b3 :: _, rfl =>
    have row := decodeCommand_row (b3 ++ b2 ++ b1 ++ b0)
    exact ⟨row.wf, row.slot, congrArg (· ++ rest) (encode_decodeCommand b0 b1 b2 b3)⟩
  | .winPort, b0 :: b1 :: b2 :: bs, h =>
    rw [decode] at h
    split at h
    case isTrue fits =>
      cases h
      have row := decodePort_row (b2.setWidth 6 ++ b1 ++ b0)
      exact ⟨row.wf, row.slot, congrArg (· ++ rest) (encode_decodePort b0 b1 fits)⟩
    case isFalse => cases h

/-! ### What the decoder rejects (R80) -/

/-- Settles O3, by how many bytes are given: a slot's whole word decodes, but for the two bits of a window-port word. -/
theorem decodeRejectsOnlyPartialWords : Obligations.DecodeRejectsOnlyPartialWords := by
  intro slot bs
  cases slot with
  | header | backref =>
    match bs with
    | [] | [_] | _ :: _ :: _ => simp [decode, Slot.size]
  | control | literal =>
    match bs with
    | [] | _ :: _ => simp [decode, Slot.size]
  | command =>
    match bs with
    | [] | [_] | [_, _] | [_, _, _] | _ :: _ :: _ :: _ :: _ => simp [decode, Slot.size]
  | winPort =>
    match bs with
    | [] | [_] | [_, _] => simp [decode, Slot.size]
    | _ :: _ :: b2 :: _ =>
      by_cases fits : b2 &&& 0xC0#8 = 0#8
      · simp [decode, Slot.size, fits, (port_fits_iff b2).1 fits]
      · simp [decode, Slot.size, fits, Nat.not_lt.1 (mt (port_fits_iff b2).2 fits)]

/-- Settles O5: each of the words is the encoding of a well-formed instruction. -/
theorem writtenOutWordsDecode : Obligations.WrittenOutWordsDecode :=
  have back (i : Instr) (wf : i.wf = true) := decodeOfEncodeIsInstruction i [] wf
  ⟨back (.bref 0xFEE#12 6) rfl, back (.bref 0x000#12 3) rfl, back (.bref 0xFFF#12 18) rfl, back (.bref 0x123#12 10) rfl,
    back (.lit 0x41#8) rfl, back (.hdr 6#16) rfl, back (.hdr 0x1234#16) rfl, back (.ctrl 0x07#8) rfl,
    back (.decompress 1#24) rfl, back (.reserved80 0xFF#8 0#24) rfl, back (.wappend 0xFEE#12 0x5A#8) rfl⟩

end Sys2Proof
end

section
/-! The words of the window port run the operations of the window unit (30_encoding R79, 40_window R101 to R103). -/

namespace Sys2Proof.Machine

theorem exec_wnone (addr : BitVec 12) (data : Byte) (s : State) : exec (.wnone addr data) s = .next s := rfl

theorem exec_wget (addr : BitVec 12) (data : Byte) (s : State) :
    exec (.wget addr data) s = .next { s with portData := winGet addr.toNat s } := rfl

theorem exec_wappend (addr : BitVec 12) (data : Byte) (s : State) :
    exec (.wappend addr data) s = .next (winAppend data s) := rfl

theorem exec_wset (addr : BitVec 12) (data : Byte) (s : State) :
    exec (.wset addr data) s = .next (winSet addr.toNat data s) := rfl

/-- Settles O21: WADDR is an index of the window as it stands, and CUR moves by a 12-bit addition. -/
theorem windowPortWordsRun : Obligations.WindowPortWordsRun := by
  intro addr data s
  refine ⟨exec_wnone addr data s, ?_, ⟨winAppend data s, exec_wappend addr data s, ?_, winByte_append data s, rfl⟩,
    winSet addr.toNat data s, exec_wset addr data s, fun i => ?_, rfl⟩
  · rw [exec_wget, winGet, winIndex_toNat]
  · exact BitVec.toNat_add s.cur 1#12
  · rw [winByte_set, winIndex_toNat]

end Sys2Proof.Machine
end

section
/-! What a read of the window gives after seeding, a write and a row of appends (40_window R100 to R106). -/

namespace Sys2Proof.Machine

/-- Settles O20: a seeded window lists no byte, so every index holds the default, SEED_BYTE. -/
theorem seedFillsTheWindow : Obligations.SeedFillsTheWindow :=
  fun s => ⟨fun i => winByte_seed s (winIndex i), seed_cur s, rfl⟩

/-! ### The index -/

theorem dvd_sub_winIndex (i : Int) : (4096 : Int) ∣ i - winIndex i := by
  unfold winIndex; omega

/-- Settles O22: the index is `winIndex i`. -/
theorem windowIndexIsReduced : Obligations.WindowIndexIsReduced :=
  fun i _ => ⟨winIndex i, winIndex_lt i, dvd_sub_winIndex i, rfl⟩

/-- Going back from a cursor by as much as it moved on gives the index it came from, across the end of the window too. -/
theorem winIndex_add_sub (c : BitVec 12) (k : Nat) : winIndex ((c + BitVec.ofNat 12 k).toNat - k) = c.toNat := by
  have := c.isLt
  rw [winIndex, BitVec.toNat_add, BitVec.toNat_ofNat]
  omega

/-! ### One write -/

theorem winGet_set_same (i : Int) (b : Byte) (s : State) : winGet i (winSet i b s) = b := by
  rw [winGet, winByte_set, if_pos rfl]

theorem winGet_append_cur (b : Byte) (s : State) : winGet s.cur.toNat (winAppend b s) = b := by
  rw [winGet, winIndex_toNat, winByte_append, if_pos rfl]

/-- Settles O23: a write and a read reduce their index alike, and CUR needs no reduction. -/
theorem readAfterWriteReturnsTheByte : Obligations.ReadAfterWriteReturnsTheByte :=
  fun i b s => ⟨winGet_set_same i b s, winGet_append_cur b s⟩

/-! ### A row of appends -/

/-- Up to 4096 appends leave the first byte where CUR stood before them. -/
theorem winGet_appendAll_first (b : Byte) (bs : List Byte) (s : State) (hl : (b :: bs).length ≤ 4096) :
    winGet ((winAppendAll (b :: bs) s).cur.toNat - (b :: bs).length) (winAppendAll (b :: bs) s) = b := by
  have offset : (s.cur.toNat + 4096 - s.cur.toNat) % 4096 = 0 := by omega
  rw [winGet, winAppendAll_cur, winIndex_add_sub, winByte_appendAll _ s _ hl s.cur.isLt, offset,
    List.getElem?_cons_zero, Option.getD_some]

/-- Settles O24: of all the appends only the last `k` matter, and the byte in question is the first of these. -/
theorem recentAppendsLieBehindTheCursor : Obligations.RecentAppendsLieBehindTheCursor := by
  intro bs s k pos hk hw
  have inside : bs.length - k < bs.length := by omega
  have last := List.drop_eq_getElem_cons inside
  have size : (bs[bs.length - k] :: bs.drop (bs.length - k + 1)).length = k := by
    rw [← last, List.length_drop]; omega
  have first := winGet_appendAll_first _ _ (winAppendAll (bs.take (bs.length - k)) s) (size.trans_le hw)
  rw [size, ← last, ← winAppendAll_append, List.take_append_drop] at first
  rw [List.getElem?_eq_getElem inside]
  exact congrArg some first

/-- Up to 4096 appends leave every index that none of them reached. -/
theorem winByte_appendAll_of_unreached (bs : List Byte) (s : State) {i : Nat} (hl : bs.length ≤ 4096) (hi : i < 4096)
    (unreached : ∀ j < bs.length, i ≠ (s.cur.toNat + j) % 4096) : winByte (winAppendAll bs s) i = winByte s i := by
  have := s.cur.isLt
  have beyond : bs.length ≤ (i + 4096 - s.cur.toNat) % 4096 := by
    by_contra reached
    exact unreached _ (Nat.not_le.1 reached) (by omega)
  rw [winByte_appendAll bs s i hl hi, List.getElem?_eq_none beyond, Option.getD_none]

/-- Settles O25: an index that no append reached holds what seeding left there. -/
theorem seedTerritoryStays : Obligations.SeedTerritoryStays := by
  intro bs s i hl hi unreached
  rw [winByte_appendAll_of_unreached bs (seed s) hl.le hi unreached, winByte_seed]

end Sys2Proof.Machine
end

section
/-! The group of up to 8 decisions and its bytes (41_bitflag R121 to R126). -/

namespace Sys2Proof.Machine

/-- What a group says of the decisions `ds` that went into it, made from the state `s`. -/
structure HoldsDecisions (ds : List (Bool × List Byte)) (s t : State) : Prop where
  nf : t.nf = ds.length
  pl : t.pl = (ds.flatMap (·.2)).length
  payload : t.pb.toList.take t.pl = ds.flatMap (·.2)
  flag : ∀ j, t.fl.getLsbD j = (ds[j]?.map (·.1)).getD false
  frame : t = { s with fl := t.fl, nf := t.nf, pb := t.pb, pl := t.pl }

theorem groupReset_holds (s : State) : HoldsDecisions [] s (groupReset s) where
  nf := rfl
  pl := rfl
  payload := rfl
  flag j := by rw [List.getElem?_nil]; exact BitVec.getLsbD_zero
  frame := rfl

/-- A decision goes behind those the group holds, where FL has a flag and PB has bytes left for it. -/
theorem HoldsDecisions.add {ds : List (Bool × List Byte)} {s t : State} (h : HoldsDecisions ds s t)
    (f : Bool) {xs : List Byte} (flags : ds.length < 8) (fits : (ds.flatMap (·.2)).length + xs.length ≤ 16) :
    HoldsDecisions (ds ++ [(f, xs)]) s (addDecision f xs t) := by
  obtain ⟨nf, pl, payload, flag, frame⟩ := h
  rw [addDecision_frame]
  refine ⟨by simp [nf], by simp [pl], ?_, fun j => ?_, by rw [frame]⟩
  · rw [addPayload_bytes xs t (by omega), payload]; simp
  · rw [addFlag_bit, flag, nf]
    obtain lt | rfl | gt := Nat.lt_trichotomy j ds.length
    · simp [List.getElem?_append_left lt, lt.ne]
    · simp [flags]
    · rw [List.getElem?_eq_none gt.le, List.getElem?_eq_none (by simpa using gt)]
      simp [gt.ne']

theorem payload_length_le {ds : List (Bool × List Byte)} (short : ∀ d ∈ ds, d.2.length ≤ 2) :
    (ds.flatMap (·.2)).length ≤ 2 * ds.length := by
  induction ds with
  | nil => exact Nat.le_refl 0
  | cons d ds ih =>
    have head := short d (by simp)
    have tail := ih fun e he => short e (by simp [he])
    simp only [List.flatMap_cons, List.length_append, List.length_cons]
    omega

/-- Up to 8 decisions of up to two bytes fit into a fresh group. -/
theorem decisions_hold {ds : List (Bool × List Byte)} (count : ds.length ≤ 8) (short : ∀ d ∈ ds, d.2.length ≤ 2)
    (s : State) :
    HoldsDecisions ds s (ds.foldl (fun u d => addDecision d.1 d.2 u) (groupReset s)) := by
  induction ds using List.reverseRecOn with
  | nil => exact groupReset_holds s
  | append_singleton ds d ih =>
    rw [List.length_append, List.length_singleton] at count
    have earlier : ∀ e ∈ ds, e.2.length ≤ 2 := fun e he => short e (by simp [he])
    have last : d.2.length ≤ 2 := short d (by simp)
    have bytes := payload_length_le earlier
    rw [List.foldl_append]
    exact (ih (by omega) earlier).add d.1 (by omega) (by omega)

/-- Settles O26, by `HoldsDecisions`, which each decision keeps. -/
theorem groupHoldsDecisionsInOrder : Obligations.GroupHoldsDecisionsInOrder := by
  intro ds s count sizes
  obtain ⟨nf, pl, payload, flag, frame⟩ := decisions_hold count (fun d hd => (sizes d hd).2) s
  exact ⟨nf, pl, congrArg _ payload, flag, frame⟩

end Sys2Proof.Machine
end

section
/-! The step as `exec` of the instruction that the bytes in its place decode to (R120, R176 to R180, R245). -/

namespace Sys2Proof.Machine

/-! ### What the bytes decode to -/

theorem decode_unique {slot : Slot} {bs : List Byte} {i j : Instr} (e : decode slot bs = .ok (j, []))
    (h : decode slot bs = .ok (i, [])) : i = j := by
  rw [e] at h
  cases h
  rfl

/-- A window-port word cut into bytes, the two bits above bit 21 being 0, decodes as that word (R79, log 14). -/
theorem decode_winPort_bytes (b0 b1 : Byte) (b2 : BitVec 6) :
    decode .winPort [b0, b1, b2.setWidth 8] = .ok (decodePort (b2 ++ b1 ++ b0), []) := by
  have fits : b2.setWidth 8 &&& 0xC0#8 = 0#8 := (port_fits_iff _).2 (by rw [BitVec.toNat_setWidth]; omega)
  have top : (b2.setWidth 8).setWidth 6 = b2 := by simp
  rw [decode, if_pos fits, top]

/-! ### The engine step of a token -/

theorem engineStep_controlToken {s : State} (f : s.fsm = .dCtrl) (r : s.rem ≠ 0#16) (a : s.rp < s.par.inCap) :
    engineStep s = exec (controlToken s) s := by
  simp only [engineStep, f, ctrlStep, if_neg r, runToken, if_pos (Nat.succ_le_of_lt a)]

theorem engineStep_literalToken {s : State} (f : s.fsm = .dUnit) (r : s.rem ≠ 0#16) (b : s.bit < 8)
    (g : nextFlag s = true) (a : s.rp < s.par.inCap) : engineStep s = exec (literalToken s) (flagTaken s) := by
  simp only [engineStep, f, unitStep, if_neg r, if_neg b.ne, if_pos g]
  exact if_pos (Nat.succ_le_of_lt a)

theorem engineStep_backrefToken {s : State} (f : s.fsm = .dUnit) (r : 2 ≤ s.rem.toNat) (b : s.bit < 8)
    (g : nextFlag s = false) (a : s.rp + 1 < s.par.inCap) : engineStep s = exec (backrefToken s) (flagTaken s) := by
  have left : s.rem ≠ 0#16 := by rintro e; simp [e] at r
  simp only [engineStep, f, unitStep, if_neg left, if_neg b.ne, g, Bool.false_eq_true, if_false, if_neg (Nat.not_lt.2 r)]
  exact if_pos (Nat.succ_le_of_lt a)

/-! ### The step -/

theorem step_running {s : State} (h : nextInput s = .tick) (port : s.port = none) (f : s.fsm ≠ .idle) :
    step s = engineStep (newEpoch (dropInput s)) :=
  (step_tick h).trans (engineTurn_running f port)

theorem step_portWord {s : State} {w : BitVec 22} (h : nextInput s = .tick) (f : s.fsm ≠ .idle) (port : s.port = some w) :
    step s = exec (decodePort w) { dropInput s with port := none } := by
  have running : (dropInput s).fsm ≠ .idle := f
  have placed : (dropInput s).port = some w := port
  rw [step_tick h, engineTurn, if_neg running, placed]

theorem step_cmdWrite {s : State} {w : Word} (h : nextInput s = .host (.writeReg .word 0x00 w)) :
    step s = exec (decodeCommand w) (if w.extractLsb' 0 8 = 0x00#8 then dropInput s else newEpoch (dropInput s)) := by
  split
  case isTrue nop => exact step_host h (by simp [HostAction.startsCommand, nop])
  case isFalse code => exact step_host_starts h (by simp [HostAction.startsCommand, code])

/-- An accepted DECOMPRESS runs the header token at IN[START] (R176, R242). -/
theorem exec_decompress_header {s : State} (idle : s.status.busy = false) (l : s.inLen.toNat ≤ s.par.inCap)
    (ign : BitVec 24) : exec (.decompress ign) s = exec (.hdr (headerAtStart s)) (seed (accept s)) := by
  show onCmdWrite s (commandEffect 1) = _
  rw [onCmdWrite_idle idle, commandEffect, beginCommand_goes l]
  rfl

/-- Settles O44, place by place: the bytes decode to the token or word that the step runs. -/
theorem stepRunsDecodedInstruction : Obligations.StepRunsDecodedInstruction := by
  intro s i
  refine ⟨fun h port f r a e => ?control, fun h port f r b g a e => ?literal, fun h port f r b g a e => ?backref,
    fun b0 b1 b2 b3 h e => ?command, fun b0 b1 b2 h f port e => ?winPort, fun ign idle l e => ?header⟩
  case control =>
    obtain rfl := decode_unique rfl e
    rw [step_running h port (by simp [f])]
    exact engineStep_controlToken (s := newEpoch (dropInput s)) f r a
  case literal =>
    obtain rfl := decode_unique rfl e
    rw [step_running h port (by simp [f])]
    exact engineStep_literalToken (s := newEpoch (dropInput s)) f r b g a
  case backref =>
    obtain rfl := decode_unique rfl e
    rw [step_running h port (by simp [f])]
    exact engineStep_backrefToken (s := newEpoch (dropInput s)) f r b g a
  case command =>
    obtain rfl := decode_unique rfl e
    rw [step_cmdWrite h, command_op]
    rfl
  case winPort =>
    obtain rfl := decode_unique (decode_winPort_bytes b0 b1 b2) e
    exact step_portWord h f port
  case header =>
    obtain rfl := decode_unique rfl e
    exact exec_decompress_header idle l ign

end Sys2Proof.Machine
end

section
/-! A copy of a match that the finder returned writes out the input bytes (42_matchfinder R142, R150). The decoder view is the
window in the middle of the copy, and a row of D_COPY steps has one closed form. -/

namespace Sys2Proof.Machine

/-! ### The decoder view -/

/-- The decoder view at `k` is what the window holds there once the first `k` input bytes are appended (R142). -/
theorem winByte_appendAll_eq_decoderView (s : State) {a : List Byte} (p : Nat) {k : Nat} (inside : k ≤ a.length)
    (short : a.length ≤ 4096) :
    winByte (winAppendAll (a.take k) s) (winIndex (p + k : Nat)) = decoderView s.cur.toNat (winByte s) a p k := by
  have back : (winIndex (p + k : Nat) + 4096 - s.cur.toNat) % 4096 = winIndex ((p : Int) + k - s.cur.toNat) := by
    have := s.cur.isLt
    unfold winIndex
    omega
  have size : (a.take k).length ≤ 4096 := (List.length_take_le' k a).trans short
  rw [winByte_appendAll _ s _ size (winIndex_lt _), back, decoderView]
  split
  case isTrue earlier =>
    rw [List.getElem?_take_of_lt earlier, List.getElem?_eq_getElem (by omega), List.getD_eq_getElem _ _ (by omega),
      Option.getD_some]
  case isFalse later =>
    rw [List.getElem?_eq_none ((List.length_take_le k a).trans (Nat.not_lt.1 later)), Option.getD_none]
    rfl

theorem isOccurrence_iff {c : Nat} {win : Nat → Byte} {a : List Byte} {len p : Nat} :
    isOccurrence c win a len p = true ↔ ∀ k < len, decoderView c win a p k = a.getD k 0#8 := by
  simp [isOccurrence]

/-- The window repeats the input bytes of a match, each once those before it are appended (R144). -/
theorem winByte_appendAll_of_matchFind {s : State} {a : List Byte} {m : Match} (short : a.length ≤ 4096)
    (found : matchFind s.cur.toNat (winByte s) a = some m) {k : Nat} (hk : k < m.length) :
    winByte (winAppendAll (a.take k) s) (winIndex (m.index + k : Nat)) = a.getD k 0#8 := by
  obtain ⟨-, length, -, candidate, -⟩ := longestMatch_some found
  simp only [isCandidate, Bool.and_eq_true] at candidate
  rw [winByte_appendAll_eq_decoderView s m.index (by omega) short]
  exact isOccurrence_iff.1 candidate.2 k hk

/-! ### A row of D_COPY steps -/

/-- The state that D_COPY steps leave once they have copied the bytes `bs` (R186). -/
def copiedRow (bs : List Byte) (s : State) : State :=
  { s with
    win := (winAppendAll bs s).win
    cur := s.cur + BitVec.ofNat 12 bs.length
    outBuf := (bytesWritten bs s).outBuf
    ol := s.ol + bs.length
    k := s.k + bs.length
    epoch := s.epoch + bs.length
    fsm := if s.k + bs.length = s.len then .dUnit else .dCopy }

theorem copiedRow_nil {s : State} (f : s.fsm = .dCopy) (more : s.k < s.len) : copiedRow [] s = s := by
  simp [copiedRow, winAppendAll, bytesWritten, more.ne, ← f]

theorem winByte_copiedRow (bs : List Byte) (s : State) : winByte (copiedRow bs s) = winByte (winAppendAll bs s) := by
  rw [winAppendAll_frame]
  exact winByte_congr rfl rfl rfl rfl

theorem copiedRow_cur (bs : List Byte) (s : State) : (copiedRow bs s).cur = (winAppendAll bs s).cur :=
  (winAppendAll_cur bs s).symm

theorem bytesWritten_append (xs ys : List Byte) (s : State) :
    bytesWritten (xs ++ ys) s = bytesWritten ys (bytesWritten xs s) := by
  induction xs generalizing s with
  | nil => rfl
  | cons x xs ih => exact ih (outByteWritten x s)

/-- One copied byte more. -/
theorem copied_copiedRow {bs : List Byte} {s : State} {b : Byte} (reads : copyByte (copiedRow bs s) = b)
    (more : s.k + bs.length < s.len) : copied (newEpoch (copiedRow bs s)) = copiedRow (bs ++ [b]) s := by
  have same : copyByte (newEpoch (copiedRow bs s)) = b := reads
  have cur : s.cur + BitVec.ofNat 12 bs.length + 1#12 = s.cur + BitVec.ofNat 12 (bs.length + 1) := by
    rw [BitVec.add_assoc, BitVec.ofNat_add]
  have win : (winAppendAll (bs ++ [b]) s).win =
      memWrite (winDefault s) (winAppendAll bs s).win (s.cur + BitVec.ofNat 12 bs.length).toNat b := by
    rw [winAppendAll_append, winAppendAll_frame bs]
    rfl
  have out : (bytesWritten (bs ++ [b]) s).outBuf = memWrite none (bytesWritten bs s).outBuf (s.ol + bs.length) b := by
    rw [bytesWritten_append, bytesWritten_frame bs]
    rfl
  rw [copied, same]
  simp only [copiedRow, win, out, List.length_append, List.length_singleton, ← Nat.add_assoc, ← cur, if_neg more.ne]
  rfl

theorem dropInput_of_empty {s : State} (empty : s.inputs = []) : dropInput s = s := by
  cases s
  cases empty
  rfl

/-- With nothing scheduled, D_COPY with room in OUT copies its byte. -/
theorem step_copy {s : State} (inputs : s.inputs = []) (port : s.port = none) (f : s.fsm = .dCopy)
    (room : s.ol < s.par.outCap) : step s = .next (copied (newEpoch s)) := by
  have tick : nextInput s = .tick := by rw [nextInput, inputs]; rfl
  rw [step_running tick port (by simp [f]), dropInput_of_empty inputs]
  exact engineStep_of_move (.copy f room)

theorem Steps.snoc {n : Nat} {s t u : State} (run : Steps n s t) (last : step t = .next u) : Steps (n + 1) s u := by
  induction run with
  | refl => exact .next last (.refl u)
  | next first _ ih => exact .next first (ih last)

/-- As many D_COPY steps as there are bytes copy the bytes `bs`, where each is the one that the window holds at its source
index once those before it are appended. -/
theorem steps_copiedRow {s : State} (inputs : s.inputs = []) (port : s.port = none) (f : s.fsm = .dCopy)
    (more : s.k < s.len) {bs : List Byte} (fits : s.k + bs.length ≤ s.len) (room : s.ol + bs.length ≤ s.par.outCap)
    (reads : ∀ j (hj : j < bs.length),
      winByte (winAppendAll (bs.take j) s) (winIndex (s.src.toNat + (s.k + j) : Nat)) = bs[j]) :
    Steps bs.length s (copiedRow bs s) := by
  induction bs using List.reverseRecOn with
  | nil =>
    rw [copiedRow_nil f more]
    exact .refl s
  | append_singleton bs b ih =>
    rw [List.length_append, List.length_singleton] at fits room ⊢
    have earlier := ih (by omega) (by omega) fun j hj => by
      have := reads j (by simp; omega)
      rwa [List.take_append_of_le_length hj.le, List.getElem_append_left hj] at this
    have byte : copyByte (copiedRow bs s) = b := by
      have := reads bs.length (by simp)
      rw [List.take_left, List.getElem_concat_length rfl] at this
      rwa [copyByte, winGet, winByte_copiedRow]
    have running : (copiedRow bs s).fsm = .dCopy := if_neg (by omega)
    have fit : (copiedRow bs s).ol < (copiedRow bs s).par.outCap := Nat.lt_of_succ_le room
    refine earlier.snoc ((step_copy (s := copiedRow bs s) inputs port running fit).trans ?_)
    rw [copied_copiedRow byte (by omega)]

/-- Settles O29: the match repeats the input bytes (R144), so these are the bytes that its D_COPY steps copy. -/
theorem matchCopyReproducesTheInput : Obligations.MatchCopyReproducesTheInput := by
  intro s a m inputs port f k short found src len room
  obtain ⟨atLeast, inside, -, -⟩ := matchFind_range found
  have size : (a.take m.length).length = m.length := List.length_take_of_le inside
  have run : Steps (a.take m.length).length s (copiedRow (a.take m.length) s) := by
    refine steps_copiedRow inputs port f (by omega) (by omega) (by omega) fun j hj => ?_
    rw [List.take_take, Nat.min_eq_left (by omega), src, k, Nat.zero_add,
      winByte_appendAll_of_matchFind (by omega) found (by omega), List.getElem_take, List.getD_eq_getElem]
  rw [size] at run
  refine ⟨_, run, if_pos (by omega), congrArg (s.ol + ·) size, fun x => ?_, fun i => congrFun (winByte_copiedRow _ s) i,
    copiedRow_cur _ s⟩
  refine (bytesWritten_lookup _ s x).trans ?_
  rw [size]
  split
  case isTrue written => exact List.getElem?_take_of_lt (by omega)
  case isFalse => rfl

end Sys2Proof.Machine
end

section
/-! The match finder's result is the greatest candidate in the order (L, p) (42_matchfinder R143 to R148), and it is what the
loops of R141 compute. -/

namespace Sys2Proof.Machine

/-! ### Candidates -/

theorem winIndex_natAdd (c len : Nat) : winIndex ((c : Int) + len) = (c + len) % 4096 := by
  unfold winIndex
  omega

/-- The decoder view on numbers, as `Candidate` writes it out (R142). -/
theorem decoderView_eq {c : Nat} (hc : c < 4096) (win : Nat → Byte) (a : List Byte) (p k : Nat) :
    decoderView c win a p k =
      if (p + k + 4096 - c) % 4096 < k then a.getD ((p + k + 4096 - c) % 4096) 0#8 else win ((p + k) % 4096) := by
  have back : winIndex ((p : Int) + k - c) = (p + k + 4096 - c) % 4096 := by unfold winIndex; omega
  simp only [decoderView, back, winIndex_natAdd]

/-- The finder's test is R143 to R146 for a length and an index in their ranges. -/
theorem candidate_iff {c : Nat} (hc : c < 4096) {win : Nat → Byte} {a : List Byte} {p len : Nat} :
    Candidate c win a p len ↔ 3 ≤ len ∧ len ≤ a.length ∧ p < windowSize ∧ isCandidate c win a len p = true := by
  have listed : ∀ j < a.length, a[j]? = some (a.getD j 0#8) := fun j hj => by
    rw [List.getElem?_eq_getElem hj, List.getD_eq_getElem _ _ hj]
  have view : ∀ k, len ≤ a.length → k < len →
      ((if (p + k + 4096 - c) % 4096 < k then a[(p + k + 4096 - c) % 4096]? else some (win ((p + k) % 4096))) = a[k]? ↔
        decoderView c win a p k = a.getD k 0#8) := by
    intro k inside hk
    rw [decoderView_eq hc, listed k (by omega)]
    split
    case isTrue earlier => rw [listed _ (by omega), Option.some_inj]
    case isFalse => exact Option.some_inj
  simp only [isCandidate, winIndex_natAdd, Bool.and_eq_true, bne_iff_ne, isOccurrence_iff, ← Nat.one_le_iff_ne_zero]
  constructor
  · rintro ⟨least, inside, positive, below, past, occurs⟩
    exact ⟨least, inside, below, ⟨positive, past⟩, fun k hk => (view k inside hk).1 (occurs k hk)⟩
  · rintro ⟨least, inside, below, ⟨positive, past⟩, occurs⟩
    exact ⟨least, inside, positive, below, past, fun k hk => (view k inside hk).2 (occurs k hk)⟩

/-! ### The greatest candidate -/

/-- `m` is the greatest candidate in the order (L, p) (R147). -/
def GreatestCandidate (c : Nat) (win : Nat → Byte) (a : List Byte) (m : Match) : Prop :=
  Candidate c win a m.index m.length ∧
    ∀ p len, Candidate c win a p len → len < m.length ∨ (len = m.length ∧ p ≤ m.index)

theorem GreatestCandidate.unique {c : Nat} {win : Nat → Byte} {a : List Byte} {m n : Match}
    (hm : GreatestCandidate c win a m) (hn : GreatestCandidate c win a n) : m = n := by
  obtain ⟨candm, topm⟩ := hm
  obtain ⟨candn, topn⟩ := hn
  have mn := topm _ _ candn
  have nm := topn _ _ candm
  have index : m.index = n.index := by omega
  have length : m.length = n.length := by omega
  cases m
  cases n
  cases index
  cases length
  rfl

theorem greatestCandidate_of_matchFind {c : Nat} (hc : c < 4096) {win : Nat → Byte} {a : List Byte} {m : Match}
    (found : matchFind c win a = some m) : GreatestCandidate c win a m := by
  obtain ⟨least, inside, below, test, top⟩ := longestMatch_some found
  refine ⟨(candidate_iff hc).2 ⟨least, inside, below, test⟩, fun p len candidate => ?_⟩
  obtain ⟨-, inside', below', test'⟩ := (candidate_iff hc).1 candidate
  obtain shorter | longer := Nat.lt_or_ge len m.length
  · exact .inl shorter
  · exact .inr (top len p longer inside' below' test')

theorem not_candidate_of_matchFind {c : Nat} (hc : c < 4096) {win : Nat → Byte} {a : List Byte}
    (noMatch : matchFind c win a = none) (p len : Nat) : ¬ Candidate c win a p len := by
  rw [candidate_iff hc]
  rintro ⟨least, inside, below, test⟩
  rw [longestMatch_none noMatch len p least inside below] at test
  cases test

/-- Settles O27: what the search returns is greatest, there is one greatest candidate at most, and it returns NoMatch only
where there is no candidate. -/
theorem matchFindPicksGreatestCandidate : Obligations.MatchFindPicksGreatestCandidate := by
  intro c win a hc
  refine ⟨fun m => ⟨greatestCandidate_of_matchFind hc, fun top => ?_⟩, not_candidate_of_matchFind hc, fun empty => ?_⟩
  · cases found : matchFind c win a with
    | none => exact absurd top.1 (not_candidate_of_matchFind hc found _ _)
    | some n => rw [(greatestCandidate_of_matchFind hc found).unique top]
  · cases found : matchFind c win a with
    | none => rfl
    | some n => exact absurd (greatestCandidate_of_matchFind hc found).1 (empty _ _)

/-! ### The loops of R141 -/

/-- The innermost lines of R141: what one index does to the running best. -/
def visit (c : Nat) (win : Nat → Byte) (a : List Byte) (len : Nat) (best : Option Match) (p : Nat) : Option Match :=
  if isCandidate c win a len p && improves best p len then some ⟨p, len⟩ else best

/-- The loops of R141 over the lengths from 3 to the bound. -/
def visitLengths (c : Nat) (win : Nat → Byte) (a : List Byte) (bound : Nat) : Option Match :=
  (List.range' 3 (bound + 1 - 3)).foldl (fun best len => (List.range windowSize).foldl (visit c win a len) best) none

theorem matchFindLoop_eq (c : Nat) (win : Nat → Byte) (a : List Byte) :
    matchFindLoop c win a = visitLengths c win a a.length := by
  have lines : ∀ len best p,
      (if p = 0 then best
        else if p = (c + len) % 4096 then best
        else if (List.range len).all fun k => decoderView c win a p k == a.getD k 0#8 then
          if improves best p len then some ⟨p, len⟩ else best
        else best) = visit c win a len best p := by
    intro len best p
    simp only [visit, isCandidate, isOccurrence, winIndex_natAdd]
    by_cases zero : p = 0
    · simp [zero]
    · by_cases past : p = (c + len) % 4096
      · simp [past]
      · simp [zero, past, ite_and]
  simp only [matchFindLoop, lines]
  rfl

/-- A longer candidate improves on the running best. -/
theorem improves_of_shorter {best : Option Match} {len : Nat} (shorter : ∀ m ∈ best, m.length < len) (p : Nat) :
    improves best p len = true := by
  cases best with
  | none => rfl
  | some m => simp [improves, shorter m rfl]

theorem improves_of_smaller {q p : Nat} (smaller : q < p) (len : Nat) : improves (some ⟨q, len⟩) p len = true := by
  simp [improves, smaller]

/-- The loop over the indices of one length, with a best of shorter ones so far, ends with the greatest index that passes. -/
theorem visit_indices {c : Nat} {win : Nat → Byte} {a : List Byte} {len : Nat} {best : Option Match}
    (shorter : ∀ m ∈ best, m.length < len) (bound : Nat) :
    (List.range bound).foldl (visit c win a len) best =
      match lastIndex (isCandidate c win a len) bound with
      | some p => some ⟨p, len⟩
      | none => best := by
  induction bound with
  | zero => rfl
  | succ p ih =>
    rw [List.range_succ, List.foldl_append, List.foldl_cons, List.foldl_nil, ih, visit, lastIndex]
    cases isCandidate c win a len p
    case false => rfl
    case true =>
      cases earlier : lastIndex (isCandidate c win a len) p with
      | none => simp only [improves_of_shorter shorter p, Bool.and_self, if_true]
      | some q => simp only [improves_of_smaller (lastIndex_some earlier).1 len, Bool.and_self, if_true]

/-- The loops up to a length give what the model's search from that length down gives. -/
theorem visitLengths_eq (c : Nat) (win : Nat → Byte) (a : List Byte) (bound : Nat) :
    visitLengths c win a bound = longestMatch c win a bound := by
  induction bound with
  | zero => rfl
  | succ n ih =>
    rw [longestMatch]
    split
    case isTrue small =>
      have noLengths : n + 1 + 1 - 3 = 0 := by unfold minLength at small; omega
      rw [visitLengths, noLengths]
      rfl
    case isFalse large =>
      have least : 2 ≤ n := by unfold minLength at large; omega
      have lengths : n + 1 + 1 - 3 = (n + 1 - 3) + 1 := by omega
      have last : 3 + 1 * (n + 1 - 3) = n + 1 := by omega
      have shorter : ∀ m ∈ longestMatch c win a n, m.length < n + 1 := fun m found =>
        Nat.lt_succ_of_le (longestMatch_some found).2.1
      rw [visitLengths, lengths, List.range'_concat, List.foldl_append, ← visitLengths, ih, last, List.foldl_cons,
        List.foldl_nil]
      exact visit_indices shorter windowSize

/-- Settles O28: the loops visit the lengths and indices upwards and keep the last that passes, which is the first that the
model's search meets on its way down (log 18). -/
theorem matchFindEqualsTheLoops : Obligations.MatchFindEqualsTheLoops := by
  intro c win a _
  rw [matchFindLoop_eq, visitLengths_eq, matchFind]

end Sys2Proof.Machine
end

section
/-! Whole commands: two machines with the same inputs go through a command side by side (R193, R194, R228). -/

namespace Sys2Proof.Machine

/-! ### Side by side -/

/-- Two machines in the same place of the same command with nothing left to happen but the engine's own turns. -/
structure SameRun (s t : State) : Prop where
  same : SameCommand s t
  inputs : s.inputs = [] ∧ t.inputs = []
  port : s.port = none ∧ t.port = none

/-- With nothing scheduled, a step is the engine's turn (log 7). -/
theorem step_of_noInputs {s : State} (inputs : s.inputs = []) : step s = engineTurn s := by
  have tick : nextInput s = .tick := by rw [nextInput, inputs]; rfl
  rw [step_tick tick, dropInput_of_empty inputs]

/-- The draw of OUT bytes tells no two machines apart (log 5). -/
theorem newEpoch_sameCommand {s t : State} (h : SameCommand s t) : SameCommand (newEpoch s) (newEpoch t) := { h with }

/-- What the engine does at its turn in one machine it does in the other: both rest, or both take the same step. -/
theorem SameRun.step_next {s t s' : State} (h : SameRun s t) (e : step s = .next s') :
    ∃ t', step t = .next t' ∧ SameRun s' t' := by
  obtain ⟨inputs, inputs'⟩ := h.inputs
  obtain ⟨port, port'⟩ := h.port
  obtain ⟨-, -, fsm⟩ := h.same.status
  rw [step_of_noInputs inputs] at e
  rw [step_of_noInputs inputs']
  by_cases f : s.fsm = .idle
  · rw [engineTurn_idle f] at e
    cases e
    exact ⟨t, engineTurn_idle (fsm ▸ f), h⟩
  · rw [engineTurn_running f port] at e
    obtain ⟨t', e', same⟩ := stepsKeepTheSameCommand _ _ _ (newEpoch_sameCommand h.same) e
    obtain ⟨keptPort, keptInputs⟩ := engineStep_port e
    obtain ⟨keptPort', keptInputs'⟩ := engineStep_port e'
    exact ⟨t', (engineTurn_running (fsm ▸ f) port').trans e', same,
      ⟨keptInputs.trans inputs, keptInputs'.trans inputs'⟩, ⟨keptPort.trans port, keptPort'.trans port'⟩⟩

/-- A run of one machine is matched, step for step, by a run of the other. -/
theorem Steps.sameRun {n : Nat} {s s' : State} (run : Steps n s s') {t : State} (h : SameRun s t) :
    ∃ t', Steps n t t' ∧ SameRun s' t' := by
  induction run generalizing t with
  | refl => exact ⟨t, .refl t, h⟩
  | next first _ ih =>
    obtain ⟨u, first', h'⟩ := h.step_next first
    obtain ⟨t', rest', h''⟩ := ih h'
    exact ⟨t', .next first' rest', h''⟩

/-! ### The CMD write -/

/-- The machine as a command finds it: the CMD write taken off the schedule, the OUT bytes drawn anew (log 5). -/
def cmdTaken (s : State) : State := { s with inputs := [], epoch := s.epoch + 1 }

theorem step_commanded_exec {w : Word} (code : w.toNat % 256 ≠ 0) (s : State) :
    step (commanded w s) = exec (decodeCommand w) (cmdTaken s) :=
  step_host_starts rfl ((startsCommand_writeReg .word 0x00 w).2 ⟨rfl, code⟩)

/-- What a command depends on is no part of the schedule or of the draw of OUT bytes. -/
theorem sameInputs_cmdTaken {w : Word} {s t : State} (h : sameInputs w s t) : sameInputs w (cmdTaken s) (cmdTaken t) :=
  h.imp (And.imp_right fun same => { same with }) (And.imp_right fun same => { same with })

/-- No CMD write places a window-port word (log 9) or takes an entry off the schedule. -/
theorem CommandMove.port_inputs {s t : State} (m : CommandMove s t) : t.port = s.port ∧ t.inputs = s.inputs := by
  cases m <;> exact ⟨rfl, rfl⟩

/-- The CMD write puts two idle machines with the same inputs side by side. -/
theorem commanded_sameRun {s t s' : State} {w : Word} (hs : Inv s) (ht : Inv t) (bs : s.status.busy = false)
    (bt : t.status.busy = false) (code : w.toNat % 256 ≠ 0) (same : sameInputs w s t)
    (e : step (commanded w s) = .next s') : ∃ t', step (commanded w t) = .next t' ∧ SameRun s' t' := by
  rw [step_commanded_exec code] at e ⊢
  obtain ⟨u, t', eu, et, h⟩ := acceptanceForgetsEarlierCommands (cmdTaken s) (cmdTaken t) w (sameInputs_cmdTaken same) bs bt
    (hs.idle_of_not_busy bs) (ht.idle_of_not_busy bt)
  obtain rfl : u = s' := Host.Outcome.next.inj (eu.symm.trans e)
  obtain ⟨port, inputs⟩ := (exec_decodeCommand_cases eu).2.port_inputs
  obtain ⟨port', inputs'⟩ := (exec_decodeCommand_cases et).2.port_inputs
  exact ⟨t', et, h, ⟨inputs, inputs'⟩, ⟨port.trans hs.port, port'.trans ht.port⟩⟩

/-! ### The result -/

/-- Where the command wrote its whole result, machines in the same place show the host the same one, whatever their draws of
the other OUT bytes. -/
theorem SameCommand.result_eq {s t : State} (h : SameCommand s t) (written : ResultWritten s)
    (done : s.status.done = true) : result s = result t := by
  obtain ⟨status, outLen, -⟩ := h.status
  rw [result, result, ← outLen]
  refine List.map_congr_left fun a mem => ?_
  have below := List.mem_range.1 mem
  obtain ⟨b, byte⟩ := Option.isSome_iff_exists.1 (written.done done a below)
  rw [outByteSeen_result done below byte,
    outByteSeen_result (status ▸ done) (outLen ▸ below) ((h.results done a below).symm.trans byte)]

/-- Settles O60: the CMD write puts the two machines in the same place, every step keeps them there, and what is there to see at
the end is the same. -/
theorem commandOutcomeIsAFunctionOfItsInputs : Obligations.CommandOutcomeIsAFunctionOfItsInputs := by
  intro s t s' w n hs ht bs bt same run
  have code : w.toNat % 256 = 1 ∨ w.toNat % 256 = 2 := same.imp And.left And.left
  have written := commanded_resultWritten hs bs code run
  cases run with
  | next first rest =>
    obtain ⟨u, first', h⟩ := commanded_sameRun hs ht bs bt (by omega) same first
    obtain ⟨t', rest', h'⟩ := rest.sameRun h
    obtain ⟨status, outLen, -⟩ := h'.same.status
    exact ⟨t', .next first' rest', status, outLen, h'.same.result_eq written⟩

end Sys2Proof.Machine
end

section
/-! The fields of a descriptor on numbers (30_encoding R74, R75, R192). -/

namespace Sys2Proof

/-- The source index, computed on numbers as R74 computes it on bits. -/
theorem sourceIndex_formula (low high : Byte) :
    (low.setWidth 12 ||| ((high.setWidth 12 <<< 4) &&& 0xF00#12) : BitVec 12).toNat =
      low.toNat ||| ((high.toNat <<< 4) &&& 0xF00) := by
  have fits : high.toNat <<< 4 < 2 ^ 12 := by have := high.isLt; rw [Nat.shiftLeft_eq]; omega
  have high12 : high.toNat < 2 ^ 12 := by have := high.isLt; omega
  have low12 : low.toNat < 2 ^ 12 := by have := low.isLt; omega
  rw [BitVec.toNat_or, BitVec.toNat_and, BitVec.toNat_shiftLeft, BitVec.toNat_setWidth, BitVec.toNat_setWidth,
    Nat.mod_eq_of_lt high12, Nat.mod_eq_of_lt low12, Nat.mod_eq_of_lt fits]
  rfl

/-- A decoded length is one of 3..18 (R192). -/
theorem lengthCode_range (high : Byte) : 3 ≤ (high &&& 0x0F#8).toNat + 3 ∧ (high &&& 0x0F#8).toNat + 3 ≤ 18 := by
  rw [lengthCode_toNat]
  omega

/-- Settles O4: the decoder's fields are the formulas of R74 on numbers, and the encoder's bytes are the quotient and the
remainder that R75 takes. -/
theorem descriptorFieldsOnNumbers : Obligations.DescriptorFieldsOnNumbers := by
  refine ⟨fun low high => ?decoded, fun p len atLeast atMost => ?encoded⟩
  case decoded =>
    obtain ⟨atLeast, atMost⟩ := lengthCode_range high
    exact ⟨_, _, rfl, sourceIndex_formula low high, congrArg (· + 3) (BitVec.toNat_and ..), atLeast, atMost, BitVec.isLt _⟩
  case encoded =>
    refine ⟨_, _, rfl, ?_, ?_⟩
    · rw [toNat_field]
      omega
    · have := p.isLt
      rw [toNat_join, toNat_field, BitVec.toNat_ofNat]
      omega

end Sys2Proof
end

section
/-! The stream tokens and the steps of DECOMPRESS (43_decompress R176 to R190), each on numbers and with what it leaves
unchanged. -/

namespace Sys2Proof.Machine

/-! ### What `Emit` leaves -/

/-- `Emit` writes its byte at OL and leaves the rest of OUT as it reads. -/
theorem emitted_read (b : Byte) (s : State) (a : Nat) :
    memRead none (emitted b s).outBuf a = if a = s.ol then some b else memRead none s.outBuf a :=
  memRead_write none s.outBuf s.ol b a

/-- `Emit` appends its byte at CUR and leaves the rest of the window as it reads. -/
theorem emitted_winByte (b : Byte) (s : State) (i : Nat) :
    winByte (emitted b s) i = if i = s.cur.toNat then b else winByte s i :=
  winByte_append b { outWrite s.ol b s with ol := s.ol + 1 } i

theorem emitted_cur (b : Byte) (s : State) : (emitted b s).cur.toNat = (s.cur.toNat + 1) % 4096 :=
  BitVec.toNat_add s.cur 1#12

/-! ### The tokens -/

/-- REM after a read of `n` bytes, as a number. -/
theorem rem_read {rem : BitVec 16} {n : Nat} (h : n ≤ rem.toNat) : (rem - BitVec.ofNat 16 n).toNat + n = rem.toNat := by
  have := streamEnd_read h 0
  omega

theorem rem_ne_zero {s : State} (h : 1 ≤ s.rem.toNat) : s.rem ≠ 0#16 := fun e => by simp [e] at h

theorem rem_eq_zero {s : State} (h : s.rem.toNat = 0) : s.rem = 0#16 := BitVec.eq_of_toNat_eq h

/-- Settles O12: the header token's checks in the order of R177. -/
theorem headerTokenStartsTheStream : Obligations.HeaderTokenStartsTheStream := by
  intro h s
  have run : exec (.hdr h) s = (takeHeader h s).outcome := rfl
  refine ⟨fun short => ?_, fun inside overrun => ?_, fun fits => ?_⟩
  · rw [run, takeHeader_startRange short]; rfl
  · rw [run, takeHeader_hdrOverrun inside overrun]; rfl
  · rw [run, takeHeader_goes fits]; rfl

/-- Settles O13: a byte is left, so the token does not stop (log 12). -/
theorem controlTokenLoadsFlags : Obligations.ControlTokenLoadsFlags := fun _ _ left =>
  ⟨_, if_neg (rem_ne_zero left), rem_read left, rfl⟩

/-- A literal token that finds OUT full has taken its byte from the stream when it faults (R181, R183, log 13). -/
theorem execLit_full {s : State} (rem : 1 ≤ s.rem.toNat) (full : s.par.outCap ≤ s.ol) (v : Byte) :
    execLit v s = .next (raiseFault .outOverflow { s with rp := s.rp + 1, rem := s.rem - 1#16 }) := by
  rw [execLit, if_neg (rem_ne_zero rem)]
  obtain ⟨-, e⟩ | ⟨room, -⟩ := emit_cases v { s with rp := s.rp + 1, rem := s.rem - 1#16 }
  · rw [e, outcome_ended]
  · exact absurd room (Nat.not_lt.2 full)

/-- Settles O14: the token takes its byte from the stream, and the rest is `Emit`. -/
theorem literalTokenEmitsItsByte : Obligations.LiteralTokenEmitsItsByte := fun v _ left =>
  ⟨fun room => ⟨_, execLit_emits left room v, rem_read left, emitted_read v _, emitted_winByte v _, emitted_cur v _, rfl⟩,
    fun full => execLit_full left full v⟩

/-- Settles O15: the token splits at two bytes left. -/
theorem backrefTokenStartsTheCopy : Obligations.BackrefTokenStartsTheCopy := fun _ _ _ =>
  ⟨fun left => ⟨_, if_neg (Nat.not_lt.2 left), rem_read left, rfl⟩, fun cut => if_pos cut⟩

/-! ### The steps -/

/-- Settles O17: each branch of the two steps is a move of the engine, or the token that stands at RP. -/
theorem streamStepsChooseTheToken : Obligations.StreamStepsChooseTheToken := by
  refine fun s => ⟨fun f r => ?_, fun f r a => ?_, fun f r => ?_, fun f r b => ?_, fun f r b g a => ?_, fun f r b g => ?_,
    fun f r b g a => ?_⟩
  · exact engineStep_of_move (.complete (.inl f) (rem_eq_zero r))
  · exact engineStep_controlToken f (rem_ne_zero r) a
  · exact engineStep_of_move (.complete (.inr f) (rem_eq_zero r))
  · exact engineStep_of_move (.groupEnd f (rem_ne_zero r) b)
  · exact engineStep_literalToken f (rem_ne_zero r) b g a
  · exact engineStep_of_move (.brefCut f (rem_ne_zero r.ge) b.ne g (by omega))
  · exact ⟨_, _, engineStep_backrefToken f r b g a, sourceIndex_toNat _ _, congrArg (· + 3) (lengthCode_toNat _)⟩

/-- The index a copied byte is read at, on numbers (R101, R186). -/
theorem copyByte_eq_winByte (s : State) : copyByte s = winByte s ((s.src.toNat + s.k) % 4096) := by
  rw [copyByte, winGet, Nat.cast_add, winIndex_natAdd]

/-- Settles O18: a copy step is `Emit` of the byte at the source index. -/
theorem copyStepCopiesOneByte : Obligations.CopyStepCopiesOneByte := by
  intro s f
  simp only [← copyByte_eq_winByte]
  refine ⟨fun room => ?_, fun full => engineStep_of_move (.copyFull f full)⟩
  refine ⟨_, engineStep_of_move (.copy f room), emitted_read _ s, emitted_winByte _ s, emitted_cur _ s, ?_⟩
  rw [copied, f]
  rfl

/-- Reading `n` bytes of the stream moves RP on by what REM loses (R184). -/
theorem streamRead_accounted {rem : BitVec 16} {n : Nat} (h : n ≤ rem.toNat) (rp : Nat) :
    rp + n + (rem - BitVec.ofNat 16 n).toNat = rp + rem.toNat ∧ (rem - BitVec.ofNat 16 n).toNat ≤ rem.toNat :=
  ⟨streamEnd_read h rp, Nat.le_of_add_right_le (rem_read h).le⟩

/-- Settles O19: of the moves from DECOMPRESS to DECOMPRESS, the tokens read one or two bytes of the stream and the others
none. -/
theorem consumptionIsAccounted : Obligations.ConsumptionIsAccounted := by
  intro s t before after e
  cases engineStep_cases e with
  | ctrl _ r => exact streamRead_accounted (rem_pos r) s.rp
  | lit _ r => exact streamRead_accounted (rem_pos r) s.rp
  | bref _ _ _ _ c => exact streamRead_accounted c s.rp
  | groupEnd | copy => exact ⟨rfl, Nat.le_refl _⟩
  | rest f => exact absurd f (running_of_decompressing before)
  | complete | litFull | brefCut | copyFull => exact absurd rfl (running_of_decompressing after)
  | inputEnd f | decide f => exact absurd (.inl f) (not_compressing_of_decompressing before)
  | flush f | flushFull f => exact absurd (.inr (.inl f)) (not_compressing_of_decompressing before)
  | patch f => exact absurd (.inr (.inr f)) (not_compressing_of_decompressing before)

end Sys2Proof.Machine
end

section
/-! The steps of COMPRESS (44_compress R214 to R223), each on numbers and with what it leaves unchanged. -/

namespace Sys2Proof.Machine

/-! ### C_MATCH -/

/-- Settles O30: both branches are the one move of C_MATCH at the end of the input. -/
theorem endOfInputFlushesOrPatches : Obligations.EndOfInputFlushesOrPatches := by
  intro s f inCap p
  have move := engineStep_of_move (.inputEnd f inCap p)
  exact ⟨fun pending => by rw [move, if_pos pending], fun empty => by rw [move, if_neg (by omega)]⟩

/-- Where the finder reports no match the decision is a literal of the byte at POS (R215). -/
theorem decision_of_noMatch {s : State} (noMatch : matchQuery s = none) :
    decision s = decisionTaken true [inByte s s.pos] [inByte s s.pos] s := by
  rw [decision, noMatch]
  exact litDecision_eq s

/-- A match makes a back-reference of the bytes it matched (R216). -/
theorem decision_of_match {s : State} {m : Match} (found : matchQuery s = some m) :
    decision s =
      decisionTaken false (descriptor (BitVec.ofNat 12 m.index) m.length) (inBytes s s.pos m.length) s := by
  rw [decision, found]
  exact refDecision_eq m s

/-- The step of a decision at C_MATCH: the group is flushed once it is full (R214). -/
theorem decided_eq {s : State} (f : s.fsm = .cMatch) {g : Bool} {xs bs : List Byte}
    (e : decision s = decisionTaken g xs bs s) :
    decided s = { decisionTaken g xs bs s with fsm := if s.nf + 1 = 8 then .cFlush else .cMatch } := by
  rw [decided, e, ← f]
  rfl

theorem winByte_decided {s : State} {g : Bool} {xs bs : List Byte} (e : decision s = decisionTaken g xs bs s) :
    winByte (decided s) = winByte (winAppendAll bs s) := by
  obtain ⟨win, -, seeded⟩ := decided_sameWindow e
  refine winByte_congr win seeded ?_ ?_
  · rw [decided, e, winAppendAll_frame]
    rfl
  · rw [decided, e, winAppendAll_frame]
    rfl

theorem decided_cur {s : State} {g : Bool} {xs bs : List Byte} (e : decision s = decisionTaken g xs bs s) :
    (decided s).cur.toNat = (s.cur.toNat + bs.length) % 4096 := by
  obtain ⟨-, cur, -⟩ := decided_sameWindow e
  rw [cur, winAppendAll_cur, BitVec.toNat_add, BitVec.toNat_ofNat, Nat.add_mod_mod]

theorem inBytes_length (s : State) (a n : Nat) : (inBytes s a n).length = n := by
  simp [inBytes]

theorem getElem?_inBytes (s : State) {a n j : Nat} (h : j < n) : (inBytes s a n)[j]? = some (inByte s (a + j)) := by
  simp [inBytes, h]

/-- Settles O31: the decision step with a flag of 1 and the byte at POS as its payload. -/
theorem noMatchMakesALiteral : Obligations.NoMatchMakesALiteral := by
  intro s f inCap p nf pl noMatch
  have taken := decision_of_noMatch noMatch
  have step := decided_eq f taken
  refine ⟨decided s, engineStep_of_move (.decide f inCap p), fun j => ?flag, ?payload, fun i => ?window, decided_cur taken,
    ?frame⟩
  case flag =>
    have bit := addFlag_bit s.fl true s.nf j
    have last : (decide (j < 8) && decide (j = s.nf)) = decide (j = s.nf) := by simp; omega
    rw [last, Bool.and_true] at bit
    rw [step]
    exact bit
  case payload =>
    rw [step]
    exact addPayload_bytes [inByte s s.pos] s (by simp; omega)
  case window => exact (congrFun (winByte_decided taken) i).trans (winByte_append _ s i)
  case frame =>
    rw [step]
    rfl

/-- A flag of 0 changes no flag of the group. -/
theorem addFlag_false (fl : Byte) (nf : Nat) : fl ||| ((BitVec.ofBool false).setWidth 8 <<< nf) = fl := by
  simp

/-- Settles O32: the decision step with a flag of 0 and the match's descriptor as its payload. -/
theorem matchMakesABackref : Obligations.MatchMakesABackref := by
  intro s m f inCap p nf pl lookahead found
  obtain ⟨-, short, -, -⟩ := matchFind_range found
  rw [inBytes_length] at short
  have taken := decision_of_match found
  have step := decided_eq f taken
  refine ⟨decided s, engineStep_of_move (.decide f inCap p), ?payload, fun i hi => ?window, ?cursor, ?frame⟩
  case payload =>
    rw [step]
    exact addPayload_bytes (descriptor _ m.length) s (by simp [descriptor]; omega)
  case window =>
    rw [winByte_decided taken, winByte_appendAll _ s i (by rw [inBytes_length]; omega) hi]
    split
    case isTrue appended => rw [getElem?_inBytes s appended, Option.getD_some]
    case isFalse beyond => rw [List.getElem?_eq_none (by rw [inBytes_length]; omega), Option.getD_none]
  case cursor => rw [decided_cur taken, inBytes_length]
  case frame =>
    rw [step]
    simp only [decisionTaken, addFlag_false, inBytes_length]
    rfl

/-! ### C_FLUSH -/

theorem groupBytes_length {s : State} (pl : s.pl ≤ 16) : (groupBytes s).length = 1 + s.pl := by
  simp [groupBytes]
  omega

/-- Settles O33: the row of the group's bytes fits, or its first byte that does not is the one at the lower of the two
limits. -/
theorem flushWritesTheGroup : Obligations.FlushWritesTheGroup := by
  intro s f header payload room pl
  have size := groupBytes_length pl
  refine ⟨fun sizeFits roomFits => ?fits, fun full => ?faults⟩
  case fits =>
    refine ⟨_, engineStep_of_move (.flush f fun j hj => by omega), fun x => ?_, ?_⟩
    · refine (bytesWritten_lookup (groupBytes s) s x).trans ?_
      rw [size, ← Nat.add_assoc]
      split
      case isTrue written =>
        rw [groupBytes, ← List.take_succ_cons, List.getElem?_take_of_lt (by omega)]
      case isFalse => rfl
    · rw [flushed, bytesWritten_frame, size, ← Nat.add_assoc]
      rfl
  case faults =>
    let n := min 65537 s.par.outCap - s.ol
    let code : FaultCode := if 65537 ≤ s.par.outCap then .sizeOverflow else .outOverflow
    have stops : StopsAt s n code := by
      by_cases larger : 65537 ≤ s.par.outCap
      · exact .inl ⟨by omega, if_pos larger⟩
      · exact .inr ⟨by omega, by omega, if_neg larger⟩
    have written : s.ol + ((groupBytes s).take n).length = min 65537 s.par.outCap := by
      rw [List.length_take, size]
      omega
    refine ⟨_, engineStep_of_move (.flushFull f n (by omega) code stops fun j hj => by omega), ?_, fun x outside => ?_, ?_⟩
    · have number : code.number = if 65537 ≤ s.par.outCap then 0x07#8 else 0x06#8 := apply_ite FaultCode.number _ _ _
      rw [← number, bytesWritten_frame]
      rfl
    · exact bytesWritten_lookup_outside _ outside
    · exact (bytesWritten_ol _ s).trans written

/-! ### C_PATCH -/

theorem patched_lookup (s : State) (x : Nat) :
    memLookup (patched s).outBuf x =
      if x = 0 then some (headerBytes s.hdrBe (BitVec.ofNat 16 (s.ol - 2))).1
      else if x = 1 then some (headerBytes s.hdrBe (BitVec.ofNat 16 (s.ol - 2))).2
      else memLookup s.outBuf x := by
  by_cases zero : x = 0
  · simp [patched, zero]
  · simp [patched, zero]

theorem patched_outLen {s : State} (size : s.ol ≤ 65537) : (patched s).outLen.toNat = s.ol := by
  show (BitVec.ofNat 32 s.ol).toNat = s.ol
  rw [BitVec.toNat_ofNat]
  omega

/-- Settles O34: the two bytes are the halves of a count below 2 ^ 16. -/
theorem patchWritesTheHeader : Obligations.PatchWritesTheHeader := by
  intro s f header size room
  have low : ((BitVec.ofNat 16 (s.ol - 2)).extractLsb' 0 8).toNat = (s.ol - 2) % 256 := by
    rw [toNat_field, BitVec.toNat_ofNat]
    omega
  have high : ((BitVec.ofNat 16 (s.ol - 2)).extractLsb' 8 8).toNat = (s.ol - 2) / 256 := by
    rw [toNat_field, BitVec.toNat_ofNat]
    omega
  refine ⟨_, _, _, engineStep_of_move (.patch f room), fun little => ?_, fun big => ?_, patched_lookup s,
    patched_outLen size, rfl⟩
  · rw [little]
    exact ⟨low, high⟩
  · rw [big]
    exact ⟨high, low⟩

end Sys2Proof.Machine
end

section
/-! The round trip (44_compress R218, R225, R226). The rest of a COMPRESS that completes is read twice: backwards, for what its
result must hold of the group that is pending, and forwards, side by side with a DECOMPRESS of that result, which is kept in
step with it from decision to decision. -/

namespace Sys2Proof.Machine

/-! ### Runs -/

/-- A run of some number of steps. -/
def Reaches (s t : State) : Prop := ∃ n, Steps n s t

theorem Reaches.refl (s : State) : Reaches s s := ⟨0, .refl s⟩

theorem Reaches.of_step {s t : State} (e : step s = .next t) : Reaches s t := ⟨1, .next e (.refl t)⟩

theorem Reaches.trans {s t u : State} (first : Reaches s t) (rest : Reaches t u) : Reaches s u := by
  obtain ⟨n, run⟩ := first
  induction run with
  | refl => exact rest
  | next e _ ih =>
    obtain ⟨m, run'⟩ := ih rest
    exact ⟨m + 1, .next e run'⟩

/-- With nothing scheduled, a running engine makes the move that its conditions allow. -/
theorem reaches_of_move {s t : State} (inputs : s.inputs = []) (port : s.port = none) (running : s.fsm ≠ .idle)
    (m : EngineMove (newEpoch s) t) : Reaches s t :=
  .of_step (by rw [step_of_noInputs inputs, engineTurn_running running port, engineStep_of_move m])

/-- With nothing scheduled, an idle engine stays as it is (log 7). -/
theorem steps_idle {n : Nat} {s t : State} (run : Steps n s t) (inputs : s.inputs = []) (idle : s.fsm = .idle) : t = s := by
  induction run with
  | refl => rfl
  | next first _ ih =>
    rw [step_of_noInputs inputs, engineTurn_idle idle] at first
    cases first
    exact ih inputs idle

/-! ### The rest of a COMPRESS -/

/-- The rest of a COMPRESS that completes in `t`, from its state `c` at the engine's turn on, step by step. -/
inductive Compresses (t : State) : State → Prop where
  | inputEnd {c : State} (h : Inv c) (f : c.fsm = .cMatch) (p : c.pos = c.inLen.toNat)
      (rest : Compresses t (newEpoch { c with fsm := if 0 < c.nf then .cFlush else .cPatch })) : Compresses t c
  | decide {c : State} (h : Inv c) (f : c.fsm = .cMatch) (p : c.pos < c.inLen.toNat)
      (rest : Compresses t (newEpoch (decided c))) : Compresses t c
  | flush {c : State} (h : Inv c) (f : c.fsm = .cFlush) (rest : Compresses t (newEpoch (flushed c))) : Compresses t c
  | patch {c : State} (h : Inv c) (f : c.fsm = .cPatch) (e : t = patched c) : Compresses t c

/-- A run from a state of COMPRESS to DONE = 1 takes the steps of a COMPRESS that completes. -/
theorem compresses_of_steps {n : Nat} {c t : State} (run : Steps n c t) (h : Inv c) (inputs : c.inputs = [])
    (f : compressing c) (idle : t.fsm = .idle) (done : t.status.done = true) : Compresses t (newEpoch c) := by
  induction run with
  | refl => exact absurd idle (running_of_compressing f)
  | next first rest ih =>
    rw [step_of_noInputs inputs, engineTurn_running (running_of_compressing f) h.port] at first
    have h := newEpoch_inv h
    have m := engineStep_cases first
    have next := m.inv h
    have empty := (engineStep_port first).2.trans inputs
    cases m with
    | inputEnd f a p => exact .inputEnd h f p (ih next empty (inputEnd_compressing _) idle done)
    | decide f a p => exact .decide h f p (ih next empty (decided_compressing f p) idle done)
    | flush f => exact .flush h f (ih next empty (.inl rfl) idle done)
    | flushFull =>
      rw [steps_idle rest empty rfl] at done
      cases done
    | patch f => exact .patch h f (steps_idle rest empty rfl)
    | rest g => exact absurd g (running_of_compressing f)
    | complete g => exact absurd f (not_compressing_of_decompressing (g.imp_right .inl))
    | ctrl g => exact absurd f (not_compressing_of_decompressing (.inl g))
    | groupEnd g | lit g | litFull g | brefCut g | bref g =>
      exact absurd f (not_compressing_of_decompressing (.inr (.inl g)))
    | copy g | copyFull g => exact absurd f (not_compressing_of_decompressing (.inr (.inr g)))

/-! ### What the result holds -/

/-- The bytes `xs` stand in `out` from offset `a` on. -/
def StandsAt (out : Nat → Byte) (a : Nat) (xs : List Byte) : Prop := ∀ j (h : j < xs.length), out (a + j) = xs[j]

theorem standsAt_nil (out : Nat → Byte) (a : Nat) : StandsAt out a [] := nofun

theorem standsAt_cons {out : Nat → Byte} {a : Nat} {x : Byte} {xs : List Byte} :
    StandsAt out a (x :: xs) ↔ out a = x ∧ StandsAt out (a + 1) xs := by
  constructor
  · refine fun h => ⟨h 0 (Nat.zero_lt_succ _), fun j hj => ?_⟩
    rw [Nat.add_assoc, Nat.add_comm 1]
    exact h (j + 1) (Nat.succ_lt_succ hj)
  · rintro ⟨head, tail⟩ (_ | j) hj
    · exact head
    · have := tail j (Nat.lt_of_succ_lt_succ hj)
      rwa [Nat.add_assoc, Nat.add_comm 1] at this

theorem standsAt_append {out : Nat → Byte} {a : Nat} {xs ys : List Byte} :
    StandsAt out a (xs ++ ys) ↔ StandsAt out a xs ∧ StandsAt out (a + xs.length) ys := by
  induction xs generalizing a with
  | nil => simp [standsAt_nil]
  | cons x xs ih =>
    rw [List.cons_append, standsAt_cons, ih, standsAt_cons, and_assoc, List.length_cons, Nat.add_assoc, Nat.add_comm 1]

/-- The result that the host finds in `t` holds the payload `c` has written and, from OL of `c` on, the flags and the payload of
the group that is pending in `c`; its header counts the bytes after it (R219, R222, R225). -/
structure ResultHolds (t c : State) : Prop where
  size : c.ol ≤ t.outLen.toNat
  written : ∀ x b, 2 ≤ x → x < c.ol → memLookup c.outBuf x = some b → outByteSeen t x = b
  flags : ∀ j < c.nf, (outByteSeen t c.ol).getLsbD j = c.fl.getLsbD j
  payload : StandsAt (outByteSeen t) (c.ol + 1) (c.pb.toList.take c.pl)
  group : 0 < c.nf → c.ol + 1 + c.pl ≤ t.outLen.toNat
  header : c.hdrBe = false → (headerValue (outByteSeen t 0) (outByteSeen t 1)).toNat + 2 = t.outLen.toNat

/-- The decision with flag `g` and payload `xs` is the next that the result holds after the group pending in `c`. -/
structure NextUnit (t c : State) (g : Bool) (xs : List Byte) : Prop where
  flag : (outByteSeen t c.ol).getLsbD c.nf = g
  payload : StandsAt (outByteSeen t) (c.ol + 1 + c.pl) xs
  size : c.ol + 1 + c.pl + xs.length ≤ t.outLen.toNat

/-- A decision leaves the flags before its own. -/
theorem addFlag_below {fl : Byte} {nf j : Nat} (h : j < nf) (g : Bool) :
    (fl ||| ((BitVec.ofBool g).setWidth 8 <<< nf)).getLsbD j = fl.getLsbD j := by
  rw [addFlag_bit, decide_eq_false h.ne, Bool.and_false, Bool.false_and, Bool.or_false]

/-- A decision's flag is the bit at NF, which was padding before (R123). -/
theorem addFlag_own {fl : Byte} {nf : Nat} (h : nf < 8) (padding : fl.toNat < 2 ^ nf) (g : Bool) :
    (fl ||| ((BitVec.ofBool g).setWidth 8 <<< nf)).getLsbD nf = g := by
  have clear : fl.getLsbD nf = false := Nat.testBit_lt_two_pow padding
  rw [addFlag_bit, clear, decide_eq_true h, decide_eq_true rfl, Bool.false_or, Bool.true_and, Bool.true_and]

section
variable {t c : State} {g : Bool} {xs bs : List Byte} (h : Inv c) (f : c.fsm = .cMatch)
  (e : decision c = decisionTaken g xs bs c) (short : xs.length ≤ 2) (next : ResultHolds t (decided c))
include h f e short next

/-- What stands in the result after a decision is the pending payload, and then that of the decision. -/
theorem standsAt_of_decided :
    StandsAt (outByteSeen t) (c.ol + 1) (c.pb.toList.take c.pl) ∧ StandsAt (outByteSeen t) (c.ol + 1 + c.pl) xs := by
  have ok := h.compress (.inl f)
  have nf := ok.cMatch f
  have pl := ok.group.2
  have stands : StandsAt (outByteSeen t) (c.ol + 1) (c.pb.toList.take c.pl ++ xs) := by
    rw [← addPayload_bytes xs c (by omega)]
    rw [decided_eq f e] at next
    exact next.payload
  rwa [standsAt_append, List.length_take_of_le (by simp; omega)] at stands

theorem resultHolds_of_decided : ResultHolds t c := by
  have payload := (standsAt_of_decided h f e short next).1
  rw [decided_eq f e] at next
  obtain ⟨size, written, flags, -, group, header⟩ := next
  have room : c.ol + 1 + (c.pl + xs.length) ≤ t.outLen.toNat := group (Nat.succ_pos _)
  refine ⟨size, written, fun j hj => ?_, payload, fun _ => by omega, header⟩
  exact (flags j (Nat.lt_succ_of_lt hj)).trans (addFlag_below hj g)

theorem nextUnit_of_decided : NextUnit t c g xs := by
  have payload := (standsAt_of_decided h f e short next).2
  have ok := h.compress (.inl f)
  rw [decided_eq f e] at next
  have room : c.ol + 1 + (c.pl + xs.length) ≤ t.outLen.toNat := next.group (Nat.succ_pos _)
  refine ⟨?_, payload, by omega⟩
  exact (next.flags c.nf (Nat.lt_succ_self _)).trans (addFlag_own (ok.cMatch f) ok.padding g)

end

/-- What a flush writes is what was pending (R219). -/
theorem resultHolds_of_flushed {t c : State} (h : Inv c) (f : c.fsm = .cFlush) (next : ResultHolds t (flushed c)) :
    ResultHolds t c := by
  have reserved := (h.compress (.inr (.inl f))).payload.1
  have size := groupBytes_length h.ranges.pl
  rw [flushed, bytesWritten_frame] at next
  have total : c.ol + (groupBytes c).length ≤ t.outLen.toNat := next.size
  have read {x : Nat} {b : Byte} (from2 : 2 ≤ x) (below : x < c.ol + (groupBytes c).length)
      (byte : memLookup (bytesWritten (groupBytes c) c).outBuf x = some b) : outByteSeen t x = b :=
    next.written x b from2 below byte
  have stands : StandsAt (outByteSeen t) c.ol (groupBytes c) := fun j hj => by
    refine read (by omega) (by omega) ?_
    rw [bytesWritten_lookup, if_pos (by omega), Nat.add_sub_cancel_left, List.getElem?_eq_getElem hj]
  obtain ⟨flags, payload⟩ := standsAt_cons.1 stands
  refine ⟨by omega, fun x b from2 below byte => read from2 (by omega) ?_, fun j _ => by rw [flags], payload,
    fun _ => by omega, next.header⟩
  rw [bytesWritten_lookup, if_neg (by omega), byte]

/-- The header that C_PATCH writes counts the bytes after it (R222, R225), and no group is pending any more. -/
theorem resultHolds_patched {c : State} (h : Inv c) (f : c.fsm = .cPatch) : ResultHolds (patched c) c := by
  have ok := h.compress (.inr (.inr f))
  obtain ⟨reserved, size⟩ := ok.payload
  obtain ⟨nf, -⟩ := ok.cPatch f
  have pl : c.pl = 0 := by have := ok.group.2; omega
  have total := patched_outLen size
  have read {x : Nat} {b : Byte} (below : x < c.ol) (byte : memLookup (patched c).outBuf x = some b) :
      outByteSeen (patched c) x = b := outByteSeen_result rfl (by rwa [total]) byte
  refine ⟨total.ge, fun x b from2 below byte => read below ?_, by simp [nf], by simp [pl, standsAt_nil], by simp [nf],
    fun little => ?_⟩
  · rwa [patched_lookup, if_neg (by omega), if_neg (by omega)]
  · have low := read (by omega) ((patched_lookup c 0).trans (if_pos rfl))
    have high := read (by omega) ((patched_lookup c 1).trans ((if_neg Nat.one_ne_zero).trans (if_pos rfl)))
    rw [low, high, little, total]
    show (headerValue (BitVec.extractLsb' 0 8 _) (BitVec.extractLsb' 8 8 _)).toNat + 2 = c.ol
    rw [header_join, BitVec.toNat_ofNat]
    omega

/-- Every decision is one of the two kinds (R214). -/
theorem decision_cases {c : State} (p : c.pos < c.inLen.toNat) :
    decision c = decisionTaken true [inByte c c.pos] [inByte c c.pos] c ∨
      ∃ m, matchQuery c = some m ∧ c.pos + m.length ≤ c.inLen.toNat ∧
        decision c =
          decisionTaken false (descriptor (BitVec.ofNat 12 m.index) m.length) (inBytes c c.pos m.length) c := by
  cases query : matchQuery c with
  | none => exact .inl (decision_of_noMatch query)
  | some m =>
    obtain ⟨-, short, -, -⟩ := matchFind_range query
    rw [lookaheadBytes_length] at short
    exact .inr ⟨m, rfl, by omega, decision_of_match query⟩

/-- The result of a COMPRESS holds what any of its states has written and what is pending there. -/
theorem Compresses.resultHolds {t c : State} (run : Compresses t c) : ResultHolds t c := by
  induction run with
  | inputEnd h f p rest ih => exact { ih with }
  | decide h f p rest ih =>
    have next : ResultHolds t (decided _) := { ih with }
    obtain e | ⟨m, -, -, e⟩ := decision_cases p
    · exact resultHolds_of_decided h f e (by simp) next
    · exact resultHolds_of_decided h f e (by simp [descriptor]) next
  | flush h f rest ih => exact resultHolds_of_flushed h f { ih with }
  | patch h f e => exact e ▸ resultHolds_patched h f

end Sys2Proof.Machine
end

section
/-! The round trip, the decoder's side (44_compress R218, R226): a DECOMPRESS of the result is kept in step with the rest of the
COMPRESS, from decision to decision. -/

namespace Sys2Proof.Machine

/-! ### Two machines in step -/

/-- The DECOMPRESS `d` of the result of `t` has put out what the COMPRESS `c` has taken in, with the same window. -/
structure Agrees (t c d : State) : Prop where
  alone : d.inputs = [] ∧ d.port = none
  seeded : c.seeded = true ∧ d.seeded = true
  seedByte : c.par.seedByte = d.par.seedByte
  window : c.win = d.win ∧ c.cur = d.cur
  ol : d.ol = c.pos
  output : ∀ x < d.ol, memLookup d.outBuf x = some (inByte c x)
  room : c.inLen.toNat ≤ d.par.outCap
  stream : ∀ a < t.outLen.toNat, inByte d a = outByteSeen t a
  count : d.rp + d.rem.toNat = t.outLen.toNat
  inside : t.outLen.toNat ≤ d.par.inCap

/-- The decoder has taken the units of the group that is pending in `c`, and no more. -/
structure InGroup (t c d : State) : Prop where
  fsm : d.fsm = .dUnit
  ctrl : d.ctrl = outByteSeen t c.ol
  bit : d.bit = c.nf
  rp : d.rp = c.ol + 1 + c.pl

/-- No group is pending in `c`, and the decoder has taken all before. Only the last group may have fewer than 8 units. -/
structure BetweenGroups (c d : State) : Prop where
  fsm : d.fsm = .dCtrl ∨ (d.fsm = .dUnit ∧ (d.bit = 8 ∨ c.pos = c.inLen.toNat))
  rp : d.rp = c.ol

/-- The DECOMPRESS `d` of the result of `t` is where the COMPRESS `c` is. -/
structure InStep (t c d : State) : Prop where
  agrees : Agrees t c d
  place : (c.nf = 0 ∧ BetweenGroups c d) ∨ (0 < c.nf ∧ InGroup t c d)
  last : c.fsm = .cFlush → c.nf = 8 ∨ c.pos = c.inLen.toNat

/-- The decoder has as many bytes left as the result has from RP on. -/
theorem Agrees.le_rem {t c d : State} (h : Agrees t c d) {n : Nat} (size : d.rp + n ≤ t.outLen.toNat) :
    n ≤ d.rem.toNat := by
  have := h.count
  omega

theorem Agrees.le_inCap {t c d : State} (h : Agrees t c d) {n : Nat} (size : d.rp + n ≤ t.outLen.toNat) :
    d.rp + n ≤ d.par.inCap := size.trans h.inside

/-! ### A new group -/

/-- In D_CTRL the decoder takes the control byte of the group that comes. -/
theorem Agrees.reaches_ctrlTaken {t c d : State} (h : Agrees t c d) (f : d.fsm = .dCtrl) (rp : d.rp = c.ol)
    (empty : c.nf = 0 ∧ c.pl = 0) (size : c.ol + 1 ≤ t.outLen.toNat) :
    ∃ d', Reaches d d' ∧ Agrees t c d' ∧ InGroup t c d' := by
  have size : d.rp + 1 ≤ t.outLen.toNat := rp ▸ size
  have left := h.le_rem size
  refine ⟨_, reaches_of_move h.alone.1 h.alone.2 (by simp [f]) (.ctrl f (rem_ne_zero left) (h.le_inCap size)), ?_, ?_⟩
  · exact { h with count := (streamEnd_read left d.rp).trans h.count }
  · exact
      { fsm := rfl
        ctrl := (h.stream d.rp size).trans (congrArg _ rp)
        bit := empty.1.symm
        rp := by rw [empty.2, ← rp]; rfl }

/-- The group of a decision has its control byte in the result. -/
theorem control_size {t c : State} (p : c.pos < c.inLen.toNat) (next : ResultHolds t (decided c)) :
    c.ol + 1 ≤ t.outLen.toNat := by
  obtain ⟨_, _, _, _, _, _, _, e⟩ := decision_frame p
  rw [decided, e] at next
  exact (Nat.le_add_right _ _).trans (next.group (Nat.succ_pos _))

/-- Before a decision that starts a group the decoder takes the control byte; before any other it is ready. -/
theorem InStep.reaches_inGroup {t c d : State} (h : InStep t c d) (ok : CompressOk c) (p : c.pos < c.inLen.toNat)
    (next : ResultHolds t (decided c)) : ∃ d', Reaches d d' ∧ Agrees t c d' ∧ InGroup t c d' := by
  have a := h.agrees
  have size := control_size p next
  obtain ⟨nf, fsm, rp⟩ | ⟨-, g⟩ := h.place
  · have empty : c.nf = 0 ∧ c.pl = 0 := ⟨nf, by have := ok.group.2; omega⟩
    obtain f | ⟨f, full⟩ := fsm
    · exact a.reaches_ctrlTaken f rp empty size
    · have full : d.bit = 8 := full.resolve_right p.ne
      have left := a.le_rem (n := 1) (rp ▸ size)
      have groupEnd := reaches_of_move a.alone.1 a.alone.2 (by simp [f]) (.groupEnd f (rem_ne_zero left) full)
      have between : Agrees t c { newEpoch d with fsm := .dCtrl } := { a with }
      obtain ⟨d', ctrl, done⟩ := between.reaches_ctrlTaken rfl rp empty size
      exact ⟨d', groupEnd.trans ctrl, done⟩
  · exact ⟨d, .refl d, a, g⟩

/-! ### A unit -/

/-- What the decoder has done to `d` once it has decoded a unit of `n` stream bytes into the bytes `bs`. -/
structure UnitDecoded (n : Nat) (bs : List Byte) (d d' : State) : Prop where
  frame : d'.inputs = d.inputs ∧ d'.port = d.port ∧ d'.seeded = d.seeded ∧ d'.par = d.par
  input : inByte d' = inByte d
  window : d'.win = (winAppendAll bs d).win ∧ d'.cur = d.cur + BitVec.ofNat 12 bs.length
  ol : d'.ol = d.ol + bs.length
  output : ∀ x, memLookup d'.outBuf x = memLookup (bytesWritten bs d).outBuf x
  fsm : d'.fsm = .dUnit
  flags : d'.ctrl = d.ctrl ∧ d'.bit = d.bit + 1
  stream : d'.rp = d.rp + n ∧ d'.rem = d.rem - BitVec.ofNat 16 n

/-- The literal unit (R183). -/
theorem reaches_literal {d : State} (alone : d.inputs = [] ∧ d.port = none) (f : d.fsm = .dUnit) (bit : d.bit ≠ 8)
    (flag : nextFlag d = true) (left : 1 ≤ d.rem.toNat) (inside : d.rp + 1 ≤ d.par.inCap) (room : d.ol < d.par.outCap) :
    ∃ d', Reaches d d' ∧ UnitDecoded 1 [inByte d d.rp] d d' :=
  ⟨_, reaches_of_move alone.1 alone.2 (by simp [f]) (.lit f (rem_ne_zero left) bit flag inside room),
    ⟨rfl, rfl, rfl, rfl⟩, rfl, ⟨rfl, rfl⟩, rfl, fun _ => rfl, f, ⟨rfl, rfl⟩, rfl, rfl⟩

/-- As many D_COPY steps as a match is long copy the bytes it matched (R150). -/
theorem steps_matchCopy {s : State} {a : List Byte} {m : Match} (alone : s.inputs = [] ∧ s.port = none) (f : s.fsm = .dCopy)
    (k : s.k = 0) (short : a.length ≤ 4096) (found : matchFind s.cur.toNat (winByte s) a = some m)
    (src : s.src.toNat = m.index) (len : s.len = m.length) (room : s.ol + m.length ≤ s.par.outCap) :
    Steps m.length s (copiedRow (a.take m.length) s) := by
  obtain ⟨atLeast, inside, -, -⟩ := matchFind_range found
  have size : (a.take m.length).length = m.length := List.length_take_of_le inside
  have run : Steps (a.take m.length).length s (copiedRow (a.take m.length) s) := by
    refine steps_copiedRow alone.1 alone.2 f (by omega) (by omega) (by omega) fun j hj => ?_
    rw [List.take_take, Nat.min_eq_left (by omega), src, k, Nat.zero_add,
      winByte_appendAll_of_matchFind short found (by omega), List.getElem_take, List.getD_eq_getElem]
  rwa [size] at run

/-- A row of bytes leaves in OUT what depends on OUT and OL alone. -/
theorem bytesWritten_lookup_congr (xs : List Byte) {s t : State} (ol : s.ol = t.ol) (out : s.outBuf = t.outBuf) (x : Nat) :
    memLookup (bytesWritten xs s).outBuf x = memLookup (bytesWritten xs t).outBuf x := by
  rw [bytesWritten_lookup, bytesWritten_lookup, ol, out]

/-- The descriptor unit of a match, with its copy (R150, R185, R186). -/
theorem reaches_match {d : State} {a : List Byte} {m : Match} (alone : d.inputs = [] ∧ d.port = none) (f : d.fsm = .dUnit)
    (bit : d.bit ≠ 8) (flag : nextFlag d = false) (left : 2 ≤ d.rem.toNat) (inside : d.rp + 2 ≤ d.par.inCap)
    (short : a.length ≤ 18) (found : matchFind d.cur.toNat (winByte d) a = some m)
    (bytes : [inByte d d.rp, inByte d (d.rp + 1)] = descriptor (BitVec.ofNat 12 m.index) m.length)
    (room : d.ol + m.length ≤ d.par.outCap) :
    ∃ d', Reaches d d' ∧ UnitDecoded 2 (a.take m.length) d d' := by
  obtain ⟨atLeast, atMost, below, -⟩ := matchFind_range found
  have taken := reaches_of_move alone.1 alone.2 (by simp [f])
    (.bref f (rem_ne_zero (Nat.le_of_succ_le left)) bit flag left inside)
  have fields := decodeBackref_descriptor (BitVec.ofNat 12 m.index) (len := m.length) ⟨atLeast, by omega⟩
  simp only [descriptor, List.cons.injEq, and_true] at bytes
  rw [← bytes.1, ← bytes.2] at fields
  obtain ⟨index, length⟩ := Instr.bref.inj fields
  have src : (brefTaken (newEpoch d)).src.toNat = m.index :=
    (congrArg BitVec.toNat index).trans (Nat.mod_eq_of_lt below)
  have copy := steps_matchCopy (s := brefTaken (newEpoch d)) alone rfl rfl (by omega) found src length room
  have size : (a.take m.length).length = m.length := List.length_take_of_le atMost
  refine ⟨_, taken.trans ⟨_, copy⟩, ⟨rfl, rfl, rfl, rfl⟩, rfl, ⟨winAppendAll_win_eq _ rfl rfl rfl, rfl⟩, rfl,
    bytesWritten_lookup_congr _ rfl rfl, if_pos ?_, ⟨rfl, rfl⟩, rfl, rfl⟩
  rw [size]
  exact (Nat.zero_add _).trans length.symm

/-- A decision and the unit that it wrote keep the two machines in step (R218). -/
theorem Agrees.after_decision {t c d d' : State} (h : Agrees t c d) (place : InGroup t c d) (f : c.fsm = .cMatch) {g : Bool}
    {xs : List Byte} {n : Nat} (e : decision c = decisionTaken g xs (inBytes c c.pos n) c)
    (size : c.ol + 1 + c.pl + xs.length ≤ t.outLen.toNat) (u : UnitDecoded xs.length (inBytes c c.pos n) d d') :
    InStep t (decided c) d' := by
  obtain ⟨inputs, port, seeded, par⟩ := u.frame
  obtain ⟨win, cur⟩ := u.window
  obtain ⟨rp, rem⟩ := u.stream
  have ol := h.ol
  rw [decided_eq f e]
  refine ⟨?agrees, .inr ⟨Nat.succ_pos _, ?group⟩, fun full => .inl ?last⟩
  case agrees =>
    exact
      { alone := ⟨inputs ▸ h.alone.1, port ▸ h.alone.2⟩
        seeded := ⟨h.seeded.1, seeded ▸ h.seeded.2⟩
        seedByte := par ▸ h.seedByte
        window :=
          ⟨(winAppendAll_win_eq _ (winDefault_congr h.seeded.1 h.seeded.2 h.seedByte) h.window.1 h.window.2).trans win.symm,
            (congrArg (· + _) h.window.2).trans cur.symm⟩
        ol := u.ol.trans (congrArg (· + _) ol)
        output := fun x hx => by
          rw [u.ol, inBytes_length] at hx
          rw [u.output, bytesWritten_lookup, inBytes_length]
          split
          case isTrue new =>
            rw [getElem?_inBytes c (by omega), ← ol, Nat.add_sub_cancel' new.1]
            rfl
          case isFalse old => exact h.output x (by omega)
        room := par ▸ h.room
        stream := u.input ▸ h.stream
        count := by rw [rp, rem, streamEnd_read (h.le_rem (place.rp ▸ size)), h.count]
        inside := par ▸ h.inside }
  case group =>
    exact
      { fsm := u.fsm
        ctrl := u.flags.1.trans place.ctrl
        bit := u.flags.2.trans (congrArg (· + 1) place.bit)
        rp := by rw [rp, place.rp, Nat.add_assoc]; rfl }
  case last =>
    by_contra more
    have room : (if c.nf + 1 = 8 then Fsm.cFlush else Fsm.cMatch) = .cMatch := if_neg more
    cases room.symm.trans full

/-- The decoder decodes the unit of the decision that comes. -/
theorem Agrees.reaches_decided {t c d : State} (h : Agrees t c d) (place : InGroup t c d) (inv : Inv c) (f : c.fsm = .cMatch)
    (p : c.pos < c.inLen.toNat) (next : ResultHolds t (decided c)) :
    ∃ d', Reaches d d' ∧ InStep t (decided c) d' := by
  have nf := (inv.compress (.inl f)).cMatch f
  have bit : d.bit ≠ 8 := by rw [place.bit]; omega
  have flag : nextFlag d = (outByteSeen t c.ol).getLsbD c.nf := by rw [nextFlag, place.ctrl, place.bit]
  have ol := h.ol
  have room := h.room
  obtain e | ⟨m, query, inside, e⟩ := decision_cases p
  case inl =>
    have unit := nextUnit_of_decided inv f e (by simp) next
    have size : d.rp + 1 ≤ t.outLen.toNat := place.rp ▸ unit.size
    have byte : inByte d d.rp = inByte c c.pos :=
      (h.stream d.rp size).trans (place.rp ▸ (standsAt_cons.1 unit.payload).1)
    obtain ⟨d', run, decoded⟩ := reaches_literal h.alone place.fsm bit (flag.trans unit.flag) (h.le_rem size)
      (h.le_inCap size) (by omega)
    rw [byte] at decoded
    exact ⟨d', run, h.after_decision place f (n := 1) e unit.size decoded⟩
  case inr =>
    have unit := nextUnit_of_decided inv f e (by simp [descriptor]) next
    have size : d.rp + 2 ≤ t.outLen.toNat := place.rp ▸ unit.size
    obtain ⟨low, tail⟩ := standsAt_cons.1 unit.payload
    have high := (standsAt_cons.1 tail).1
    have bytes : [inByte d d.rp, inByte d (d.rp + 1)] = descriptor (BitVec.ofNat 12 m.index) m.length := by
      rw [h.stream d.rp (by omega), h.stream (d.rp + 1) (by omega), place.rp, low, high]
      rfl
    have win : winByte c = winByte d := winByte_congr_seeded h.seeded.1 h.seeded.2 h.window.1 h.seedByte
    have found : matchFind d.cur.toNat (winByte d) (lookaheadBytes c) = some m := by
      rw [← win, ← h.window.2]
      exact query
    obtain ⟨-, -, -, lookahead, -⟩ := inv.ranges.par
    obtain ⟨-, short, -, -⟩ := matchFind_range query
    rw [lookaheadBytes_length] at short
    obtain ⟨d', run, decoded⟩ := reaches_match h.alone place.fsm bit (flag.trans unit.flag) (h.le_rem size)
      (h.le_inCap size) (by rw [lookaheadBytes_length]; omega) found bytes (by omega)
    have taken : (lookaheadBytes c).take m.length = inBytes c c.pos m.length := by
      rw [lookaheadBytes, inBytes, inBytes, ← List.map_take, List.take_range, Nat.min_eq_left short]
    rw [taken] at decoded
    exact ⟨d', run, h.after_decision place f e unit.size decoded⟩

/-! ### The whole command -/

/-- From `d` on, DECOMPRESS completes with the result `bs`. -/
def DecodesTo (d : State) (bs : List Byte) : Prop :=
  ∃ v, Reaches d v ∧ v.inputs = [] ∧ v.fsm = .idle ∧ v.status.done = true ∧ result v = bs

theorem DecodesTo.of_reaches {d d' : State} {bs : List Byte} (run : Reaches d d') (h : DecodesTo d' bs) : DecodesTo d bs := by
  obtain ⟨v, rest, ended⟩ := h
  exact ⟨v, run.trans rest, ended⟩

/-- At the end of the stream the decoder completes, and what it has put out is the whole input (R190). -/
theorem Agrees.decodesTo {t c d : State} (h : Agrees t c d) (f : d.fsm = .dCtrl ∨ d.fsm = .dUnit)
    (rp : d.rp = t.outLen.toNat) (p : c.pos = c.inLen.toNat) : DecodesTo d (inBytes c 0 c.inLen.toNat) := by
  have rem : d.rem = 0#16 := rem_eq_zero (by have := h.count; omega)
  have running : d.fsm ≠ .idle := by rcases f with f | f <;> simp [f]
  refine ⟨_, reaches_of_move h.alone.1 h.alone.2 running (.complete f rem), h.alone.1, rfl, rfl, ?_⟩
  have total : (complete (newEpoch d)).outLen.toNat = c.inLen.toNat := by
    show (BitVec.ofNat 32 d.ol).toNat = _
    rw [h.ol, p, BitVec.ofNat_toNat, BitVec.setWidth_eq]
  rw [result, inBytes, total]
  refine List.map_congr_left fun x mem => ?_
  have below := List.mem_range.1 mem
  rw [Nat.zero_add]
  exact outByteSeen_result rfl (by rwa [total]) (h.output x (by rw [h.ol]; omega))

/-- A decision takes nothing away from the input. -/
theorem inBytes_decided {c : State} (p : c.pos < c.inLen.toNat) :
    inBytes (decided c) 0 (decided c).inLen.toNat = inBytes c 0 c.inLen.toNat := by
  obtain ⟨_, _, _, _, _, _, _, e⟩ := decision_frame p
  rw [decided, e]
  rfl

/-- After a flush no group is pending, and all 8 units are decoded but at the end of the input. -/
theorem InStep.after_flush {t c d : State} (h : InStep t c d) (inv : Inv c) (f : c.fsm = .cFlush) :
    InStep t (flushed c) d := by
  have pending := (inv.compress (.inr (.inl f))).cFlush f
  obtain ⟨empty, -⟩ | ⟨-, g⟩ := h.place
  · omega
  have rp : d.rp = c.ol + (groupBytes c).length := by rw [g.rp, groupBytes_length inv.ranges.pl, Nat.add_assoc]
  rw [flushed, bytesWritten_frame]
  exact ⟨{ h.agrees with }, .inl ⟨rfl, .inr ⟨g.fsm, g.bit ▸ h.last f⟩, rp⟩, nofun⟩

/-- The end of the input changes FSM alone. -/
theorem InStep.after_inputEnd {t c d : State} (h : InStep t c d) (p : c.pos = c.inLen.toNat) :
    InStep t { c with fsm := if 0 < c.nf then .cFlush else .cPatch } d :=
  ⟨{ h.agrees with }, h.place.imp (And.imp_right fun b => { b with }) (And.imp_right fun g => { g with }), fun _ => .inr p⟩

theorem InStep.newEpoch {t c d : State} (h : InStep t c d) : InStep t (newEpoch c) d :=
  ⟨{ h.agrees with }, h.place.imp (And.imp_right fun b => { b with }) (And.imp_right fun g => { g with }), h.last⟩

/-- A DECOMPRESS in step with the rest of a COMPRESS puts out the whole input of it. -/
theorem Compresses.decodesTo {t c : State} (run : Compresses t c) {d : State} (h : InStep t c d) :
    DecodesTo d (inBytes c 0 c.inLen.toNat) := by
  induction run generalizing d with
  | inputEnd inv f p rest ih => exact ih (h.after_inputEnd p).newEpoch
  | decide inv f p rest ih =>
    have next : ResultHolds t (decided _) := { rest.resultHolds with }
    obtain ⟨d₁, enter, agrees, group⟩ := h.reaches_inGroup (inv.compress (.inl f)) p next
    obtain ⟨d₂, unit, h'⟩ := agrees.reaches_decided group inv f p next
    rw [← inBytes_decided p]
    exact .of_reaches (enter.trans unit) (ih h'.newEpoch)
  | @flush c inv f rest ih =>
    have same : inBytes (flushed c) 0 (flushed c).inLen.toNat = inBytes c 0 c.inLen.toNat := by
      rw [flushed, bytesWritten_frame]
      rfl
    rw [← same]
    exact ih (h.after_flush inv f).newEpoch
  | @patch c inv f e =>
    have ok := inv.compress (.inr (.inr f))
    obtain ⟨nf, p⟩ := ok.cPatch f
    obtain ⟨-, fsm, rp⟩ | ⟨pending, -⟩ := h.place
    · exact h.agrees.decodesTo (fsm.imp_right And.left) (by rw [rp, e, patched_outLen ok.payload.2]) p
    · omega

/-! ### From CMD write to CMD write -/

/-- A COMPRESS that completes was accepted, and then runs on from its start (R212, R243). -/
theorem compresses_of_commanded {n : Nat} {s t : State} (h : Inv s) (idle : s.status.busy = false)
    (run : Steps n (commanded 2#32 s) t) (inputs : t.inputs = []) (f : t.fsm = .idle) (done : t.status.done = true) :
    Compresses t (newEpoch (startCompress (seed (accept (cmdTaken s))))) := by
  cases run with
  | refl => cases inputs
  | next first rest =>
    have inv := stepKeepsInv _ _ (h.outside _ _ _) first
    rw [step_commanded_exec (by decide), exec_decodeCommand, onCmdWrite_idle (s := cmdTaken s) idle] at first
    have code : (2#32 : Word).toNat % 256 = 2 := rfl
    rw [code, commandEffect] at first
    by_cases l : s.inLen.toNat ≤ s.par.inCap
    · rw [beginCommand_goes (s := cmdTaken s) l] at first
      cases first
      exact compresses_of_steps rest inv rfl (.inl rfl) f done
    · rw [beginCommand_badLen (s := cmdTaken s) (Nat.not_le.1 l)] at first
      cases first
      rw [steps_idle rest rfl rfl] at done
      cases done

/-- A DECOMPRESS whose image lies inside IN is accepted (R176, R242). -/
theorem reaches_headerTaken {u : State} (idle : u.status.busy = false) (l : u.inLen.toNat ≤ u.par.inCap)
    (i : u.start.toNat + 2 + (headerAtStart u).toNat ≤ u.inLen.toNat) :
    Reaches (commanded 1#32 u) (headerTaken (headerAtStart u) (seed (accept (cmdTaken u)))) := by
  refine .of_step ?_
  rw [step_commanded_exec (by decide), exec_decodeCommand, onCmdWrite_idle (s := cmdTaken u) idle]
  have code : (1#32 : Word).toNat % 256 = 1 := rfl
  have header : headerAtStart (seed (accept (cmdTaken u))) = headerAtStart u := rfl
  rw [code, commandEffect, beginCommand_goes (s := cmdTaken u) l, andThen_goes, header,
    takeHeader_goes (s := seed (accept (cmdTaken u))) i, final_goes]

/-- Settles O55: both commands start from the same seeded window, and from there on the decoder is kept in step with the
COMPRESS that wrote its stream. -/
theorem decompressInvertsCompress : Obligations.DecompressInvertsCompress := by
  intro s t u n hs idle little run inputs f done hu idle' seedByte seedCursor start inLen inside room stream
  have compress := compresses_of_commanded hs idle run inputs f done
  have header := compress.resultHolds.header little
  have holds : 2 ≤ t.outLen.toNat := compress.resultHolds.size
  have size : (headerAtStart u).toNat + 2 = t.outLen.toNat := by
    rw [← header, headerAtStart, start]
    show (headerValue (inByte u 0) (inByte u 1)).toNat + 2 = _
    rw [stream 0 (by omega), stream 1 (by omega)]
  have image : u.start.toNat + 2 + (headerAtStart u).toNat = t.outLen.toNat := by
    rw [start, ← size]
    simp only [BitVec.toNat_ofNat]
    omega
  have inStep : InStep t (newEpoch (startCompress (seed (accept (cmdTaken s)))))
      (headerTaken (headerAtStart u) (seed (accept (cmdTaken u)))) :=
    { agrees :=
        { alone := ⟨rfl, hu.port⟩
          seeded := ⟨rfl, rfl⟩
          seedByte := seedByte.symm
          window := ⟨rfl, seedCursor.symm⟩
          ol := rfl
          output := nofun
          room := room
          stream := stream
          count := image
          inside := inLen ▸ inside }
      place := .inl ⟨rfl, .inl rfl, by show u.start.toNat + 2 = 2; rw [start]; rfl⟩
      last := nofun }
  have accepted := reaches_headerTaken idle' inside (by rw [image, inLen])
  obtain ⟨v, ⟨k, steps⟩, ended⟩ := DecodesTo.of_reaches accepted (compress.decodesTo inStep)
  exact ⟨k, v, steps, ended⟩

end Sys2Proof.Machine
end

section
/-! The host commands and the writes of the register words (45_host_commands): a command is refused while BUSY = 1 and has
the effect of its code otherwise, and a register write goes to the register that stands at its offset. -/

namespace Sys2Proof.Machine

/-! ### Commands -/

/-- Settles O6: the effect of the code 0 is none. -/
theorem nopChangesNothing : Obligations.NopChangesNothing := fun _ _ =>
  ⟨fun idle => onCmdWrite_idle idle _, fun busy => onCmdWrite_busy busy _⟩

/-- Settles O7: the decoded word has the effect of its code, and every code from 3 on has the same. -/
theorem reservedCommandTakesBadCmd : Obligations.ReservedCommandTakesBadCmd := by
  intro w s reserved idle
  rw [exec_decodeCommand, commandEffect_reserved reserved, onCmdWrite_idle idle]
  rfl

/-- Settles O8: all seven rows have the one meaning. -/
theorem eachReservedRowTakesBadCmd : Obligations.EachReservedRowTakesBadCmd := by
  intro op ign s i row
  have run : exec i s = onCmdWrite s refuseCommand := by
    simp only [List.mem_cons, List.not_mem_nil, or_false] at row
    rcases row with rfl | rfl | rfl | rfl | rfl | rfl | rfl <;> rfl
  rw [run]
  exact ⟨fun idle => onCmdWrite_idle idle _, fun busy => onCmdWrite_busy busy _⟩

theorem exec_decompress (ign : BitVec 24) (s : State) : exec (.decompress ign) s = onCmdWrite s (commandEffect 1) := rfl

theorem exec_compress (ign : BitVec 24) (s : State) : exec (.compress ign) s = onCmdWrite s (commandEffect 2) := rfl

/-- The length check of both acceptance rules comes before everything else, the seeding included (R242, R243). -/
theorem beginCommand_badLen_final {s : State} (long : s.par.inCap < s.inLen.toNat) (rest : State → Flow) :
    ((beginCommand s).andThen rest).final = faultedWith 0x02#8 s := by
  rw [beginCommand_badLen long]
  rfl

/-- Settles O10: the length check, and then the seeding and the start. -/
theorem compressIsAccepted : Obligations.CompressIsAccepted := by
  intro ign s idle
  rw [exec_compress, onCmdWrite_idle idle, commandEffect]
  refine ⟨fun long => ?_, fun inside => ?_⟩
  · rw [beginCommand_badLen_final long]
  · rw [beginCommand_goes inside]
    rfl

/-- Settles O9: the length check, and then the header token in the seeded window. -/
theorem decompressIsAccepted : Obligations.DecompressIsAccepted := by
  intro ign s idle lo hi
  have size : (headerAtStart s).toNat = lo + 256 * hi := headerValue_toNat _ _
  have header (inside : s.inLen.toNat ≤ s.par.inCap) := exec_decompress_header idle inside ign
  obtain ⟨startRange, hdrOverrun, goes⟩ := headerTokenStartsTheStream (headerAtStart s) (seed (accept s))
  rw [size] at hdrOverrun goes
  refine ⟨fun long => ?_, fun inside short => ?_, fun inside start overrun => ?_, fun inside fits => ?_⟩
  · rw [exec_decompress, onCmdWrite_idle idle, commandEffect, beginCommand_badLen_final long]
  · exact (header inside).trans (startRange short)
  · exact (header inside).trans (hdrOverrun start overrun)
  · exact ⟨_, (header inside).trans (goes fits), size, rfl⟩

/-- Settles O11: every command word is run as a CMD write, which looks at BUSY first. -/
theorem noCommandWhileBusy : Obligations.NoCommandWhileBusy := fun w s busy =>
  (exec_decodeCommand w s).trans (onCmdWrite_busy busy _)

/-! ### Register words -/

theorem onRegWrite_idle {s : State} (idle : s.status.busy = false) (t : State) : onRegWrite s t = .next t := by
  simp [onRegWrite, idle]

theorem onRegWrite_busy {s : State} (busy : s.status.busy = true) (t : State) : onRegWrite s t = .refused .regWhileBusy := by
  simp [onRegWrite, busy]

/-- STATUS, OUT_LEN and the reserved offsets take no write (R245). -/
theorem regWrite_ignored {offset : Nat} (other : offset = 0x04 ∨ 0x14 ≤ offset) (v : Word) (s : State) :
    regWrite offset v s = .next s := by
  have cmd : offset ≠ 0x00 := by omega
  have cfg : offset ≠ 0x08 := by omega
  have inLen : offset ≠ 0x0C := by omega
  have start : offset ≠ 0x10 := by omega
  simp only [regWrite, cmd, cfg, inLen, start, if_false]

/-- Settles O37: an allowed access goes to the register at its offset, any other is refused. -/
theorem hostWritesRegisters : Obligations.HostWritesRegisters := by
  intro s width offset v act
  refine ⟨fun allowed => ?_, fun bad => if_neg bad⟩
  have run : act = regWrite offset v s := if_pos allowed
  rw [run]
  refine ⟨?cmd, ?cfg, ?inLen, ?start, ?busy, fun other => regWrite_ignored other v s⟩
  case cmd => rintro rfl; rfl
  case cfg =>
    rintro rfl idle
    rw [← Nat.testBit_zero]
    exact onRegWrite_idle idle _
  case inLen => rintro rfl idle; exact onRegWrite_idle idle _
  case start => rintro rfl idle; exact onRegWrite_idle idle _
  case busy =>
    rintro (rfl | rfl | rfl) busy
    · exact onRegWrite_busy busy _
    · exact onRegWrite_busy busy _
    · exact onRegWrite_busy busy _

end Sys2Proof.Machine
end

section
/-! The fault entry (60_exceptions R265) and the idle engine (R300). -/

namespace Sys2Proof.Machine

/-- Settles O41: `raiseFault` writes the fields R265 lists, and R261 numbers the codes. -/
theorem faultEntryIsR265 : Obligations.FaultEntryIsR265 :=
  ⟨fun _ _ => rfl, rfl⟩

/-- Settles O45: the engine's turn, after its entry is taken off the schedule, leaves an idle engine's state. -/
theorem idleEngineTakesNoStep : Obligations.IdleEngineTakesNoStep := fun s tick idle =>
  (step_tick tick).trans (engineTurn_idle (s := dropInput s) idle)

end Sys2Proof.Machine
end

section
/-! Every command ends (R309, R310). `turnsLeft` bounds the engine's turns still to come by the input that is left: each turn of
a running engine lowers it, and acceptance starts it one below the bound that R310 gives the command. -/

namespace Sys2Proof.Machine

/-! ### The bound on the turns still to come -/

/-- The bytes of the input that COMPRESS has not taken yet. -/
def inputLeft (s : State) : Nat := s.inLen.toNat - s.pos

/-- At most this many turns of the engine are left of the command. A stream byte pays for 12, so the two bytes of a descriptor
pay for the 18 turns of its copy. An input byte pays for its decision and for a flush. No byte pays for the last end of input
and C_PATCH, for the end of input that finds the last group pending (with input left, it may still come), and for the flush of
a group that is pending already. -/
def turnsLeft (s : State) : Nat :=
  match s.fsm with
  | .idle => 0
  | .dCtrl => 12 * s.rem.toNat + 1
  | .dUnit => 12 * s.rem.toNat + 2
  | .dCopy => 12 * s.rem.toNat + (s.len - s.k) + 2
  | .cMatch => 2 * inputLeft s + if s.nf = 0 then min 1 (inputLeft s) + 2 else 4
  | .cFlush => 2 * inputLeft s + min 1 (inputLeft s) + 3
  | .cPatch => 1

theorem turnsLeft_dCtrl {s : State} (f : s.fsm = .dCtrl) : turnsLeft s = 12 * s.rem.toNat + 1 := by
  rw [turnsLeft, f]

theorem turnsLeft_dUnit {s : State} (f : s.fsm = .dUnit) : turnsLeft s = 12 * s.rem.toNat + 2 := by
  rw [turnsLeft, f]

theorem turnsLeft_dCopy {s : State} (f : s.fsm = .dCopy) : turnsLeft s = 12 * s.rem.toNat + (s.len - s.k) + 2 := by
  rw [turnsLeft, f]

/-- Before the first decision of a group. -/
theorem turnsLeft_cMatch_fresh {s : State} (f : s.fsm = .cMatch) (nf : s.nf = 0) :
    turnsLeft s = 2 * inputLeft s + (min 1 (inputLeft s) + 2) := by
  rw [turnsLeft, f]
  exact congrArg _ (if_pos nf)

/-- With a group pending. -/
theorem turnsLeft_cMatch_pending {s : State} (f : s.fsm = .cMatch) (nf : s.nf ≠ 0) :
    turnsLeft s = 2 * inputLeft s + 4 := by
  rw [turnsLeft, f]
  exact congrArg _ (if_neg nf)

theorem turnsLeft_cFlush {s : State} (f : s.fsm = .cFlush) :
    turnsLeft s = 2 * inputLeft s + min 1 (inputLeft s) + 3 := by
  rw [turnsLeft, f]

theorem turnsLeft_pos {s : State} (running : s.fsm ≠ .idle) : 0 < turnsLeft s := by
  cases f : s.fsm with
  | idle => exact absurd f running
  | cMatch =>
    by_cases nf : s.nf = 0
    · rw [turnsLeft_cMatch_fresh f nf]
      omega
    · rw [turnsLeft_cMatch_pending f nf]
      omega
  | dCtrl | dUnit | dCopy | cFlush | cPatch => simp [turnsLeft, f]

/-! ### Every turn lowers the bound -/

theorem brefTaken_turnsLeft {s : State} (f : s.fsm = .dUnit) (c : 2 ≤ s.rem.toNat) :
    turnsLeft (brefTaken s) < turnsLeft s := by
  have rem : (brefTaken s).rem.toNat + 2 = s.rem.toNat := rem_read c
  have len : (brefTaken s).len ≤ 18 := (lengthCode_range (inByte s (s.rp + 1))).2
  rw [turnsLeft_dUnit f, turnsLeft_dCopy (s := brefTaken s) rfl]
  omega

theorem copied_turnsLeft {s : State} (f : s.fsm = .dCopy) (more : s.k < s.len) :
    turnsLeft (copied s) < turnsLeft s := by
  have fsm := copied_fsm f
  have rem : (copied s).rem = s.rem := rfl
  rw [turnsLeft_dCopy f]
  split at fsm
  · rw [turnsLeft_dUnit fsm, rem]
    omega
  · have left : (copied s).len - (copied s).k = s.len - (s.k + 1) := rfl
    rw [turnsLeft_dCopy fsm, rem, left]
    omega

theorem inputEnd_turnsLeft {s : State} (f : s.fsm = .cMatch) (p : s.pos = s.inLen.toNat) :
    turnsLeft { s with fsm := if 0 < s.nf then .cFlush else .cPatch } < turnsLeft s := by
  have left : inputLeft s = 0 := by simp [inputLeft, p]
  by_cases nf : s.nf = 0
  · rw [turnsLeft_cMatch_fresh f nf, if_neg (by omega)]
    show 1 < _
    omega
  · rw [turnsLeft_cMatch_pending f nf, if_pos (by omega)]
    show 2 * inputLeft s + min 1 (inputLeft s) + 3 < _
    omega

/-- A decision takes a byte of the input at least. -/
theorem decided_inputLeft {s : State} (p : s.pos < s.inLen.toNat) :
    inputLeft (decided s) + 1 ≤ inputLeft s ∧ (decided s).nf = s.nf + 1 := by
  obtain ⟨n, _, _, taken, below, _, _, e⟩ := decision_frame p
  rw [decided, e]
  refine ⟨?_, rfl⟩
  show s.inLen.toNat - (s.pos + n) + 1 ≤ s.inLen.toNat - s.pos
  omega

theorem decided_turnsLeft {s : State} (f : s.fsm = .cMatch) (p : s.pos < s.inLen.toNat) :
    turnsLeft (decided s) < turnsLeft s := by
  obtain ⟨left, nf⟩ := decided_inputLeft p
  have fsm := decided_fsm f p
  have now : 2 * inputLeft s + 3 ≤ turnsLeft s := by
    by_cases fresh : s.nf = 0
    · rw [turnsLeft_cMatch_fresh f fresh]
      omega
    · rw [turnsLeft_cMatch_pending f fresh]
      omega
  split at fsm
  · rw [turnsLeft_cFlush fsm]
    omega
  · rw [turnsLeft_cMatch_pending fsm (by omega)]
    omega

theorem flushed_turnsLeft {s : State} (f : s.fsm = .cFlush) : turnsLeft (flushed s) < turnsLeft s := by
  have left : inputLeft (flushed s) = inputLeft s := by
    rw [flushed, bytesWritten_frame]
    rfl
  rw [turnsLeft_cFlush f, turnsLeft_cMatch_fresh (s := flushed s) rfl rfl, left]
  omega

/-- Every move of a running engine leaves fewer turns of the command. -/
theorem EngineMove.turnsLeft_lt {s t : State} (m : EngineMove s t) (h : Inv s) (running : s.fsm ≠ .idle) :
    turnsLeft t < turnsLeft s := by
  cases m with
  | rest f => exact absurd f running
  | complete | litFull | brefCut | copyFull | flushFull | patch => exact turnsLeft_pos running
  | ctrl f r =>
    have rem : (ctrlTaken s).rem.toNat + 1 = s.rem.toNat := rem_read (rem_pos r)
    rw [turnsLeft_dCtrl f, turnsLeft_dUnit (s := ctrlTaken s) rfl]
    omega
  | groupEnd f =>
    rw [turnsLeft_dUnit f]
    exact Nat.lt_succ_self _
  | lit f r =>
    have rem : (litTaken s).rem.toNat + 1 = s.rem.toNat := rem_read (rem_pos r)
    rw [turnsLeft_dUnit f, turnsLeft_dUnit (s := emitted _ (litTaken s)) f]
    show 12 * (litTaken s).rem.toNat + 2 < _
    omega
  | bref f _ _ _ c => exact brefTaken_turnsLeft f c
  | copy f => exact copied_turnsLeft f ((h.decompress (.inr (.inr f))).copy f)
  | inputEnd f _ p => exact inputEnd_turnsLeft f p
  | decide f _ p => exact decided_turnsLeft f p
  | flush f => exact flushed_turnsLeft f

/-! ### The end of a command -/

/-- R309: once the engine is idle, exactly one of DONE and FAULT is 1. -/
def EndsWithOneFlag (s : State) : Prop := s.fsm = .idle → s.status.done = !s.status.fault

theorem raiseFault_endsWithOneFlag (code : FaultCode) (s : State) : EndsWithOneFlag (raiseFault code s) := fun _ => rfl

theorem EngineMove.endsWithOneFlag {s t : State} (m : EngineMove s t) (h : Inv s) (running : s.fsm ≠ .idle) :
    EndsWithOneFlag t := by
  obtain ⟨goes, -⟩ | ⟨u, status, rfl⟩ | ⟨code, u, -, rfl⟩ := m.goes_or_ends running
  · exact fun idle => absurd idle goes
  · obtain ⟨-, noFault, -⟩ := h.status.running (h.status.busy.2 running)
    intro _
    rw [complete_status, status, noFault]
    rfl
  · exact raiseFault_endsWithOneFlag code u

/-- Within this many steps nothing is scheduled any more, the engine is idle, and exactly one of DONE and FAULT is 1. -/
def EndsWithin (bound : Nat) (s : State) : Prop :=
  ∃ n t, n ≤ bound ∧ Steps n s t ∧ t.inputs = [] ∧ t.fsm = .idle ∧ t.status.done = !t.status.fault

theorem EndsWithin.of_step {bound rest : Nat} {s t : State} (first : step s = .next t) (ends : EndsWithin rest t)
    (less : rest < bound) : EndsWithin bound s := by
  obtain ⟨n, u, le, run, ended⟩ := ends
  exact ⟨n + 1, u, by omega, .next first run, ended⟩

/-- With nothing scheduled, the engine alone ends its command within the turns that are left. -/
theorem endsWithin_turnsLeft {s : State} (h : Inv s) (inputs : s.inputs = []) (flag : EndsWithOneFlag s) :
    EndsWithin (turnsLeft s) s := by
  by_cases f : s.fsm = .idle
  · exact ⟨0, s, Nat.zero_le _, .refl s, inputs, f, flag f⟩
  · obtain ⟨t, e⟩ := engineTurn_next h
    have first : step s = .next t := (step_of_noInputs inputs).trans e
    rw [engineTurn_running f h.port] at e
    have drawn := newEpoch_inv h
    have m := engineStep_cases e
    have less : turnsLeft t < turnsLeft s := m.turnsLeft_lt drawn f
    have empty : t.inputs = [] := (engineStep_port e).2.trans inputs
    exact (endsWithin_turnsLeft (m.inv drawn) empty (m.endsWithOneFlag drawn f)).of_step first less
termination_by turnsLeft s

/-! ### Acceptance -/

/-- The length check of both acceptance rules passes, or F_BAD_LEN is all there is. -/
theorem beginCommand_cases (s : State) (rest : State → Flow) :
    ((beginCommand s).andThen rest).final = raiseFault .badLen (accept s) ∨
      ((beginCommand s).andThen rest).final = (rest (seed (accept s))).final := by
  rcases Nat.lt_or_ge s.par.inCap s.inLen.toNat with long | fits
  · rw [beginCommand_badLen long]
    exact .inl rfl
  · rw [beginCommand_goes fits]
    exact .inr rfl

theorem takeHeader_cases (size : BitVec 16) (s : State) :
    (∃ code, (takeHeader size s).final = raiseFault code s) ∨ (takeHeader size s).final = headerTaken size s := by
  unfold takeHeader
  split_ifs
  · exact .inl ⟨_, rfl⟩
  · exact .inl ⟨_, rfl⟩
  · exact .inr rfl

/-- A command that begins with a fault or goes on with at most this many turns. -/
def BeginsWithin (bound : Nat) (s : State) : Prop := EndsWithOneFlag s ∧ turnsLeft s ≤ bound

theorem raiseFault_beginsWithin (bound : Nat) (code : FaultCode) (s : State) : BeginsWithin bound (raiseFault code s) :=
  ⟨raiseFault_endsWithOneFlag code s, Nat.zero_le bound⟩

theorem decompress_beginsWithin (s : State) :
    BeginsWithin (12 * (headerAtStart s).toNat + 1) (commandEffect 1 s).final := by
  rw [commandEffect]
  obtain e | e := beginCommand_cases s fun u => takeHeader (headerAtStart u) u
  · rw [e]
    exact raiseFault_beginsWithin _ _ _
  · rw [e, headerAtStart_seed_accept]
    obtain ⟨code, e⟩ | e := takeHeader_cases (headerAtStart s) (seed (accept s))
    · rw [e]
      exact raiseFault_beginsWithin _ _ _
    · rw [e]
      exact ⟨nofun, Nat.le_refl _⟩

theorem compress_beginsWithin (s : State) : BeginsWithin (2 * s.inLen.toNat + 3) (commandEffect 2 s).final := by
  rw [commandEffect]
  obtain e | e := beginCommand_cases s fun u => .goes (startCompress u)
  · rw [e]
    exact raiseFault_beginsWithin _ _ _
  · rw [e, final_goes]
    refine ⟨nofun, ?_⟩
    have left : inputLeft (startCompress (seed (accept s))) = s.inLen.toNat := rfl
    rw [turnsLeft_cMatch_fresh (s := startCompress _) rfl rfl, left]
    omega

/-- A command ends within the turns it begins with and the CMD write. -/
theorem commanded_endsWithin {s : State} {w : Word} {bound : Nat} (h : Inv s) (idle : s.status.busy = false)
    (code : w.toNat % 256 ≠ 0)
    (begins : BeginsWithin bound (commandEffect (w.toNat % 256) (newEpoch (dropInput (commanded w s)))).final) :
    EndsWithin (bound + 1) (commanded w s) := by
  have first := step_commanded idle code
  have inputs := (commandEffect_cases (w.toNat % 256) (newEpoch (dropInput (commanded w s)))).port_inputs.2
  obtain ⟨flag, turns⟩ := begins
  exact (endsWithin_turnsLeft (stepKeepsInv _ _ (h.outside _ _ _) first) inputs flag).of_step first (Nat.lt_succ_of_le turns)

/-- Settles O52: acceptance leaves one turn less than the bound at most, and every turn of the engine counts down. -/
theorem commandsEndWithinBounds : Obligations.CommandsEndWithinBounds := by
  intro s w h idle
  refine ⟨fun code => ?_, fun code => ?_⟩
  · refine commanded_endsWithin h idle (by omega) ?_
    rw [code]
    exact decompress_beginsWithin (newEpoch (dropInput (commanded w s)))
  · refine commanded_endsWithin h idle (by omega) ?_
    rw [code]
    exact compress_beginsWithin (newEpoch (dropInput (commanded w s)))

end Sys2Proof.Machine
end
